-- ==== Sys2Proof/Word.lean ====
section
/-! DEFINITION. The word types of the machine and the two register widths. Everything computed on words stands in
`Sys2Proof/Machine/Width.lean`. -/

namespace Sys2Proof

/-- A register value. On MXLEN = 32 only its low 32 bits mean anything (log 2). -/
abbrev Word := BitVec 64

/-- One byte of memory, and one PMP configuration register. -/
abbrev Byte := BitVec 8

/-- A 32-bit instruction word (R280). -/
abbrev InstWord := BitVec 32

/-- The register width MXLEN, which is also SXLEN and UXLEN (R62, R63, decisions D1 and D6). -/
inductive Xlen where
  | rv32
  | rv64
  deriving DecidableEq, Repr, Inhabited

/-- XLEN as a number of bits (R62). -/
def Xlen.bits : Xlen → Nat
  | .rv32 => 32
  | .rv64 => 64

end Sys2Proof
end

