-- ==== Sys2Proof/Config.lean ====
section
/-! DEFINITION. What an implementation fixes (the parameters of `00_scope.md` section 4), the record of what the platform
supplies at one instruction boundary, and the one free value of the model: the platform input that nothing constrains. -/

namespace Sys2Proof

/-- The privilege modes of R30 that this spec has: encoding 2 is reserved. -/
inductive Priv where
  | U
  | S
  | M
  deriving DecidableEq, Repr, Inhabited

/-- The encoding of a mode (R30), also its rank: a higher number has more privilege. -/
def Priv.level : Priv → Nat
  | .U => 0
  | .S => 1
  | .M => 3

/-- The combinations of modes an implementation may provide (R31, parameter `MODES`). -/
inductive Modes where
  | m
  | mu
  | msu
  deriving DecidableEq, Repr, Inhabited

/-- The memory-mapped machine-level registers of R210. -/
inductive Device where
  | mtime
  | mtimecmp
  | msip
  deriving DecidableEq, Repr, Inhabited

/-- What a region of the memory map is (R209). -/
inductive RegionKind where
  | ram
  | rom
  | dev (d : Device)
  deriving DecidableEq, Repr, Inhabited

/-- One region of `MEM_MAP` (R209): `size` bytes from the physical address `base`. -/
structure Region where
  base : Nat
  size : Nat
  kind : RegionKind
  deriving DecidableEq, Repr, Inhabited

/-- The implementation parameters of `00_scope.md` section 4. The addresses `MTIME_ADDR`, `MTIMECMP_ADDR` and `MSIP_ADDR`
are the bases of the device regions of `memMap`. -/
structure Config where
  xlen : Xlen
  modes : Modes
  extN : Bool
  mvendorid : BitVec 32
  marchid : Word
  mimpid : Word
  mhartid : Word
  palen : Nat
  pmpEntries : Nat
  pmpG : Nat
  memMap : List Region
  resetVector : Word
  deriving DecidableEq, Repr, Inhabited

namespace Config

/-- U-mode is implemented (R31). -/
def hasU (c : Config) : Bool := c.modes != .m

/-- S-mode is implemented (R31). -/
def hasS (c : Config) : Bool := c.modes == .msu

/-- User-level interrupts are implemented: `EXT_N`, which needs U-mode (R92, decision D3). -/
def hasN (c : Config) : Bool := c.extN && c.hasU

/-- Mode `p` is in `MODES` (R31). -/
def hasMode (c : Config) : Priv → Bool
  | .U => c.hasU
  | .S => c.hasS
  | .M => true

end Config

/-- The configuration `State.reset` stands in. DESIGN CHOICE (log 1): the spec leaves the parameters open; the widest
hart is taken, with the defaults of `00_scope.md` section 4 and the memory map of `95_test_vectors.md`. -/
def Config.default : Config where
  xlen := .rv64
  modes := .msu
  extN := false
  mvendorid := 0
  marchid := 0
  mimpid := 0
  mhartid := 0
  palen := 56
  pmpEntries := 16
  pmpG := 0
  memMap := [
    { base := 0x80000000, size := 0x10000, kind := .ram },
    { base := 0x02000000, size := 4, kind := .dev .msip },
    { base := 0x02004000, size := 8, kind := .dev .mtimecmp },
    { base := 0x0200BFF8, size := 8, kind := .dev .mtime } ]
  resetVector := 0x80000000

/-- The signals the platform holds at an instruction boundary (R159), and its free choice to end a WFI stall there for no
architectural reason (R356). -/
structure Lines where
  meip : Bool
  seip : Bool
  ueip : Bool
  wake : Bool
  deriving DecidableEq, Repr, Inhabited

/-- What the platform does between two instructions: the new signals, and by how much `mtime` and `mcycle` advance
(R134, R136, R159, R570, R630). -/
structure PlatformInput where
  lines : Lines
  mtimeTicks : Nat
  cycles : Nat
  deriving DecidableEq, Repr, Inhabited

/-- FREE VALUE (log 6): the platform input at boundary `n` when `State.inputs` names none. It has no body, so nothing about
it can be proved: the external interrupt lines (R159, A17), the rates of `mtime` and `mcycle` (R630, A37) and a spurious
wake (R356, A36) are whatever the platform makes them. -/
opaque Config.freeInput : Nat → PlatformInput

end Sys2Proof
end

