-- ==== Sys2Proof/Machine/State.lean ====
section
/-! DEFINITION. The state of the machine as plain data, the reasons a step can stop, and the machine right after reset.
Every field but the last four is the spec's (`INVENTORY.md`, State); those four are the model's own (log 6 and 8). -/

namespace Sys2Proof.Machine

/-- The stored fields of `mstatus` (R84 to R102). FS, XS, SD, SXL, UXL and the WPRI bits are hardwired and computed when
`mstatus` is read (R107). -/
structure Mstatus where
  mie : Bool
  sie : Bool
  uie : Bool
  mpie : Bool
  spie : Bool
  upie : Bool
  mpp : Priv
  spp : Bool
  mprv : Bool
  sum : Bool
  mxr : Bool
  tvm : Bool
  tw : Bool
  tsr : Bool
  deriving DecidableEq, Repr, Inhabited

/-- The trap registers of one level x: `xtvec`, `xscratch`, `xepc`, `xcause`, `xtval` (R108, R142 to R145, R156, R157). -/
structure TrapRegs where
  tvec : Word
  scratch : Word
  epc : Word
  cause : Word
  tval : Word
  deriving DecidableEq, Repr, Inhabited

/-- The stored bits of `mip` (R331). MEIP, MTIP and MSIP have no storage: they follow their sources (R159). -/
structure MipBits where
  usip : Bool
  ssip : Bool
  utip : Bool
  stip : Bool
  ueipSw : Bool
  seipSw : Bool
  deriving DecidableEq, Repr, Inhabited

/-- Physical memory: the bytes that differ from what an unlisted address reads as, by rising address. -/
abbrev Memory := List Host.Cell

/-- The hart, the platform registers it shares memory with, and the model's own fields. -/
structure State where
  /-- The implementation parameters; no step changes them (log 1). -/
  cfg : Config
  /-- `x0` to `x31` (R37); the slot of `x0` is never read (R38). -/
  xregs : Vector Word 32
  /-- The address of the instruction to execute next (R39). -/
  pc : Word
  /-- The current privilege mode (R34). -/
  priv : Priv
  /-- `mstatus` (R83). -/
  mstatus : Mstatus
  /-- `mtvec`, `mscratch`, `mepc`, `mcause`, `mtval`. -/
  mtrap : TrapRegs
  /-- `stvec`, `sscratch`, `sepc`, `scause`, `stval` (R156). -/
  strap : TrapRegs
  /-- `utvec`, `uscratch`, `uepc`, `ucause`, `utval` (R157). -/
  utrap : TrapRegs
  /-- `medeleg` (R114). -/
  medeleg : Word
  /-- `mideleg` (R115). -/
  mideleg : Word
  /-- `sedeleg` (R117). -/
  sedeleg : Word
  /-- `sideleg` (R117). -/
  sideleg : Word
  /-- `mie` (R119). -/
  mie : Word
  /-- The stored bits of `mip` (R118, R331). -/
  mip : MipBits
  /-- `mcounteren` (R139). -/
  mcounteren : BitVec 32
  /-- `scounteren` (R140). -/
  scounteren : BitVec 32
  /-- `mcountinhibit` (R141). -/
  mcountinhibit : BitVec 32
  /-- `mcycle` (R136). -/
  mcycle : BitVec 64
  /-- `minstret` (R136). -/
  minstret : BitVec 64
  /-- `pmp0cfg` to `pmp15cfg` (R149). -/
  pmpcfg : Vector Byte 16
  /-- `pmpaddr0` to `pmpaddr15` as stored (R150 to R154). -/
  pmpaddr : Vector Word 16
  /-- The hart has executed WFI and is stalled (R160). -/
  wfiStalled : Bool
  /-- The platform's `mtime` (R134). -/
  mtime : BitVec 64
  /-- This hart's `mtimecmp` (R135). -/
  mtimecmp : BitVec 64
  /-- Bit 0 of this hart's `msip` register (R127, R210). -/
  msip : Bool
  /-- `meip_ext`, `seip_ext`, `ueip_ext` (R159), and the platform's choice to end a stall here (R356). -/
  lines : Lines
  /-- Physical memory (R200). -/
  mem : Memory
  /-- MODEL: the platform's inputs still to come, one for each step (log 6). -/
  inputs : List PlatformInput
  /-- MODEL: how many boundaries the platform has passed; it selects the free input (log 6). -/
  boundary : Nat
  /-- MODEL: the instruction of this step wrote `mcycle`, so its own cycles are not added (R328, log 8). -/
  mcycleWritten : Bool
  deriving DecidableEq, Repr

/-- Why a step stops. There is no reason: every fault of this spec is an exception with a described entry, and the model
takes it (R500, R531). -/
inductive Fault where
  deriving DecidableEq, Repr

/-- Why an instruction has no meaning. -/
inductive Refusal where
  /-- Raised by `exec` for an instruction whose meaning is not written: safe, nothing is claimed of it. No arm raises it. -/
  | notModelled (mnemonic : String)
  deriving DecidableEq, Repr

/-- Trap registers of a level after reset. DESIGN CHOICE (log 3): R165 leaves them unspecified; zero. -/
def TrapRegs.zero : TrapRegs := { tvec := 0, scratch := 0, epc := 0, cause := 0, tval := 0 }

/-- `mstatus` after reset: MIE = 0 and MPRV = 0 (R165); the rest DESIGN CHOICE (log 3, log 4): zero, and MPP = U. -/
def Mstatus.reset : Mstatus :=
  { mie := false, sie := false, uie := false, mpie := false, spie := false, upie := false, mpp := .U, spp := false,
    mprv := false, sum := false, mxr := false, tvm := false, tw := false, tsr := false }

/-- The machine right after reset (R165, R601): `priv` = M, `pc` = `RESET_VECTOR`, `mcause` = 0, every PMP entry OFF and
unlocked, no WFI stall. What R165 calls unspecified has the values of log 3 to 7. -/
def State.reset : State where
  cfg := Config.default
  xregs := Vector.replicate 32 0
  pc := Config.default.resetVector
  priv := .M
  mstatus := Mstatus.reset
  mtrap := TrapRegs.zero
  strap := TrapRegs.zero
  utrap := TrapRegs.zero
  medeleg := 0
  mideleg := 0
  sedeleg := 0
  sideleg := 0
  mie := 0
  mip := { usip := false, ssip := false, utip := false, stip := false, ueipSw := false, seipSw := false }
  mcounteren := 0
  scounteren := 0
  mcountinhibit := 0
  mcycle := 0
  minstret := 0
  pmpcfg := Vector.replicate 16 0
  pmpaddr := Vector.replicate 16 0
  wfiStalled := false
  mtime := 0
  mtimecmp := BitVec.allOnes 64
  msip := false
  lines := { meip := false, seip := false, ueip := false, wake := false }
  mem := []
  inputs := []
  boundary := 0
  mcycleWritten := false

end Sys2Proof.Machine
end

