-- ==== Sys2Proof/Machine/Width.lean ====
section
/-! DEFINITION. Bit fields, sign extension and the two register widths. An XLEN-bit value stands in a 64-bit word; on
MXLEN = 32 its upper half is zero (log 2). -/

namespace Sys2Proof.Machine

/-- The low XLEN bits of a word: arithmetic is modulo 2^XLEN (R401). -/
def truncX : Xlen → Word → Word
  | .rv32, v => (v.setWidth 32).setWidth 64
  | .rv64, v => v

/-- An XLEN-bit value as a 64-bit signed one: what `<s` and `>>s` compare and shift (R401). -/
def signX : Xlen → Word → Word
  | .rv32, v => (v.setWidth 32).signExtend 64
  | .rv64, v => v

/-- The low 32 bits sign-extended: the result of the RV64 word instructions (R445 to R453), and of LW (R415). -/
def sext32 (v : Word) : Word := (v.setWidth 32).signExtend 64

/-- The low 16 bits sign-extended (R414). -/
def sext16 (v : Word) : Word := (v.setWidth 16).signExtend 64

/-- The low 8 bits sign-extended (R413). -/
def sext8 (v : Word) : Word := (v.setWidth 8).signExtend 64

/-- One bit as a word at position `k`. -/
def bitAt (b : Bool) (k : Nat) : Word := if b then (1 : Word) <<< k else 0

/-- The word with its low two bits cleared: `BASE ++ 0b00` of a vector (R109), and `xepc` (R143). -/
def alignWord (v : Word) : Word := v &&& ~~~(3 : Word)

end Sys2Proof.Machine
end

