-- ==== Sys2Proof/Machine/Flags.lean ====
section
/-! DEFINITION. The architecture has no condition codes (R166): a comparison is computed where it is used, by a branch or
a set-if-less-than, and nothing is stored. These are those comparisons. -/

namespace Sys2Proof.Machine

/-- `a == b` on all XLEN bits (R407). -/
def cmpEq (xl : Xlen) (a b : Word) : Bool := truncX xl a == truncX xl b

/-- `a <s b` (R401, R409). -/
def cmpLt (xl : Xlen) (a b : Word) : Bool := (signX xl a).slt (signX xl b)

/-- `a <u b` (R401, R411). -/
def cmpLtu (xl : Xlen) (a b : Word) : Bool := (truncX xl a).ult (truncX xl b)

/-- The 0 or 1 a set-if-less-than writes (R422, R433). -/
def boolWord (b : Bool) : Word := if b then 1 else 0

end Sys2Proof.Machine
end

