-- ==== Sys2Proof/Decode.lean ====
section
/-! DEFINITION. The decoder and, after it, the encoder: both written from the encoding tables of `30_encoding.md`. The
decoder is the procedure of R287 over the table of R293: the row whose mask and match fit the word. It is total on any
bytes and rejects by name. -/

namespace Sys2Proof

/-! ### Fields (R281, R282, R283, R285) -/

/-- `rd`, `inst[11:7]`. -/
def fRd (w : InstWord) : Reg := w.extractLsb' 7 5

/-- `rs1`, `inst[19:15]`, also the `uimm` of the CSR immediate forms (R285). -/
def fRs1 (w : InstWord) : Reg := w.extractLsb' 15 5

/-- `rs2`, `inst[24:20]`, also the five-bit shift amount (R283). -/
def fRs2 (w : InstWord) : Reg := w.extractLsb' 20 5

/-- `csr[11:0]`, `inst[31:20]` (R285). -/
def fCsr (w : InstWord) : CsrAddr := w.extractLsb' 20 12

/-- `imm[11:0]` of the I format. -/
def fImmI (w : InstWord) : BitVec 12 := w.extractLsb' 20 12

/-- `imm[11:0]` of the S format: `inst[31:25] ++ inst[11:7]`. -/
def fImmS (w : InstWord) : BitVec 12 := w.extractLsb' 25 7 ++ w.extractLsb' 7 5

/-- `imm[12:1]` of the B format: `inst[31] ++ inst[7] ++ inst[30:25] ++ inst[11:8]`. -/
def fImmB (w : InstWord) : BitVec 12 :=
  w.extractLsb' 31 1 ++ w.extractLsb' 7 1 ++ w.extractLsb' 25 6 ++ w.extractLsb' 8 4

/-- `imm[31:12]` of the U format. -/
def fImmU (w : InstWord) : BitVec 20 := w.extractLsb' 12 20

/-- `imm[20:1]` of the J format: `inst[31] ++ inst[19:12] ++ inst[20] ++ inst[30:21]`. -/
def fImmJ (w : InstWord) : BitVec 20 :=
  w.extractLsb' 31 1 ++ w.extractLsb' 12 8 ++ w.extractLsb' 20 1 ++ w.extractLsb' 21 10

/-- `shamt[5:0]`, `inst[25:20]` (R283); on MXLEN = 32 its top bit is required to be 0 by the row's mask. -/
def fShamt (w : InstWord) : BitVec 6 := w.extractLsb' 20 6

/-- `fm`, `inst[31:28]` of FENCE. -/
def fFm (w : InstWord) : BitVec 4 := w.extractLsb' 28 4

/-- `pred`, `inst[27:24]` of FENCE. -/
def fPred (w : InstWord) : BitVec 4 := w.extractLsb' 24 4

/-- `succ`, `inst[23:20]` of FENCE. -/
def fSucc (w : InstWord) : BitVec 4 := w.extractLsb' 20 4

/-! ### The table of R293 -/

/-- One row of the table: match, the mask for each width, whether it exists on MXLEN = 64 only, and the instruction. -/
structure Row where
  pattern : InstWord
  mask32 : InstWord
  mask64 : InstWord
  rv64Only : Bool
  build : InstWord → Instr

/-- A row with one mask for both widths. -/
def row (pattern mask : InstWord) (build : InstWord → Instr) : Row :=
  { pattern := pattern, mask32 := mask, mask64 := mask, rv64Only := false, build := build }

/-- A row that exists on MXLEN = 64 only. -/
def row64 (pattern mask : InstWord) (build : InstWord → Instr) : Row :=
  { pattern := pattern, mask32 := mask, mask64 := mask, rv64Only := true, build := build }

/-- A row of SLLI, SRLI or SRAI: seven fixed high bits on MXLEN = 32, six on MXLEN = 64 (R283). -/
def rowShift (pattern : InstWord) (build : InstWord → Instr) : Row :=
  { pattern := pattern, mask32 := 0xfe00707f, mask64 := 0xfc00707f, rv64Only := false, build := build }

/-- The mask of a row on a hart of width `xl`. -/
def Row.mask (r : Row) : Xlen → InstWord
  | .rv32 => r.mask32
  | .rv64 => r.mask64

/-- The row exists on a hart of width `xl` (R287). -/
def Row.available (r : Row) (xl : Xlen) : Bool := !r.rv64Only || xl == .rv64

/-- `(w and mask) == match` (R287). -/
def Row.fits (r : Row) (xl : Xlen) (w : InstWord) : Bool := w &&& r.mask xl == r.pattern

/-- The SYSTEM rows of R293: Zicsr (R285) and PRIV (R286). -/
def rowsSystem : List Row := [
  row 0x00001073 0x0000707f (fun w => .csrrw (fRd w) (fCsr w) (fRs1 w)),
  row 0x00002073 0x0000707f (fun w => .csrrs (fRd w) (fCsr w) (fRs1 w)),
  row 0x00003073 0x0000707f (fun w => .csrrc (fRd w) (fCsr w) (fRs1 w)),
  row 0x00005073 0x0000707f (fun w => .csrrwi (fRd w) (fCsr w) (fRs1 w)),
  row 0x00006073 0x0000707f (fun w => .csrrsi (fRd w) (fCsr w) (fRs1 w)),
  row 0x00007073 0x0000707f (fun w => .csrrci (fRd w) (fCsr w) (fRs1 w)),
  row 0x00000073 0xffffffff (fun _ => .ecall),
  row 0x00100073 0xffffffff (fun _ => .ebreak),
  row 0x30200073 0xffffffff (fun _ => .mret),
  row 0x10200073 0xffffffff (fun _ => .sret),
  row 0x00200073 0xffffffff (fun _ => .uret),
  row 0x10500073 0xffffffff (fun _ => .wfi),
  row 0x12000073 0xfe007fff (fun w => .sfenceVma (fRs1 w) (fRs2 w))]

/-- The rows of LUI, AUIPC and the control transfers (R293). -/
def rowsControl : List Row := [
  row 0x00000037 0x0000007f (fun w => .lui (fRd w) (fImmU w)),
  row 0x00000017 0x0000007f (fun w => .auipc (fRd w) (fImmU w)),
  row 0x0000006f 0x0000007f (fun w => .jal (fRd w) (fImmJ w)),
  row 0x00000067 0x0000707f (fun w => .jalr (fRd w) (fRs1 w) (fImmI w)),
  row 0x00000063 0x0000707f (fun w => .beq (fRs1 w) (fRs2 w) (fImmB w)),
  row 0x00001063 0x0000707f (fun w => .bne (fRs1 w) (fRs2 w) (fImmB w)),
  row 0x00004063 0x0000707f (fun w => .blt (fRs1 w) (fRs2 w) (fImmB w)),
  row 0x00005063 0x0000707f (fun w => .bge (fRs1 w) (fRs2 w) (fImmB w)),
  row 0x00006063 0x0000707f (fun w => .bltu (fRs1 w) (fRs2 w) (fImmB w)),
  row 0x00007063 0x0000707f (fun w => .bgeu (fRs1 w) (fRs2 w) (fImmB w))]

/-- The RV32I loads and stores (R293). -/
def rowsMemory : List Row := [
  row 0x00000003 0x0000707f (fun w => .lb (fRd w) (fRs1 w) (fImmI w)),
  row 0x00001003 0x0000707f (fun w => .lh (fRd w) (fRs1 w) (fImmI w)),
  row 0x00002003 0x0000707f (fun w => .lw (fRd w) (fRs1 w) (fImmI w)),
  row 0x00004003 0x0000707f (fun w => .lbu (fRd w) (fRs1 w) (fImmI w)),
  row 0x00005003 0x0000707f (fun w => .lhu (fRd w) (fRs1 w) (fImmI w)),
  row 0x00000023 0x0000707f (fun w => .sb (fRs2 w) (fRs1 w) (fImmS w)),
  row 0x00001023 0x0000707f (fun w => .sh (fRs2 w) (fRs1 w) (fImmS w)),
  row 0x00002023 0x0000707f (fun w => .sw (fRs2 w) (fRs1 w) (fImmS w))]

/-- The RV32I register-immediate rows (R293, R283). -/
def rowsImm : List Row := [
  row 0x00000013 0x0000707f (fun w => .addi (fRd w) (fRs1 w) (fImmI w)),
  row 0x00002013 0x0000707f (fun w => .slti (fRd w) (fRs1 w) (fImmI w)),
  row 0x00003013 0x0000707f (fun w => .sltiu (fRd w) (fRs1 w) (fImmI w)),
  row 0x00004013 0x0000707f (fun w => .xori (fRd w) (fRs1 w) (fImmI w)),
  row 0x00006013 0x0000707f (fun w => .ori (fRd w) (fRs1 w) (fImmI w)),
  row 0x00007013 0x0000707f (fun w => .andi (fRd w) (fRs1 w) (fImmI w)),
  rowShift 0x00001013 (fun w => .slli (fRd w) (fRs1 w) (fShamt w)),
  rowShift 0x00005013 (fun w => .srli (fRd w) (fRs1 w) (fShamt w)),
  rowShift 0x40005013 (fun w => .srai (fRd w) (fRs1 w) (fShamt w))]

/-- The RV32I register-register rows (R293). -/
def rowsReg : List Row := [
  row 0x00000033 0xfe00707f (fun w => .add (fRd w) (fRs1 w) (fRs2 w)),
  row 0x40000033 0xfe00707f (fun w => .sub (fRd w) (fRs1 w) (fRs2 w)),
  row 0x00001033 0xfe00707f (fun w => .sll (fRd w) (fRs1 w) (fRs2 w)),
  row 0x00002033 0xfe00707f (fun w => .slt (fRd w) (fRs1 w) (fRs2 w)),
  row 0x00003033 0xfe00707f (fun w => .sltu (fRd w) (fRs1 w) (fRs2 w)),
  row 0x00004033 0xfe00707f (fun w => .xor (fRd w) (fRs1 w) (fRs2 w)),
  row 0x00005033 0xfe00707f (fun w => .srl (fRd w) (fRs1 w) (fRs2 w)),
  row 0x40005033 0xfe00707f (fun w => .sra (fRd w) (fRs1 w) (fRs2 w)),
  row 0x00006033 0xfe00707f (fun w => .or (fRd w) (fRs1 w) (fRs2 w)),
  row 0x00007033 0xfe00707f (fun w => .and (fRd w) (fRs1 w) (fRs2 w))]

/-- FENCE and FENCE.I: matched on opcode and funct3 alone (R290, R293). -/
def rowsFence : List Row := [
  row 0x0000000f 0x0000707f (fun w => .fence (fRd w) (fRs1 w) (fFm w) (fPred w) (fSucc w)),
  row 0x0000100f 0x0000707f (fun w => .fenceI (fRd w) (fRs1 w) (fImmI w))]

/-- The rows that exist on MXLEN = 64 only (R287, R293). -/
def rowsRv64 : List Row := [
  row64 0x00006003 0x0000707f (fun w => .lwu (fRd w) (fRs1 w) (fImmI w)),
  row64 0x00003003 0x0000707f (fun w => .ld (fRd w) (fRs1 w) (fImmI w)),
  row64 0x00003023 0x0000707f (fun w => .sd (fRs2 w) (fRs1 w) (fImmS w)),
  row64 0x0000001b 0x0000707f (fun w => .addiw (fRd w) (fRs1 w) (fImmI w)),
  row64 0x0000101b 0xfe00707f (fun w => .slliw (fRd w) (fRs1 w) (fRs2 w)),
  row64 0x0000501b 0xfe00707f (fun w => .srliw (fRd w) (fRs1 w) (fRs2 w)),
  row64 0x4000501b 0xfe00707f (fun w => .sraiw (fRd w) (fRs1 w) (fRs2 w)),
  row64 0x0000003b 0xfe00707f (fun w => .addw (fRd w) (fRs1 w) (fRs2 w)),
  row64 0x4000003b 0xfe00707f (fun w => .subw (fRd w) (fRs1 w) (fRs2 w)),
  row64 0x0000103b 0xfe00707f (fun w => .sllw (fRd w) (fRs1 w) (fRs2 w)),
  row64 0x0000503b 0xfe00707f (fun w => .srlw (fRd w) (fRs1 w) (fRs2 w)),
  row64 0x4000503b 0xfe00707f (fun w => .sraw (fRd w) (fRs1 w) (fRs2 w))]

/-- The whole table of R293, in its order. -/
def rows : List Row :=
  rowsSystem ++ rowsControl ++ rowsMemory ++ rowsImm ++ rowsReg ++ rowsFence ++ rowsRv64

/-! ### Decoding -/

/-- Why a word is no instruction of the hart. Every reason raises IllegalInstruction (R288). -/
inductive Reject where
  /-- Fewer than four bytes are left to read. -/
  | tooFewBytes
  /-- `inst[1:0]` is not 11: the space of the C extension, absent (R280, R292). -/
  | compressed
  /-- `inst[4:0]` is 11111: an instruction longer than 32 bits (R280). -/
  | longerThan32
  /-- A row of R293 fits, but it exists on MXLEN = 64 only or needs a wider shift amount (R283, R287). -/
  | rv64Form
  /-- A SYSTEM word that no row fits (R285, R286). -/
  | reservedSystem
  /-- A major opcode this spec decodes, with reserved function bits (R284). -/
  | reservedFunction
  /-- A major opcode this spec does not decode (R284, R289). -/
  | reservedOpcode
  deriving DecidableEq, Repr

/-- The major opcodes this spec decodes on MXLEN = 64 (R284); OP-IMM-32 and OP-32 are the RV64 ones. -/
def majorOpcodes : List (BitVec 7) :=
  [0b0000011, 0b0001111, 0b0010011, 0b0010111, 0b0011011, 0b0100011, 0b0110011, 0b0110111, 0b0111011,
   0b1100011, 0b1100111, 0b1101111, 0b1110011]

/-- The name of the rejection of a word that no available row fits. -/
def rejectReason (w : InstWord) : Reject :=
  if w.extractLsb' 0 2 ≠ 0b11#2 then .compressed
  else if w.extractLsb' 0 5 = 0b11111#5 then .longerThan32
  else if rows.any (fun r => r.fits .rv64 w) then .rv64Form
  else if w.extractLsb' 0 7 = 0b1110011#7 then .reservedSystem
  else if majorOpcodes.contains (w.extractLsb' 0 7) then .reservedFunction
  else .reservedOpcode

/-- Decode one word on a hart of width `xl` (R287): the available row that fits, or a named rejection. -/
def decodeWord (xl : Xlen) (w : InstWord) : Except Reject Instr :=
  match rows.find? (fun r => r.available xl && r.fits xl w) with
  | some r => .ok (r.build w)
  | none => .error (rejectReason w)

/-- The word of four bytes in memory order, the lowest address first (R202, R280). -/
def wordOfBytes (b0 b1 b2 b3 : Byte) : InstWord := b3 ++ b2 ++ b1 ++ b0

/-- The four bytes of a word in memory order (R202, R280). -/
def bytesOfWord (w : InstWord) : List Byte :=
  [w.extractLsb' 0 8, w.extractLsb' 8 8, w.extractLsb' 16 8, w.extractLsb' 24 8]

/-- Decode the instruction at the front of a byte sequence, and give back the bytes after it. -/
def decodeBytes (xl : Xlen) : List Byte → Except Reject (Instr × List Byte)
  | b0 :: b1 :: b2 :: b3 :: rest =>
    match decodeWord xl (wordOfBytes b0 b1 b2 b3) with
    | .ok i => .ok (i, rest)
    | .error e => .error e
  | _ => .error .tooFewBytes

/-- The host's view of the decoder: the instruction whose table bits are `w` (bit 0 the least significant of the one
word), on the width that has every row. -/
def decodeTableWord (nbits w : Nat) : Option Instr :=
  match decodeBytes .rv64 (bytesOfWord (BitVec.ofNat 32 (w % 2 ^ nbits))) with
  | .ok (i, _) => some i
  | .error _ => none

/-! ### Encoding (R281 to R286) -/

/-- R format. -/
def encR (funct7 : BitVec 7) (rs2 rs1 : Reg) (funct3 : BitVec 3) (rd : Reg) (opcode : BitVec 7) : InstWord :=
  funct7 ++ rs2 ++ rs1 ++ funct3 ++ rd ++ opcode

/-- I format, also the CSR forms (R285). -/
def encI (imm : BitVec 12) (rs1 : Reg) (funct3 : BitVec 3) (rd : Reg) (opcode : BitVec 7) : InstWord :=
  imm ++ rs1 ++ funct3 ++ rd ++ opcode

/-- S format. -/
def encS (imm : BitVec 12) (rs2 rs1 : Reg) (funct3 : BitVec 3) (opcode : BitVec 7) : InstWord :=
  imm.extractLsb' 5 7 ++ rs2 ++ rs1 ++ funct3 ++ imm.extractLsb' 0 5 ++ opcode

/-- B format, from `imm[12:1]`: bit `k` of the argument is `imm[k+1]`. -/
def encB (imm : BitVec 12) (rs2 rs1 : Reg) (funct3 : BitVec 3) (opcode : BitVec 7) : InstWord :=
  imm.extractLsb' 11 1 ++ imm.extractLsb' 4 6 ++ rs2 ++ rs1 ++ funct3 ++ imm.extractLsb' 0 4 ++
    imm.extractLsb' 10 1 ++ opcode

/-- U format, from `imm[31:12]`. -/
def encU (imm : BitVec 20) (rd : Reg) (opcode : BitVec 7) : InstWord := imm ++ rd ++ opcode

/-- J format, from `imm[20:1]`: bit `k` of the argument is `imm[k+1]`. -/
def encJ (imm : BitVec 20) (rd : Reg) (opcode : BitVec 7) : InstWord :=
  imm.extractLsb' 19 1 ++ imm.extractLsb' 0 10 ++ imm.extractLsb' 10 1 ++ imm.extractLsb' 11 8 ++ rd ++ opcode

/-- I format with a six-bit shift amount (R283). -/
def encShift (funct6 : BitVec 6) (shamt : BitVec 6) (rs1 : Reg) (funct3 : BitVec 3) (rd : Reg) (opcode : BitVec 7) :
    InstWord :=
  funct6 ++ shamt ++ rs1 ++ funct3 ++ rd ++ opcode

/-- The word of an instruction (R293). -/
def encode : Instr → InstWord
  | .csrrw rd csr rs1 => encI csr rs1 0b001 rd 0b1110011
  | .csrrs rd csr rs1 => encI csr rs1 0b010 rd 0b1110011
  | .csrrc rd csr rs1 => encI csr rs1 0b011 rd 0b1110011
  | .csrrwi rd csr uimm => encI csr uimm 0b101 rd 0b1110011
  | .csrrsi rd csr uimm => encI csr uimm 0b110 rd 0b1110011
  | .csrrci rd csr uimm => encI csr uimm 0b111 rd 0b1110011
  | .ecall => encR 0b0000000 0b00000 0 0b000 0 0b1110011
  | .ebreak => encR 0b0000000 0b00001 0 0b000 0 0b1110011
  | .mret => encR 0b0011000 0b00010 0 0b000 0 0b1110011
  | .sret => encR 0b0001000 0b00010 0 0b000 0 0b1110011
  | .uret => encR 0b0000000 0b00010 0 0b000 0 0b1110011
  | .wfi => encR 0b0001000 0b00101 0 0b000 0 0b1110011
  | .sfenceVma rs1 rs2 => encR 0b0001001 rs2 rs1 0b000 0 0b1110011
  | .lui rd imm => encU imm rd 0b0110111
  | .auipc rd imm => encU imm rd 0b0010111
  | .jal rd imm => encJ imm rd 0b1101111
  | .jalr rd rs1 imm => encI imm rs1 0b000 rd 0b1100111
  | .beq rs1 rs2 imm => encB imm rs2 rs1 0b000 0b1100011
  | .bne rs1 rs2 imm => encB imm rs2 rs1 0b001 0b1100011
  | .blt rs1 rs2 imm => encB imm rs2 rs1 0b100 0b1100011
  | .bge rs1 rs2 imm => encB imm rs2 rs1 0b101 0b1100011
  | .bltu rs1 rs2 imm => encB imm rs2 rs1 0b110 0b1100011
  | .bgeu rs1 rs2 imm => encB imm rs2 rs1 0b111 0b1100011
  | .lb rd rs1 imm => encI imm rs1 0b000 rd 0b0000011
  | .lh rd rs1 imm => encI imm rs1 0b001 rd 0b0000011
  | .lw rd rs1 imm => encI imm rs1 0b010 rd 0b0000011
  | .lbu rd rs1 imm => encI imm rs1 0b100 rd 0b0000011
  | .lhu rd rs1 imm => encI imm rs1 0b101 rd 0b0000011
  | .sb rs2 rs1 imm => encS imm rs2 rs1 0b000 0b0100011
  | .sh rs2 rs1 imm => encS imm rs2 rs1 0b001 0b0100011
  | .sw rs2 rs1 imm => encS imm rs2 rs1 0b010 0b0100011
  | .addi rd rs1 imm => encI imm rs1 0b000 rd 0b0010011
  | .slti rd rs1 imm => encI imm rs1 0b010 rd 0b0010011
  | .sltiu rd rs1 imm => encI imm rs1 0b011 rd 0b0010011
  | .xori rd rs1 imm => encI imm rs1 0b100 rd 0b0010011
  | .ori rd rs1 imm => encI imm rs1 0b110 rd 0b0010011
  | .andi rd rs1 imm => encI imm rs1 0b111 rd 0b0010011
  | .slli rd rs1 shamt => encShift 0b000000 shamt rs1 0b001 rd 0b0010011
  | .srli rd rs1 shamt => encShift 0b000000 shamt rs1 0b101 rd 0b0010011
  | .srai rd rs1 shamt => encShift 0b010000 shamt rs1 0b101 rd 0b0010011
  | .add rd rs1 rs2 => encR 0b0000000 rs2 rs1 0b000 rd 0b0110011
  | .sub rd rs1 rs2 => encR 0b0100000 rs2 rs1 0b000 rd 0b0110011
  | .sll rd rs1 rs2 => encR 0b0000000 rs2 rs1 0b001 rd 0b0110011
  | .slt rd rs1 rs2 => encR 0b0000000 rs2 rs1 0b010 rd 0b0110011
  | .sltu rd rs1 rs2 => encR 0b0000000 rs2 rs1 0b011 rd 0b0110011
  | .xor rd rs1 rs2 => encR 0b0000000 rs2 rs1 0b100 rd 0b0110011
  | .srl rd rs1 rs2 => encR 0b0000000 rs2 rs1 0b101 rd 0b0110011
  | .sra rd rs1 rs2 => encR 0b0100000 rs2 rs1 0b101 rd 0b0110011
  | .or rd rs1 rs2 => encR 0b0000000 rs2 rs1 0b110 rd 0b0110011
  | .and rd rs1 rs2 => encR 0b0000000 rs2 rs1 0b111 rd 0b0110011
  | .fence rd rs1 fm pred succ => encI (fm ++ pred ++ succ) rs1 0b000 rd 0b0001111
  | .fenceI rd rs1 imm => encI imm rs1 0b001 rd 0b0001111
  | .lwu rd rs1 imm => encI imm rs1 0b110 rd 0b0000011
  | .ld rd rs1 imm => encI imm rs1 0b011 rd 0b0000011
  | .sd rs2 rs1 imm => encS imm rs2 rs1 0b011 0b0100011
  | .addiw rd rs1 imm => encI imm rs1 0b000 rd 0b0011011
  | .slliw rd rs1 shamt => encR 0b0000000 shamt rs1 0b001 rd 0b0011011
  | .srliw rd rs1 shamt => encR 0b0000000 shamt rs1 0b101 rd 0b0011011
  | .sraiw rd rs1 shamt => encR 0b0100000 shamt rs1 0b101 rd 0b0011011
  | .addw rd rs1 rs2 => encR 0b0000000 rs2 rs1 0b000 rd 0b0111011
  | .subw rd rs1 rs2 => encR 0b0100000 rs2 rs1 0b000 rd 0b0111011
  | .sllw rd rs1 rs2 => encR 0b0000000 rs2 rs1 0b001 rd 0b0111011
  | .srlw rd rs1 rs2 => encR 0b0000000 rs2 rs1 0b101 rd 0b0111011
  | .sraw rd rs1 rs2 => encR 0b0100000 rs2 rs1 0b101 rd 0b0111011

/-- The bytes of an instruction in memory order (R280). -/
def encodeBytes (i : Instr) : List Byte := bytesOfWord (encode i)

end Sys2Proof
end

