-- ==== Sys2Proof/Machine/Operands.lean ====
section
/-! DEFINITION. The operand forms: integer registers, immediates, shift amounts and effective addresses. -/

namespace Sys2Proof.Machine

/-- `x[r]`: `x0` reads 0 (R38). -/
def readX (r : Reg) (s : State) : Word :=
  if r = 0 then 0 else truncX s.cfg.xlen (s.xregs[r.toNat]'r.isLt)

/-- `x[r] <- v`: a write to `x0` is discarded (R38). -/
def writeX (r : Reg) (v : Word) (s : State) : State :=
  { s with xregs := if r = 0 then s.xregs else s.xregs.set r.toNat (truncX s.cfg.xlen v) r.isLt }

/-- `imm_I` and `imm_S`: twelve bits sign-extended (R282). -/
def imm12 (imm : BitVec 12) : Word := imm.signExtend 64

/-- `imm_B` from `imm[12:1]`: a low zero bit, sign-extended (R282). -/
def immB (imm : BitVec 12) : Word := (imm ++ 0b0#1).signExtend 64

/-- `imm_U` from `imm[31:12]`: twelve low zero bits, sign-extended (R282). -/
def immU (imm : BitVec 20) : Word := (imm ++ 0x000#12).signExtend 64

/-- `imm_J` from `imm[20:1]`: a low zero bit, sign-extended (R282). -/
def immJ (imm : BitVec 20) : Word := (imm ++ 0b0#1).signExtend 64

/-- `zext_XLEN(uimm)` of the CSR immediate forms (R285, R320). -/
def zextUimm (uimm : BitVec 5) : Word := uimm.setWidth 64

/-- The shift amount a register gives: its low 5 bits on RV32, 6 on RV64 (R432). -/
def shiftAmount (xl : Xlen) (v : Word) : Nat :=
  match xl with
  | .rv32 => (v.setWidth 5).toNat
  | .rv64 => (v.setWidth 6).toNat

/-- The shift amount of the RV64 word shifts by a register: its low 5 bits (R451 to R453). -/
def shiftAmountW (v : Word) : Nat := (v.setWidth 5).toNat

/-- The effective address of a load or store: `x[rs1] + imm` modulo 2^XLEN (R413, R418, R207). -/
def effAddr (rs1 : Reg) (imm : BitVec 12) (s : State) : Word := truncX s.cfg.xlen (readX rs1 s + imm12 imm)

end Sys2Proof.Machine
end

