-- ==== Sys2Proof/Machine/Ops.lean ====
section
/-! DEFINITION. The operations the meanings share: moving on and retiring, the privilege stack, taking an exception or an
interrupt and returning from one, which interrupt is taken, and the passing of time. -/

namespace Sys2Proof.Machine

/-! ### Exceptions (R510) -/

/-- The synchronous exceptions of R510. The three page faults cannot occur in this spec (R250). -/
inductive Exc where
  | instrAddrMisaligned
  | instrAccessFault
  | illegalInstruction
  | breakpoint
  | loadAddrMisaligned
  | loadAccessFault
  | storeAddrMisaligned
  | storeAccessFault
  | ecallFromU
  | ecallFromS
  | ecallFromM
  | instrPageFault
  | loadPageFault
  | storePageFault
  deriving DecidableEq, Repr

/-- The exception code (R510). -/
def Exc.code : Exc → Nat
  | .instrAddrMisaligned => 0
  | .instrAccessFault => 1
  | .illegalInstruction => 2
  | .breakpoint => 3
  | .loadAddrMisaligned => 4
  | .loadAccessFault => 5
  | .storeAddrMisaligned => 6
  | .storeAccessFault => 7
  | .ecallFromU => 8
  | .ecallFromS => 9
  | .ecallFromM => 11
  | .instrPageFault => 12
  | .loadPageFault => 13
  | .storePageFault => 15

/-- A raised exception and the trap value it brings, `raise E(info)` of `00_scope.md` section 5.2 (R530). -/
structure Raised where
  exc : Exc
  tval : Word
  deriving DecidableEq, Repr

/-- IllegalInstruction on `i`: the trap value is its 32-bit word, zero-extended (R530). The word is that of the encoder,
which is the fetched word (log 14). -/
def illegal (i : Instr) : Raised := { exc := .illegalInstruction, tval := (encode i).setWidth 64 }

/-! ### Moving on -/

/-- `pc <- pc + 4` modulo 2^XLEN (R39). -/
def advancePc (s : State) : State := { s with pc := truncX s.cfg.xlen (s.pc + 4) }

/-- The instruction retires: `minstret` + 1 unless inhibited (R136, R520). The inhibit bit is the one the instruction
leaves behind (log 9). -/
def retire (s : State) : State :=
  { s with minstret := if s.mcountinhibit.getLsbD 2 then s.minstret else s.minstret + 1 }

/-- The instruction changes only `pc`, and retires. -/
def finishPlain (s : State) : Host.Outcome State Fault Refusal := .next (retire (advancePc s))

/-- The instruction writes its result to `x[rd]`, moves to the next instruction and retires. -/
def finishRd (rd : Reg) (v : Word) (s : State) : Host.Outcome State Fault Refusal :=
  finishPlain (writeX rd v s)

/-! ### The trap registers of a level -/

/-- The trap registers of level `x`. -/
def trapRegs (x : Priv) (s : State) : TrapRegs :=
  match x with
  | .M => s.mtrap
  | .S => s.strap
  | .U => s.utrap

/-- Write the trap registers of level `x`. -/
def setTrapRegs (x : Priv) (t : TrapRegs) (s : State) : State :=
  { s with
    mtrap := if x = .M then t else s.mtrap
    strap := if x = .S then t else s.strap
    utrap := if x = .U then t else s.utrap }

/-! ### The privilege and interrupt-enable stack (R88 to R90) -/

/-- `mstatus.xIE` (R86). -/
def globalEnable (x : Priv) (m : Mstatus) : Bool :=
  match x with
  | .M => m.mie
  | .S => m.sie
  | .U => m.uie

/-- Push (R89): xPIE <- xIE, xIE <- 0, xPP <- y. -/
def pushPrivStack (x y : Priv) (m : Mstatus) : Mstatus :=
  match x with
  | .M => { m with mpie := m.mie, mie := false, mpp := y }
  | .S => { m with spie := m.sie, sie := false, spp := y == .S }
  | .U => { m with upie := m.uie, uie := false }

/-- The mode an xRET returns to: xPP, with UPP implicitly U (R88, R90). -/
def returnMode (x : Priv) (m : Mstatus) : Priv :=
  match x with
  | .M => m.mpp
  | .S => if m.spp then .S else .U
  | .U => .U

/-- Pop (R90): xIE <- xPIE, xPIE <- 1, xPP <- U, or M where U-mode is not implemented. -/
def popPrivStack (x : Priv) (c : Config) (m : Mstatus) : Mstatus :=
  match x with
  | .M => { m with mie := m.mpie, mpie := true, mpp := if c.hasU then .U else .M }
  | .S => { m with sie := m.spie, spie := true, spp := false }
  | .U => { m with uie := m.upie, upie := true }

/-! ### Routing (R550 to R552) -/

/-- `medeleg` and `mideleg` exist (R116). -/
def delegExists (c : Config) : Bool := c.hasS || c.hasN

/-- The mode an interrupt is destined for (R551). -/
def intTarget (i : Nat) (s : State) : Priv :=
  if !delegExists s.cfg || !s.mideleg.getLsbD i then .M
  else if s.cfg.hasS then (if s.cfg.hasN && s.sideleg.getLsbD i then .U else .S)
  else .U

/-- The higher of two modes in the order U < S < M. -/
def maxPriv (a b : Priv) : Priv := if a.level < b.level then b else a

/-- The mode an exception with code `c` is delegated to, before the current mode is considered (R552). -/
def excDelegate (c : Nat) (s : State) : Priv :=
  if delegExists s.cfg && s.medeleg.getLsbD c then
    if s.cfg.hasS then (if s.cfg.hasN && s.sedeleg.getLsbD c then .U else .S) else .U
  else .M

/-- The mode an exception goes to: never below the current mode (R552). -/
def excTarget (c : Nat) (s : State) : Priv := maxPriv (excDelegate c s) s.priv

/-- `trap_target` (R552). -/
def trapTarget (isInt : Bool) (c : Nat) (s : State) : Priv := if isInt then intTarget c s else excTarget c s

/-! ### Trap entry (R531, R532) and trap return (R533) -/

/-- The value of `xcause`: the Interrupt bit at XLEN-1 above the code (R144, R531). -/
def causeWord (xl : Xlen) (isInt : Bool) (c : Nat) : Word := bitAt isInt (xl.bits - 1) ||| BitVec.ofNat 64 c

/-- The trap vector (R532): BASE, or BASE + 4 * cause for an interrupt in Vectored mode. -/
def trapVector (xl : Xlen) (tvec : Word) (isInt : Bool) (c : Nat) : Word :=
  if isInt && tvec.extractLsb' 0 2 == 1#2 then truncX xl (alignWord tvec + BitVec.ofNat 64 (4 * c))
  else truncX xl (alignWord tvec)

/-- The trap registers after an entry: `xepc`, `xcause` and `xtval` are written, `xtvec` and `xscratch` are not (R531).
`xepc[1:0]` are always zero (R143). -/
def trapRegsAfter (xl : Xlen) (isInt : Bool) (c : Nat) (tval epc : Word) (t : TrapRegs) : TrapRegs :=
  { t with
    epc := alignWord (truncX xl epc)
    cause := causeWord xl isInt c
    tval := truncX xl tval }

/-- Trap entry into mode `x` (R531). -/
def enterTrap (x : Priv) (isInt : Bool) (c : Nat) (tval epc : Word) (s : State) : State :=
  { setTrapRegs x (trapRegsAfter s.cfg.xlen isInt c tval epc (trapRegs x s)) s with
    mstatus := pushPrivStack x s.priv s.mstatus
    priv := x
    pc := trapVector s.cfg.xlen (trapRegs x s).tvec isInt c
    wfiStalled := false }

/-- `take_trap` (R531): the one shared operation by which an exception or an interrupt is taken. -/
def takeTrap (isInt : Bool) (c : Nat) (tval epc : Word) (s : State) : State :=
  enterTrap (trapTarget isInt c s) isInt c tval epc s

/-- Take a raised exception: `xepc` names the instruction itself, which has had no effect (R520, R531). -/
def takeException (r : Raised) (s : State) : State := takeTrap false r.exc.code r.tval s.pc s

/-- An instruction that raises an exception: its next state is the trap entry. -/
def raise (r : Raised) (s : State) : Host.Outcome State Fault Refusal := .next (takeException r s)

/-- Take interrupt `i` before the instruction at `pc`, with trap value 0 (R520, R530). -/
def takeInterrupt (i : Nat) (s : State) : State := takeTrap true i 0 s.pc s

/-- Trap return by the xRET of level `x` (R90, R533): pop the stack, `pc <- xepc`. -/
def returnFromTrap (x : Priv) (s : State) : State :=
  { s with
    mstatus := popPrivStack x s.cfg s.mstatus
    priv := returnMode x s.mstatus
    pc := (trapRegs x s).epc }

/-! ### Interrupts (R511, R521, R522, R331) -/

/-- MTIP: `mtime >=u mtimecmp` at every instant (R135). -/
def mtip (s : State) : Bool := s.mtimecmp.ule s.mtime

/-- Bit `i` of `mip_value` (R331). -/
def mipBit (s : State) : Nat → Bool
  | 0 => s.mip.usip
  | 1 => s.mip.ssip
  | 3 => s.msip
  | 4 => s.mip.utip
  | 5 => s.mip.stip
  | 7 => mtip s
  | 8 => s.mip.ueipSw || s.lines.ueip
  | 9 => s.mip.seipSw || s.lines.seip
  | 11 => s.lines.meip
  | _ => false

/-- Bit `i` of `mip_sw_value`: as `mip_value`, with the software-writable bit alone for SEIP and UEIP (R130, R331). -/
def mipSwBit (s : State) : Nat → Bool
  | 8 => s.mip.ueipSw
  | 9 => s.mip.seipSw
  | i => mipBit s i

/-- The word with the bits `f 0` to `f 11`: a value of `mip`. -/
def mipWord (f : Nat → Bool) : Word :=
  bitAt (f 0) 0 ||| bitAt (f 1) 1 ||| bitAt (f 3) 3 ||| bitAt (f 4) 4 ||| bitAt (f 5) 5 ||| bitAt (f 7) 7 |||
    bitAt (f 8) 8 ||| bitAt (f 9) 9 ||| bitAt (f 11) 11

/-- `mip_value` (R331). -/
def mipValue (s : State) : Word := mipWord (mipBit s)

/-- `mip_sw_value` (R331). -/
def mipSwValue (s : State) : Word := mipWord (mipSwBit s)

/-- Interrupts are globally enabled for mode `t` (R87, R521): the hart is below `t`, or in `t` with tIE = 1. -/
def globallyEnabled (t : Priv) (s : State) : Bool :=
  decide (s.priv.level < t.level) || (s.priv == t && globalEnable t s.mstatus)

/-- `can_take(i)` (R521). -/
def canTake (i : Nat) (s : State) : Bool :=
  globallyEnabled (intTarget i s) s && s.mie.getLsbD i && mipBit s i

/-- The interrupts in decreasing priority: MEI, MSI, MTI, SEI, SSI, STI, UEI, USI, UTI (R522). -/
def intOrder : List Nat := [11, 3, 7, 9, 1, 5, 8, 0, 4]

/-- The first interrupt destined for `t` that can be taken (R522). -/
def pendingFor (t : Priv) (s : State) : Option Nat :=
  intOrder.find? (fun i => intTarget i s == t && canTake i s)

/-- The interrupt taken at this boundary (R522): destinations in decreasing order of mode, then the fixed order. -/
def nextInterrupt (s : State) : Option Nat :=
  match pendingFor .M s with
  | some i => some i
  | none =>
    match pendingFor .S s with
    | some i => some i
    | none => pendingFor .U s

/-- A stalled hart wakes (R356): some interrupt is pending and individually enabled, or the platform chooses so. -/
def wakes (s : State) : Bool := intOrder.any (fun i => s.mie.getLsbD i && mipBit s i) || s.lines.wake

/-! ### The passing of time (R136, R141, R159, R630) -/

/-- The platform's input at this boundary: the next of the stream, or a free value (log 6). -/
def platformInput (s : State) : PlatformInput :=
  match s.inputs with
  | [] => Config.freeInput s.boundary
  | p :: _ => p

/-- `mcycle` does not advance over this step: it is inhibited (R141), or the instruction wrote it (R328). -/
def cycleHeld (s : State) : Bool := s.mcountinhibit.getLsbD 0 || s.mcycleWritten

/-- What the platform does between two steps: `mtime` and `mcycle` advance and the lines take their new levels. -/
def passTime (s : State) : State :=
  { s with
    mtime := s.mtime + BitVec.ofNat 64 (platformInput s).mtimeTicks
    mcycle := if cycleHeld s then s.mcycle else s.mcycle + BitVec.ofNat 64 (platformInput s).cycles
    lines := (platformInput s).lines
    inputs := s.inputs.tail
    boundary := s.boundary + 1
    mcycleWritten := false }

/-- An outcome followed by the platform's move. -/
def thenPassTime : Host.Outcome State Fault Refusal → Host.Outcome State Fault Refusal
  | .next s => .next (passTime s)
  | .fault r => .fault r
  | .refused r => .refused r

end Sys2Proof.Machine
end

