-- ==== Sys2Proof/Machine/ControlFlow.lean ====
section
/-! DEFINITION. LUI, AUIPC, the jumps and the conditional branches (R402 to R412). -/

namespace Sys2Proof.Machine

/-- Transfer control to `target` (R402): a target that is not 4-byte aligned raises InstrAddrMisaligned on this
instruction, with the target as trap value and no register written; `commit` is the state whose `pc` is then set. -/
def transferTo (target : Word) (commit s : State) : Host.Outcome State Fault Refusal :=
  if target.extractLsb' 0 2 = 0#2 then .next (retire { commit with pc := target })
  else raise { exc := .instrAddrMisaligned, tval := target } s

/-- A jump that links: `x[rd]` gets the address after the jump (R405, R406). -/
def jumpLink (rd : Reg) (target : Word) (s : State) : Host.Outcome State Fault Refusal :=
  transferTo target (writeX rd (s.pc + 4) s) s

/-- A conditional branch (R407): the target is looked at only when it is taken. -/
def branch (taken : Bool) (imm : BitVec 12) (s : State) : Host.Outcome State Fault Refusal :=
  if taken then transferTo (truncX s.cfg.xlen (s.pc + immB imm)) s s else finishPlain s

/-- LUI (R403). -/
def execLui (rd : Reg) (imm : BitVec 20) (s : State) : Host.Outcome State Fault Refusal := finishRd rd (immU imm) s

/-- AUIPC (R404). -/
def execAuipc (rd : Reg) (imm : BitVec 20) (s : State) : Host.Outcome State Fault Refusal :=
  finishRd rd (s.pc + immU imm) s

/-- JAL (R405). -/
def execJal (rd : Reg) (imm : BitVec 20) (s : State) : Host.Outcome State Fault Refusal :=
  jumpLink rd (truncX s.cfg.xlen (s.pc + immJ imm)) s

/-- JALR (R406): bit 0 of the sum is cleared. -/
def execJalr (rd rs1 : Reg) (imm : BitVec 12) (s : State) : Host.Outcome State Fault Refusal :=
  jumpLink rd (truncX s.cfg.xlen (readX rs1 s + imm12 imm) &&& ~~~(1 : Word)) s

/-- BEQ (R407). -/
def execBeq (rs1 rs2 : Reg) (imm : BitVec 12) (s : State) : Host.Outcome State Fault Refusal :=
  branch (cmpEq s.cfg.xlen (readX rs1 s) (readX rs2 s)) imm s

/-- BNE (R408). -/
def execBne (rs1 rs2 : Reg) (imm : BitVec 12) (s : State) : Host.Outcome State Fault Refusal :=
  branch (!cmpEq s.cfg.xlen (readX rs1 s) (readX rs2 s)) imm s

/-- BLT (R409). -/
def execBlt (rs1 rs2 : Reg) (imm : BitVec 12) (s : State) : Host.Outcome State Fault Refusal :=
  branch (cmpLt s.cfg.xlen (readX rs1 s) (readX rs2 s)) imm s

/-- BGE (R410). -/
def execBge (rs1 rs2 : Reg) (imm : BitVec 12) (s : State) : Host.Outcome State Fault Refusal :=
  branch (!cmpLt s.cfg.xlen (readX rs1 s) (readX rs2 s)) imm s

/-- BLTU (R411). -/
def execBltu (rs1 rs2 : Reg) (imm : BitVec 12) (s : State) : Host.Outcome State Fault Refusal :=
  branch (cmpLtu s.cfg.xlen (readX rs1 s) (readX rs2 s)) imm s

/-- BGEU (R412). -/
def execBgeu (rs1 rs2 : Reg) (imm : BitVec 12) (s : State) : Host.Outcome State Fault Refusal :=
  branch (!cmpLtu s.cfg.xlen (readX rs1 s) (readX rs2 s)) imm s

end Sys2Proof.Machine
end

