-- ==== Sys2Proof/Machine/Pmp.lean ====
section
/-! DEFINITION. Physical memory protection: the fields of a configuration byte (R149), the value of an address register as
it is read (R154), address matching (R221 to R225) and the decision (R229, R230). The PMP CSRs themselves stand in
`Csr.lean`. -/

namespace Sys2Proof.Machine

/-- The type of an access (R230): read, write, execute. -/
inductive AccessType where
  | R
  | W
  | X
  deriving DecidableEq, Repr

/-- `pmpicfg.R`, `W` or `X`: the bit of an access type (R149). -/
def pmpPermits (b : Byte) : AccessType → Bool
  | .R => b.getLsbD 0
  | .W => b.getLsbD 1
  | .X => b.getLsbD 2

/-- `pmpicfg.A` (R149, R221): 0 OFF, 1 TOR, 2 NA4, 3 NAPOT. -/
def pmpMode (b : Byte) : BitVec 2 := b.extractLsb' 3 2

/-- `pmpicfg.L` (R149, R227). -/
def pmpLocked (b : Byte) : Bool := b.getLsbD 7

/-- `n` one bits at the bottom of a word. -/
def lowOnes (n : Nat) : Word := BitVec.ofNat 64 (2 ^ n - 1)

/-- `pmpaddri` as it is read (R154): in NA4 and NAPOT mode bits `[G-2:0]` are ones when G is 2 or more; in OFF and TOR mode
bits `[G-1:0]` are zeros. -/
def pmpAddrValue (i : Fin 16) (s : State) : Word :=
  if (pmpMode s.pmpcfg[i]).getLsbD 1 then
    if s.cfg.pmpG ≥ 2 then s.pmpaddr[i] ||| lowOnes (s.cfg.pmpG - 1) else s.pmpaddr[i]
  else s.pmpaddr[i] &&& ~~~(lowOnes s.cfg.pmpG)

/-- A boundary of a TOR range as a byte address: bits `[G-1:0]` of the register do not affect the matching (R154, R223,
R225), whatever the mode of the entry it belongs to (log 21). -/
def torBound (i : Fin 16) (s : State) : Nat := (s.pmpaddr[i] &&& ~~~(lowOnes s.cfg.pmpG)).toNat * 4

/-- The bottom of entry `i`'s TOR range: the preceding register, or 0 for entry 0 (R223). -/
def torBottom (i : Fin 16) (s : State) : Nat :=
  if i.val = 0 then 0 else torBound ⟨i.val - 1, by omega⟩ s

/-- NAPOT matching (R222): with `m = a xor (a + 1)`, the byte address `y` matches iff `(y >> 2) and not m == a and not m`. -/
def napotMatches (a : Word) (y : Nat) : Bool :=
  BitVec.ofNat 64 (y / 4) &&& ~~~(a ^^^ (a + 1)) == a &&& ~~~(a ^^^ (a + 1))

/-- Entry `i` matches the byte address `y` (R221 to R225). -/
def pmpMatches (i : Fin 16) (s : State) (y : Nat) : Bool :=
  match (pmpMode s.pmpcfg[i]).toNat with
  | 0 => false
  | 1 => decide (torBottom i s ≤ y) && decide (y < torBound i s)
  | 2 => y / 4 == (pmpAddrValue i s).toNat
  | _ => napotMatches (pmpAddrValue i s) y

/-- The byte addresses of an access. -/
def accessBytes (addr n : Nat) : List Nat := (List.range n).map (addr + ·)

/-- The entry numbers, the highest priority first (R229). -/
def pmpIndices : List (Fin 16) := [0, 1, 2, 3, 4, 5, 6, 7, 8, 9, 10, 11, 12, 13, 14, 15]

/-- The implemented entries (R146, decision D13). -/
def pmpImplemented (c : Config) : List (Fin 16) := pmpIndices.take c.pmpEntries

/-- What the entry that decides an access answers once it matches every byte (R230). -/
def pmpGrants (b : Byte) (t : AccessType) (p : Priv) : Bool := (p == .M && !pmpLocked b) || pmpPermits b t

/-- The scan of R230 over the entries `is`: the first entry that matches any byte decides, and must match them all. -/
def pmpScan (addr n : Nat) (t : AccessType) (p : Priv) (s : State) : List (Fin 16) → Bool
  | [] => p == .M || s.cfg.pmpEntries == 0
  | i :: is =>
    if (accessBytes addr n).any (pmpMatches i s) then
      (accessBytes addr n).all (pmpMatches i s) && pmpGrants s.pmpcfg[i] t p
    else pmpScan addr n t p s is

/-- `pmp_check` (R230): the access may proceed. -/
def pmpCheck (addr n : Nat) (t : AccessType) (p : Priv) (s : State) : Bool :=
  pmpScan addr n t p s (pmpImplemented s.cfg)

end Sys2Proof.Machine
end

