-- ==== Sys2Proof/Machine/Csr.lean ====
section
/-! DEFINITION. The CSRs: which address names which register (R59), which exist (R161), who may access them (R321), and what
a read and a write of each does (R330 to R333). -/

namespace Sys2Proof.Machine

/-- The CSRs this spec allocates (R59). Numbered registers carry their number: 3 to 31 for the `hpm` registers. -/
inductive Csr where
  | ustatus | uie | utvec | uscratch | uepc | ucause | utval | uip
  | cycle | time | instret | hpmcounter (n : Nat)
  | cycleh | timeh | instreth | hpmcounterh (n : Nat)
  | sstatus | sedeleg | sideleg | sie | stvec | scounteren | sscratch | sepc | scause | stval | sip | satp
  | mvendorid | marchid | mimpid | mhartid
  | mstatus | misa | medeleg | mideleg | mie | mtvec | mcounteren | mcountinhibit | mhpmevent (n : Nat)
  | mscratch | mepc | mcause | mtval | mip
  | pmpcfg (n : Fin 4) | pmpaddr (n : Fin 16)
  | mcycle | minstret | mhpmcounter (n : Nat) | mcycleh | minstreth | mhpmcounterh (n : Nat)
  deriving DecidableEq, Repr

/-- The register a CSR address names (R59), or none. -/
def csrOfAddr (a : CsrAddr) : Option Csr :=
  match a.toNat with
  | 0x000 => some .ustatus
  | 0x004 => some .uie
  | 0x005 => some .utvec
  | 0x040 => some .uscratch
  | 0x041 => some .uepc
  | 0x042 => some .ucause
  | 0x043 => some .utval
  | 0x044 => some .uip
  | 0x100 => some .sstatus
  | 0x102 => some .sedeleg
  | 0x103 => some .sideleg
  | 0x104 => some .sie
  | 0x105 => some .stvec
  | 0x106 => some .scounteren
  | 0x140 => some .sscratch
  | 0x141 => some .sepc
  | 0x142 => some .scause
  | 0x143 => some .stval
  | 0x144 => some .sip
  | 0x180 => some .satp
  | 0x300 => some .mstatus
  | 0x301 => some .misa
  | 0x302 => some .medeleg
  | 0x303 => some .mideleg
  | 0x304 => some .mie
  | 0x305 => some .mtvec
  | 0x306 => some .mcounteren
  | 0x320 => some .mcountinhibit
  | 0x340 => some .mscratch
  | 0x341 => some .mepc
  | 0x342 => some .mcause
  | 0x343 => some .mtval
  | 0x344 => some .mip
  | 0xB00 => some .mcycle
  | 0xB02 => some .minstret
  | 0xB80 => some .mcycleh
  | 0xB82 => some .minstreth
  | 0xC00 => some .cycle
  | 0xC01 => some .time
  | 0xC02 => some .instret
  | 0xC80 => some .cycleh
  | 0xC81 => some .timeh
  | 0xC82 => some .instreth
  | 0xF11 => some .mvendorid
  | 0xF12 => some .marchid
  | 0xF13 => some .mimpid
  | 0xF14 => some .mhartid
  | n =>
    if 0x323 ≤ n ∧ n ≤ 0x33F then some (.mhpmevent (n - 0x320))
    else if h : 0x3A0 ≤ n ∧ n ≤ 0x3A3 then some (.pmpcfg ⟨n - 0x3A0, by omega⟩)
    else if h : 0x3B0 ≤ n ∧ n ≤ 0x3BF then some (.pmpaddr ⟨n - 0x3B0, by omega⟩)
    else if 0xB03 ≤ n ∧ n ≤ 0xB1F then some (.mhpmcounter (n - 0xB00))
    else if 0xB83 ≤ n ∧ n ≤ 0xB9F then some (.mhpmcounterh (n - 0xB80))
    else if 0xC03 ≤ n ∧ n ≤ 0xC1F then some (.hpmcounter (n - 0xC00))
    else if 0xC83 ≤ n ∧ n ≤ 0xC9F then some (.hpmcounterh (n - 0xC80))
    else none

/-- MXLEN = 32. -/
def isRv32 (c : Config) : Bool := c.xlen == .rv32

/-- The CSR exists in the configuration (R161). -/
def csrExists (c : Config) : Csr → Bool
  | .ustatus | .uie | .utvec | .uscratch | .uepc | .ucause | .utval | .uip => c.hasN
  | .cycle | .time | .instret | .hpmcounter _ => true
  | .cycleh | .timeh | .instreth | .hpmcounterh _ => isRv32 c
  | .sstatus | .sie | .stvec | .scounteren | .sscratch | .sepc | .scause | .stval | .sip | .satp => c.hasS
  | .sedeleg | .sideleg => c.hasS && c.hasN
  | .mvendorid | .marchid | .mimpid | .mhartid => true
  | .mstatus | .misa | .mie | .mtvec | .mscratch | .mepc | .mcause | .mtval | .mip => true
  | .medeleg | .mideleg => delegExists c
  | .mcounteren => c.hasU
  | .mcountinhibit | .mhpmevent _ => true
  | .pmpcfg n => c.pmpEntries != 0 && (isRv32 c || n.val % 2 == 0)
  | .pmpaddr _ => c.pmpEntries != 0
  | .mcycle | .minstret | .mhpmcounter _ => true
  | .mcycleh | .minstreth | .mhpmcounterh _ => isRv32 c

/-! ### Access checks (R321) -/

/-- The counter-enable bit of a user-level counter (R139). -/
def counterBit : Csr → Option Nat
  | .cycle | .cycleh => some 0
  | .time | .timeh => some 1
  | .instret | .instreth => some 2
  | .hpmcounter n | .hpmcounterh n => some n
  | _ => none

/-- Whether counter bit `b` may be read in the current mode (R139, R140). -/
def counterEnabled (b : Nat) (s : State) : Bool :=
  match s.priv with
  | .M => true
  | .S => s.mcounteren.getLsbD b
  | .U => s.mcounteren.getLsbD b && (!s.cfg.hasS || s.scounteren.getLsbD b)

/-- Check 5 of R321: a user-level counter is readable here. -/
def counterOk (c : Csr) (s : State) : Bool :=
  match counterBit c with
  | some b => counterEnabled b s
  | none => true

/-- Check 6 of R321: `satp` is not accessed from S-mode under TVM (R100). -/
def satpOk (c : Csr) (s : State) : Bool := !(c == .satp && s.priv == .S && s.mstatus.tvm)

/-- `csr[9:8]`, the lowest level that may access the CSR (R44). -/
def csrLevel (a : CsrAddr) : Nat := (a.extractLsb' 8 2).toNat

/-- `csr[11:10] = 0b11`: a read-only register (R44). -/
def csrReadOnly (a : CsrAddr) : Bool := a.extractLsb' 10 2 == 0b11#2

/-- The checks of R321 on an access to `a`, a write of it when `w`: the register, or none where the access is illegal. -/
def csrAccess (a : CsrAddr) (w : Bool) (s : State) : Option Csr :=
  match csrOfAddr a with
  | none => none
  | some c =>
    if csrExists s.cfg c && decide (csrLevel a ≤ s.priv.level) && !(w && csrReadOnly a) && counterOk c s && satpOk c s then
      some c
    else none

/-! ### The value of `misa` (R75) and of `mstatus` (R84, R85, R107) -/

/-- `MISA_VALUE` (R75): MXL, I, and U, S, N as the configuration has them. -/
def misaValue (c : Config) : Word :=
  (match c.xlen with
    | .rv32 => (1 : Word) <<< 30
    | .rv64 => (2 : Word) <<< 62) |||
    bitAt true 8 ||| bitAt c.hasN 13 ||| bitAt c.hasS 18 ||| bitAt c.hasU 20

/-- The SXL and UXL fields (R85, R95, R96): 2 on RV64 where the mode exists; absent on RV32 (R94). -/
def xlFields (c : Config) : Word :=
  match c.xlen with
  | .rv32 => 0
  | .rv64 => bitAt c.hasU 33 ||| bitAt c.hasS 35

/-- The value of MPP in place, bits 12:11 (R84). -/
def mppField (p : Priv) : Word := BitVec.ofNat 64 p.level <<< 11

/-- `mstatus` as it is read (R107): FS, XS, SD and the WPRI bits are zero. -/
def mstatusWord (c : Config) (m : Mstatus) : Word :=
  bitAt m.uie 0 ||| bitAt m.sie 1 ||| bitAt m.mie 3 ||| bitAt m.upie 4 ||| bitAt m.spie 5 ||| bitAt m.mpie 7 |||
    bitAt m.spp 8 ||| mppField m.mpp ||| bitAt m.mprv 17 ||| bitAt m.sum 18 ||| bitAt m.mxr 19 ||| bitAt m.tvm 20 |||
    bitAt m.tw 21 ||| bitAt m.tsr 22 ||| xlFields c

/-- `legal(MPP, old, new)` (R91): a mode that is not implemented leaves the field unchanged (decision D28). -/
def legalMpp (c : Config) (old : Priv) (new : BitVec 2) : Priv :=
  match new.toNat with
  | 0 => if c.hasU then .U else old
  | 1 => if c.hasS then .S else old
  | 3 => .M
  | _ => old

/-- A write of `v` to `mstatus` (R107). -/
def mstatusWrite (c : Config) (v : Word) (m : Mstatus) : Mstatus where
  mie := v.getLsbD 3
  mpie := v.getLsbD 7
  mpp := legalMpp c m.mpp (v.extractLsb' 11 2)
  sie := if c.hasS then v.getLsbD 1 else m.sie
  spie := if c.hasS then v.getLsbD 5 else m.spie
  spp := if c.hasS then v.getLsbD 8 else m.spp
  sum := if c.hasS then v.getLsbD 18 else m.sum
  mxr := if c.hasS then v.getLsbD 19 else m.mxr
  tvm := if c.hasS then v.getLsbD 20 else m.tvm
  tsr := if c.hasS then v.getLsbD 22 else m.tsr
  uie := if c.hasN then v.getLsbD 0 else m.uie
  upie := if c.hasN then v.getLsbD 4 else m.upie
  mprv := if c.hasU then v.getLsbD 17 else m.mprv
  tw := if c.hasU then v.getLsbD 21 else m.tw

/-- `SSTATUS_RMASK` (R106). -/
def sstatusReadMask : Xlen → Word
  | .rv32 => 0x800DE133
  | .rv64 => 0x80000003000DE133

/-- `SSTATUS_WMASK` (R330). -/
def sstatusWriteMask (c : Config) : Word := 0xC0122 ||| (if c.hasN then 0x11 else 0)

/-- A write of `v` through a view of `mstatus` that changes the bits of `mask` only (R106, R330). -/
def mstatusWriteUnder (mask : Word) (c : Config) (v : Word) (m : Mstatus) : Mstatus :=
  mstatusWrite c ((mstatusWord c m &&& ~~~mask) ||| (v &&& mask)) m

/-! ### Masks (R114 to R117, R132, R331, decision D26) -/

/-- `MEDELEG_MASK` (R114). -/
def medelegMask : Word := 0xB3FF

/-- The writable bits of `sedeleg` (R117). -/
def sedelegMask : Word := 0xB1FF

/-- The writable bits of `sideleg` (R117). -/
def sidelegMask : Word := 0x111

/-- `MIP_WMASK` (R331), also `MIDELEG_MASK` (R115): 0x222 where S-mode exists, 0x111 under EXT_N. -/
def lowerIntMask (c : Config) : Word := (if c.hasS then 0x222 else 0) ||| (if c.hasN then 0x111 else 0)

/-- `MIE_MASK` (R330, R132). -/
def mieMask (c : Config) : Word := 0x888 ||| lowerIntMask c

/-- `D_u` (R122): the interrupts delegated to U-mode. -/
def uDelegated (s : State) : Word := if s.cfg.hasS then s.mideleg &&& s.sideleg else s.mideleg

/-! ### WARL functions and views -/

/-- The legal value of an `xtvec` (R110): any BASE; a reserved MODE keeps the old one. -/
def legalTvec (old v : Word) : Word :=
  if (v.extractLsb' 0 2).toNat < 2 then v else alignWord v ||| (old &&& 3)

/-- Write the stored bits of `mip` that `mask` selects (R331). -/
def mipWrite (mask v : Word) (m : MipBits) : MipBits where
  usip := if mask.getLsbD 0 then v.getLsbD 0 else m.usip
  ssip := if mask.getLsbD 1 then v.getLsbD 1 else m.ssip
  utip := if mask.getLsbD 4 then v.getLsbD 4 else m.utip
  stip := if mask.getLsbD 5 then v.getLsbD 5 else m.stip
  ueipSw := if mask.getLsbD 8 then v.getLsbD 8 else m.ueipSw
  seipSw := if mask.getLsbD 9 then v.getLsbD 9 else m.seipSw

/-- The bits of `old` outside `mask` and those of `v` inside it. -/
def mergeUnder (mask old v : Word) : Word := (old &&& ~~~mask) ||| (v &&& mask)

/-- The low XLEN bits of a 64-bit counter (R136, R330). -/
def counterLow (xl : Xlen) (k : BitVec 64) : Word := truncX xl k

/-- Bits 63:32 of a 64-bit counter, for the `h` registers (R136, R330). -/
def counterHigh (k : BitVec 64) : Word := (k.extractLsb' 32 32).setWidth 64

/-- Write the low XLEN bits of a 64-bit counter (R330). -/
def setCounterLow (xl : Xlen) (k : BitVec 64) (v : Word) : BitVec 64 :=
  match xl with
  | .rv32 => k.extractLsb' 32 32 ++ v.extractLsb' 0 32
  | .rv64 => v

/-- Write bits 63:32 of a 64-bit counter (R330). -/
def setCounterHigh (k : BitVec 64) (v : Word) : BitVec 64 := v.extractLsb' 0 32 ++ k.extractLsb' 0 32

/-! ### The PMP CSRs (R332, R333) -/

/-- How many configuration bytes one `pmpcfg` CSR holds: 4 on RV32, 8 on RV64 (R147, R148, R332). -/
def pmpPerCsr : Xlen → Nat
  | .rv32 => 4
  | .rv64 => 8

/-- Configuration byte `i`, zero past the last. -/
def pmpByte (i : Nat) (s : State) : Byte := if h : i < 16 then s.pmpcfg[i] else 0

/-- The bytes `i`, `i + 1`, ... of the configurations, `k` of them, the lowest in the low bits. -/
def pmpcfgWord (s : State) (i : Nat) : Nat → Word
  | 0 => 0
  | k + 1 => (pmpByte i s).setWidth 64 ||| pmpcfgWord s (i + 1) k <<< 8

/-- The legal value of a configuration byte (R149, R154, R332, decision D14): bits 6:5 zero; R = 0 with W = 1 clears W;
NA4 under a coarser granularity keeps the old A. -/
def legalPmpcfg (g : Nat) (old new : Byte) : Byte :=
  let b := new &&& 0x9F
  let b := if !b.getLsbD 0 && b.getLsbD 1 then b &&& 0xFD else b
  if 1 ≤ g && pmpMode b == 2#2 then (b &&& 0xE7) ||| (old &&& 0x18) else b

/-- The configuration bytes after a write of `v` to `pmpcfgN` (R153, R332): a locked entry and an entry that is not
implemented keep their byte. -/
def pmpcfgAfter (n : Fin 4) (v : Word) (s : State) : Vector Byte 16 :=
  Vector.ofFn (fun i : Fin 16 =>
    let old := s.pmpcfg[i]
    if 4 * n.val ≤ i.val ∧ i.val < 4 * n.val + pmpPerCsr s.cfg.xlen ∧ i.val < s.cfg.pmpEntries ∧ pmpLocked old = false then
      legalPmpcfg s.cfg.pmpG old (v.extractLsb' (8 * (i.val - 4 * n.val)) 8)
    else old)

/-- A write of `pmpaddrN` is ignored (R153, R333): entry N is not implemented or locked, or entry N+1 is locked in TOR
mode. -/
def pmpaddrHeld (n : Fin 16) (s : State) : Bool :=
  decide (s.cfg.pmpEntries ≤ n.val) || pmpLocked s.pmpcfg[n] ||
    (decide (n.val + 1 ≤ 15) && pmpLocked (pmpByte (n.val + 1) s) && pmpMode (pmpByte (n.val + 1) s) == 1#2)

/-- The writable bits of a `pmpaddr` register: `PALEN-3` down to 0 (R152). -/
def pmpaddrMask (c : Config) : Word := lowOnes (c.palen - 2)

/-- The address registers after a write of `v` to `pmpaddrN` (R333). -/
def pmpaddrAfter (n : Fin 16) (v : Word) (s : State) : Vector Word 16 :=
  if pmpaddrHeld n s then s.pmpaddr else s.pmpaddr.set n.val (v &&& pmpaddrMask s.cfg) n.isLt

/-! ### `csr_read` (R330) -/

/-- `csr_read` before it is narrowed to XLEN bits. -/
def csrValue (c : Csr) (s : State) : Word :=
  match c with
  | .ustatus => mstatusWord s.cfg s.mstatus &&& 0x11
  | .uie => s.mie &&& uDelegated s &&& 0x111
  | .utvec => s.utrap.tvec
  | .uscratch => s.utrap.scratch
  | .uepc => s.utrap.epc
  | .ucause => s.utrap.cause
  | .utval => s.utrap.tval
  | .uip => mipValue s &&& uDelegated s &&& 0x111
  | .cycle => counterLow s.cfg.xlen s.mcycle
  | .time => counterLow s.cfg.xlen s.mtime
  | .instret => counterLow s.cfg.xlen s.minstret
  | .hpmcounter _ => 0
  | .cycleh => counterHigh s.mcycle
  | .timeh => counterHigh s.mtime
  | .instreth => counterHigh s.minstret
  | .hpmcounterh _ => 0
  | .sstatus => mstatusWord s.cfg s.mstatus &&& sstatusReadMask s.cfg.xlen
  | .sedeleg => s.sedeleg
  | .sideleg => s.sideleg
  | .sie => s.mie &&& s.mideleg &&& 0x333
  | .stvec => s.strap.tvec
  | .scounteren => s.scounteren.setWidth 64
  | .sscratch => s.strap.scratch
  | .sepc => s.strap.epc
  | .scause => s.strap.cause
  | .stval => s.strap.tval
  | .sip => mipValue s &&& s.mideleg &&& 0x333
  | .satp => 0
  | .mvendorid => s.cfg.mvendorid.setWidth 64
  | .marchid => s.cfg.marchid
  | .mimpid => s.cfg.mimpid
  | .mhartid => s.cfg.mhartid
  | .mstatus => mstatusWord s.cfg s.mstatus
  | .misa => misaValue s.cfg
  | .medeleg => s.medeleg
  | .mideleg => s.mideleg
  | .mie => s.mie
  | .mtvec => s.mtrap.tvec
  | .mcounteren => s.mcounteren.setWidth 64
  | .mcountinhibit => s.mcountinhibit.setWidth 64
  | .mhpmevent _ => 0
  | .mscratch => s.mtrap.scratch
  | .mepc => s.mtrap.epc
  | .mcause => s.mtrap.cause
  | .mtval => s.mtrap.tval
  | .mip => mipValue s &&& mieMask s.cfg
  | .pmpcfg n => pmpcfgWord s (4 * n.val) (pmpPerCsr s.cfg.xlen)
  | .pmpaddr n => pmpAddrValue n s
  | .mcycle => counterLow s.cfg.xlen s.mcycle
  | .minstret => counterLow s.cfg.xlen s.minstret
  | .mhpmcounter _ => 0
  | .mcycleh => counterHigh s.mcycle
  | .minstreth => counterHigh s.minstret
  | .mhpmcounterh _ => 0

/-- `csr_read` (R320, R330). -/
def csrRead (c : Csr) (s : State) : Word := truncX s.cfg.xlen (csrValue c s)

/-- `csr_rmw_base` (R323, R331): `csr_read`, but for `mip`, `sip` and `uip`, which use the software-writable SEIP and UEIP
bits alone. -/
def csrRmwBase (c : Csr) (s : State) : Word :=
  match c with
  | .mip => mipSwValue s
  | .sip => mipSwValue s &&& s.mideleg &&& 0x333
  | .uip => mipSwValue s &&& uDelegated s &&& 0x111
  | _ => csrRead c s

/-! ### `csr_write` (R330) -/

/-- `csr_write` of a value that is already XLEN bits. A write to a read-only address is illegal and never reaches here
(R321); the hardwired registers ignore it. -/
def csrStore (c : Csr) (v : Word) (s : State) : State :=
  match c with
  | .ustatus => { s with mstatus := mstatusWriteUnder 0x11 s.cfg v s.mstatus }
  | .uie => { s with mie := mergeUnder (uDelegated s &&& 0x111) s.mie v }
  | .utvec => { s with utrap := { s.utrap with tvec := legalTvec s.utrap.tvec v } }
  | .uscratch => { s with utrap := { s.utrap with scratch := v } }
  | .uepc => { s with utrap := { s.utrap with epc := alignWord v } }
  | .ucause => { s with utrap := { s.utrap with cause := v } }
  | .utval => { s with utrap := { s.utrap with tval := v } }
  | .uip => { s with mip := mipWrite (uDelegated s &&& 0x1) v s.mip }
  | .cycle | .time | .instret | .hpmcounter _ => s
  | .cycleh | .timeh | .instreth | .hpmcounterh _ => s
  | .sstatus => { s with mstatus := mstatusWriteUnder (sstatusWriteMask s.cfg) s.cfg v s.mstatus }
  | .sedeleg => { s with sedeleg := v &&& sedelegMask }
  | .sideleg => { s with sideleg := v &&& sidelegMask }
  | .sie => { s with mie := mergeUnder (s.mideleg &&& 0x333) s.mie v }
  | .stvec => { s with strap := { s.strap with tvec := legalTvec s.strap.tvec v } }
  | .scounteren => { s with scounteren := v.setWidth 32 &&& 0x7 }
  | .sscratch => { s with strap := { s.strap with scratch := v } }
  | .sepc => { s with strap := { s.strap with epc := alignWord v } }
  | .scause => { s with strap := { s.strap with cause := v } }
  | .stval => { s with strap := { s.strap with tval := v } }
  | .sip => { s with mip := mipWrite (s.mideleg &&& lowerIntMask s.cfg &&& 0x103) v s.mip }
  | .satp => s
  | .mvendorid | .marchid | .mimpid | .mhartid => s
  | .mstatus => { s with mstatus := mstatusWrite s.cfg v s.mstatus }
  | .misa => s
  | .medeleg => { s with medeleg := v &&& medelegMask }
  | .mideleg => { s with mideleg := v &&& lowerIntMask s.cfg }
  | .mie => { s with mie := v &&& mieMask s.cfg }
  | .mtvec => { s with mtrap := { s.mtrap with tvec := legalTvec s.mtrap.tvec v } }
  | .mcounteren => { s with mcounteren := v.setWidth 32 &&& 0x7 }
  | .mcountinhibit => { s with mcountinhibit := v.setWidth 32 &&& 0x5 }
  | .mhpmevent _ => s
  | .mscratch => { s with mtrap := { s.mtrap with scratch := v } }
  | .mepc => { s with mtrap := { s.mtrap with epc := alignWord v } }
  | .mcause => { s with mtrap := { s.mtrap with cause := v } }
  | .mtval => { s with mtrap := { s.mtrap with tval := v } }
  | .mip => { s with mip := mipWrite (lowerIntMask s.cfg) v s.mip }
  | .pmpcfg n => { s with pmpcfg := pmpcfgAfter n v s }
  | .pmpaddr n => { s with pmpaddr := pmpaddrAfter n v s }
  | .mcycle => { s with mcycle := setCounterLow s.cfg.xlen s.mcycle v, mcycleWritten := true }
  | .minstret => { s with minstret := setCounterLow s.cfg.xlen s.minstret v }
  | .mhpmcounter _ => s
  | .mcycleh => { s with mcycle := setCounterHigh s.mcycle v, mcycleWritten := true }
  | .minstreth => { s with minstret := setCounterHigh s.minstret v }
  | .mhpmcounterh _ => s

/-- `csr_write` (R330): the value is XLEN bits. -/
def csrWrite (c : Csr) (v : Word) (s : State) : State := csrStore c (truncX s.cfg.xlen v) s

/-- The register is `minstret` or its upper half: an instruction that writes it does not add its own retirement (R328). -/
def isMinstret : Csr → Bool
  | .minstret | .minstreth => true
  | _ => false

end Sys2Proof.Machine
end

