-- ==== Sys2Proof/Machine/CsrInstr.lean ====
section
/-! DEFINITION. The CSR instructions (`40_csr_instructions.md`). -/

namespace Sys2Proof.Machine

/-- The end of a CSR instruction that completed: it retires like any other, but an instruction that writes `minstret` does
not add its own retirement to the value it wrote (R136, R328). -/
def retireCsr (c : Csr) (w : Bool) (s : State) : State := if w && isMinstret c then s else retire s

/-- A completed CSR access (R320, R322, R323): the old value goes to `x[rd]`, the new value, computed from the
read-modify-write base, to the register when the instruction counts as a write. -/
def csrComplete (c : Csr) (w : Bool) (rd : Reg) (f : Word → Word) (s : State) : State :=
  let t := csrRead c s
  let s1 := if w then csrWrite c (f (csrRmwBase c s)) s else s
  retireCsr c w (advancePc (writeX rd t s1))

/-- A CSR instruction `i` on the address `a`: the checks of R321, then the access; a failed check is IllegalInstruction with
no effect (R328). -/
def csrInstr (i : Instr) (a : CsrAddr) (w : Bool) (rd : Reg) (f : Word → Word) (s : State) :
    Host.Outcome State Fault Refusal :=
  match csrAccess a w s with
  | some c => .next (csrComplete c w rd f s)
  | none => raise (illegal i) s

/-- CSRRW (R322): always a write. -/
def execCsrrw (rd : Reg) (csr : CsrAddr) (rs1 : Reg) (s : State) : Host.Outcome State Fault Refusal :=
  csrInstr (.csrrw rd csr rs1) csr true rd (fun _ => readX rs1 s) s

/-- CSRRS (R323): a write when `rs1` is not `x0`. -/
def execCsrrs (rd : Reg) (csr : CsrAddr) (rs1 : Reg) (s : State) : Host.Outcome State Fault Refusal :=
  csrInstr (.csrrs rd csr rs1) csr (rs1 != 0) rd (fun b => b ||| readX rs1 s) s

/-- CSRRC (R324): a write when `rs1` is not `x0`. -/
def execCsrrc (rd : Reg) (csr : CsrAddr) (rs1 : Reg) (s : State) : Host.Outcome State Fault Refusal :=
  csrInstr (.csrrc rd csr rs1) csr (rs1 != 0) rd (fun b => b &&& ~~~(readX rs1 s)) s

/-- CSRRWI (R325): always a write. -/
def execCsrrwi (rd : Reg) (csr : CsrAddr) (uimm : BitVec 5) (s : State) : Host.Outcome State Fault Refusal :=
  csrInstr (.csrrwi rd csr uimm) csr true rd (fun _ => zextUimm uimm) s

/-- CSRRSI (R326): a write when `uimm` is not 0. -/
def execCsrrsi (rd : Reg) (csr : CsrAddr) (uimm : BitVec 5) (s : State) : Host.Outcome State Fault Refusal :=
  csrInstr (.csrrsi rd csr uimm) csr (uimm != 0) rd (fun b => b ||| zextUimm uimm) s

/-- CSRRCI (R327): a write when `uimm` is not 0. -/
def execCsrrci (rd : Reg) (csr : CsrAddr) (uimm : BitVec 5) (s : State) : Host.Outcome State Fault Refusal :=
  csrInstr (.csrrci rd csr uimm) csr (uimm != 0) rd (fun b => b &&& ~~~(zextUimm uimm)) s

end Sys2Proof.Machine
end

