-- ==== Sys2Proof/Machine/Fences.lean ====
section
/-! DEFINITION. FENCE and FENCE.I (R440, R441): memory accesses are already performed in program order and a fetch sees
every earlier store (R251, R254), so each only moves on. Every value of the reserved fields is accepted (R290). -/

namespace Sys2Proof.Machine

/-- FENCE (R440). -/
def execFence (_rd _rs1 : Reg) (_fm _pred _succ : BitVec 4) (s : State) : Host.Outcome State Fault Refusal :=
  finishPlain s

/-- FENCE.I (R441). -/
def execFenceI (_rd _rs1 : Reg) (_imm : BitVec 12) (s : State) : Host.Outcome State Fault Refusal :=
  finishPlain s

end Sys2Proof.Machine
end

