-- ==== Sys2Proof/Machine/Alu.lean ====
section
/-! DEFINITION. The shifts, whose result depends on the register width (R401, R427 to R437, R446 to R453). Sums, differences
and bitwise operations are those of words: writing a register keeps the low XLEN bits. -/

namespace Sys2Proof.Machine

/-- `a >>u n` on XLEN bits: zeros come in at the top (R428). -/
def shiftRightU (xl : Xlen) (a : Word) (n : Nat) : Word := truncX xl a >>> n

/-- `a >>s n` on XLEN bits: copies of the sign bit come in at the top (R429). -/
def shiftRightS (xl : Xlen) (a : Word) (n : Nat) : Word := (signX xl a).sshiftRight n

/-- `sext_64((a[31:0] << n)[31:0])` (R446). -/
def shiftLeftW (a : Word) (n : Nat) : Word := sext32 (a <<< n)

/-- `sext_64(a[31:0] >>u n)` (R447). -/
def shiftRightUW (a : Word) (n : Nat) : Word := sext32 (truncX .rv32 a >>> n)

/-- `sext_64(a[31:0] >>s n)` (R448). -/
def shiftRightSW (a : Word) (n : Nat) : Word := sext32 ((sext32 a).sshiftRight n)

end Sys2Proof.Machine
end

