-- ==== Sys2Proof/Machine/Integer.lean ====
section
/-! DEFINITION. The RV32I register-immediate and register-register instructions (R421 to R439). -/

namespace Sys2Proof.Machine

/-- A shift by an immediate: on MXLEN = 32 a shift amount of 32 or more is a reserved encoding (R283, R427). -/
def shiftImm (i : Instr) (shamt : BitVec 6) (rd : Reg) (v : Word) (s : State) : Host.Outcome State Fault Refusal :=
  if s.cfg.xlen = .rv64 ∨ shamt.toNat < 32 then finishRd rd v s else raise (illegal i) s

/-- ADDI (R421). -/
def execAddi (rd rs1 : Reg) (imm : BitVec 12) (s : State) : Host.Outcome State Fault Refusal :=
  finishRd rd (readX rs1 s + imm12 imm) s

/-- SLTI (R422). -/
def execSlti (rd rs1 : Reg) (imm : BitVec 12) (s : State) : Host.Outcome State Fault Refusal :=
  finishRd rd (boolWord (cmpLt s.cfg.xlen (readX rs1 s) (imm12 imm))) s

/-- SLTIU (R423): the immediate is sign-extended, then compared as unsigned. -/
def execSltiu (rd rs1 : Reg) (imm : BitVec 12) (s : State) : Host.Outcome State Fault Refusal :=
  finishRd rd (boolWord (cmpLtu s.cfg.xlen (readX rs1 s) (imm12 imm))) s

/-- XORI (R424). -/
def execXori (rd rs1 : Reg) (imm : BitVec 12) (s : State) : Host.Outcome State Fault Refusal :=
  finishRd rd (readX rs1 s ^^^ imm12 imm) s

/-- ORI (R425). -/
def execOri (rd rs1 : Reg) (imm : BitVec 12) (s : State) : Host.Outcome State Fault Refusal :=
  finishRd rd (readX rs1 s ||| imm12 imm) s

/-- ANDI (R426). -/
def execAndi (rd rs1 : Reg) (imm : BitVec 12) (s : State) : Host.Outcome State Fault Refusal :=
  finishRd rd (readX rs1 s &&& imm12 imm) s

/-- SLLI (R427). -/
def execSlli (rd rs1 : Reg) (shamt : BitVec 6) (s : State) : Host.Outcome State Fault Refusal :=
  shiftImm (.slli rd rs1 shamt) shamt rd (readX rs1 s <<< shamt.toNat) s

/-- SRLI (R428). -/
def execSrli (rd rs1 : Reg) (shamt : BitVec 6) (s : State) : Host.Outcome State Fault Refusal :=
  shiftImm (.srli rd rs1 shamt) shamt rd (shiftRightU s.cfg.xlen (readX rs1 s) shamt.toNat) s

/-- SRAI (R429). -/
def execSrai (rd rs1 : Reg) (shamt : BitVec 6) (s : State) : Host.Outcome State Fault Refusal :=
  shiftImm (.srai rd rs1 shamt) shamt rd (shiftRightS s.cfg.xlen (readX rs1 s) shamt.toNat) s

/-- ADD (R430). -/
def execAdd (rd rs1 rs2 : Reg) (s : State) : Host.Outcome State Fault Refusal :=
  finishRd rd (readX rs1 s + readX rs2 s) s

/-- SUB (R431). -/
def execSub (rd rs1 rs2 : Reg) (s : State) : Host.Outcome State Fault Refusal :=
  finishRd rd (readX rs1 s - readX rs2 s) s

/-- SLL (R432). -/
def execSll (rd rs1 rs2 : Reg) (s : State) : Host.Outcome State Fault Refusal :=
  finishRd rd (readX rs1 s <<< shiftAmount s.cfg.xlen (readX rs2 s)) s

/-- SLT (R433). -/
def execSlt (rd rs1 rs2 : Reg) (s : State) : Host.Outcome State Fault Refusal :=
  finishRd rd (boolWord (cmpLt s.cfg.xlen (readX rs1 s) (readX rs2 s))) s

/-- SLTU (R434). -/
def execSltu (rd rs1 rs2 : Reg) (s : State) : Host.Outcome State Fault Refusal :=
  finishRd rd (boolWord (cmpLtu s.cfg.xlen (readX rs1 s) (readX rs2 s))) s

/-- XOR (R435). -/
def execXor (rd rs1 rs2 : Reg) (s : State) : Host.Outcome State Fault Refusal :=
  finishRd rd (readX rs1 s ^^^ readX rs2 s) s

/-- SRL (R436). -/
def execSrl (rd rs1 rs2 : Reg) (s : State) : Host.Outcome State Fault Refusal :=
  finishRd rd (shiftRightU s.cfg.xlen (readX rs1 s) (shiftAmount s.cfg.xlen (readX rs2 s))) s

/-- SRA (R437). -/
def execSra (rd rs1 rs2 : Reg) (s : State) : Host.Outcome State Fault Refusal :=
  finishRd rd (shiftRightS s.cfg.xlen (readX rs1 s) (shiftAmount s.cfg.xlen (readX rs2 s))) s

/-- OR (R438). -/
def execOr (rd rs1 rs2 : Reg) (s : State) : Host.Outcome State Fault Refusal :=
  finishRd rd (readX rs1 s ||| readX rs2 s) s

/-- AND (R439). -/
def execAnd (rd rs1 rs2 : Reg) (s : State) : Host.Outcome State Fault Refusal :=
  finishRd rd (readX rs1 s &&& readX rs2 s) s

end Sys2Proof.Machine
end

