-- ==== Sys2Proof/Machine/Memory.lean ====
section
/-! DEFINITION. Physical memory: reading and writing bytes in the one canonical form, and little-endian data over them
(R200, R202). Alignment, protection and the memory map stand in `Access.lean`. -/

namespace Sys2Proof.Machine

/-- What a byte that nothing has written reads as. DESIGN CHOICE (log 5): the spec leaves memory after reset to the
platform. -/
def memDefault : Byte := 0

/-- Read one byte. -/
def memRead : Memory → Nat → Byte
  | [], _ => memDefault
  | c :: m, a => if c.1 = a then c.2 else memRead m a

/-- Put a cell at the front of a memory unless it holds what an unlisted address reads as. -/
def memCons (a : Nat) (b : Byte) (m : Memory) : Memory := if b = memDefault then m else (a, b) :: m

/-- Write one byte, keeping the canonical form. -/
def memWrite : Memory → Nat → Byte → Memory
  | [], a, b => memCons a b []
  | c :: m, a, b =>
    if a < c.1 then memCons a b (c :: m)
    else if a = c.1 then memCons a b m
    else c :: memWrite m a b

/-- The canonical form: addresses strictly rising, and no byte listed that reads the same unlisted. -/
def Memory.wf : Memory → Bool
  | [] => true
  | c :: m => c.2 != memDefault && m.all (fun d => decide (c.1 < d.1)) && Memory.wf m

/-- `n` bytes from `a`, little-endian (R202). -/
def readLE (m : Memory) (a : Nat) : Nat → Word
  | 0 => 0
  | n + 1 => (memRead m a).setWidth 64 ||| readLE m (a + 1) n <<< 8

/-- Write the low `8 n` bits of `v` at `a`, little-endian (R202). -/
def writeLE (m : Memory) (a : Nat) : Nat → Word → Memory
  | 0, _ => m
  | n + 1, v => writeLE (memWrite m a (v.setWidth 8)) (a + 1) n (v >>> 8)

end Sys2Proof.Machine
end

