-- ==== Sys2Proof/Machine/Access.lean ====
section
/-! DEFINITION. One memory access: the checks of R240 in their order, the memory map (R209 to R211), the device registers
(R210), and the load, the store and the instruction fetch built on them. -/

namespace Sys2Proof.Machine

/-- The sizes of a data access (R203). -/
inductive MemSize where
  | byte
  | half
  | word
  | dword
  deriving DecidableEq, Repr

/-- A size in bytes. -/
def MemSize.bytes : MemSize → Nat
  | .byte => 1
  | .half => 2
  | .word => 4
  | .dword => 8

/-- The address-misaligned exception of a data access (R204). -/
def misalignedExc : AccessType → Exc
  | .R => .loadAddrMisaligned
  | .W => .storeAddrMisaligned
  | .X => .instrAddrMisaligned

/-- The access-fault exception of an access type (R240). -/
def accessFaultExc : AccessType → Exc
  | .R => .loadAccessFault
  | .W => .storeAccessFault
  | .X => .instrAccessFault

/-- The effective privilege (R236): fetches use the current mode; loads and stores use MPP when MPRV is set. -/
def effPriv (t : AccessType) (s : State) : Priv :=
  match t with
  | .X => s.priv
  | _ => if s.mstatus.mprv then s.mstatus.mpp else s.priv

/-- The accesses a device register accepts at offset `off` (R210): `mtime` and `mtimecmp` naturally aligned words of either
half and, on RV64, the doubleword; `msip` its word (log 10). -/
def deviceAccepts (d : Device) (off n : Nat) : Bool :=
  match d with
  | .msip => n == 4 && off == 0
  | _ => (n == 4 && (off == 0 || off == 4)) || (n == 8 && off == 0)

/-- The `n` bytes at `pa` lie wholly inside the region (R209). -/
def regionContains (r : Region) (pa n : Nat) : Bool := decide (r.base ≤ pa) && decide (pa + n ≤ r.base + r.size)

/-- The region permits the access (R209): `ram` everything, `rom` reads and fetches, `dev` what the device accepts. -/
def regionPermits (r : Region) (t : AccessType) (pa n : Nat) : Bool :=
  match r.kind with
  | .ram => true
  | .rom => t != .W
  | .dev d => t != .X && deviceAccepts d (pa - r.base) n

/-- The PMA check (R208, R209): the region that holds the whole access, if it permits it. -/
def findRegion (t : AccessType) (pa n : Nat) (s : State) : Option Region :=
  match s.cfg.memMap.find? (fun r => regionContains r pa n) with
  | some r => if regionPermits r t pa n then some r else none
  | none => none

/-- The checks of R240 on one access, in their order: the region to access, or the exception raised. -/
def checkAccess (t : AccessType) (ea : Word) (n : Nat) (s : State) : Except Raised Region :=
  if t ≠ .X ∧ ea.toNat % n ≠ 0 then .error { exc := misalignedExc t, tval := ea }
  else if 2 ^ s.cfg.palen ≤ ea.toNat then .error { exc := accessFaultExc t, tval := ea }
  else if pmpCheck ea.toNat n t (effPriv t s) s = false then .error { exc := accessFaultExc t, tval := ea }
  else
    match findRegion t ea.toNat n s with
    | some r => .ok r
    | none => .error { exc := accessFaultExc t, tval := ea }

/-! ### The device registers (R210) -/

/-- Read `n` bytes of a 64-bit register at offset `off`: a half or the whole. -/
def readReg64 (v : BitVec 64) (off n : Nat) : Word :=
  if n = 8 then v
  else if off = 0 then (v.extractLsb' 0 32).setWidth 64
  else (v.extractLsb' 32 32).setWidth 64

/-- Write `n` bytes of a 64-bit register at offset `off`: a half or the whole. -/
def writeReg64 (old : BitVec 64) (off n : Nat) (v : Word) : BitVec 64 :=
  if n = 8 then v
  else if off = 0 then old.extractLsb' 32 32 ++ v.extractLsb' 0 32
  else v.extractLsb' 0 32 ++ old.extractLsb' 0 32

/-- Read a device register; no read has a side effect (R255). -/
def deviceRead (d : Device) (off n : Nat) (s : State) : Word :=
  match d with
  | .mtime => readReg64 s.mtime off n
  | .mtimecmp => readReg64 s.mtimecmp off n
  | .msip => bitAt s.msip 0

/-- Write a device register (R127, R134, R135, R210): bit 0 of `msip` is MSIP, its other bits ignore the write. -/
def deviceWrite (d : Device) (off n : Nat) (v : Word) (s : State) : State :=
  match d with
  | .mtime => { s with mtime := writeReg64 s.mtime off n v }
  | .mtimecmp => { s with mtimecmp := writeReg64 s.mtimecmp off n v }
  | .msip => { s with msip := v.getLsbD 0 }

/-! ### Load, store and fetch -/

/-- `MemRead` after the checks: the bytes of memory or of a device register, zero-extended. -/
def regionRead (r : Region) (pa n : Nat) (s : State) : Word :=
  match r.kind with
  | .dev d => deviceRead d (pa - r.base) n s
  | _ => readLE s.mem pa n

/-- `MemWrite` after the checks. -/
def regionWrite (r : Region) (pa n : Nat) (v : Word) (s : State) : State :=
  match r.kind with
  | .dev d => deviceWrite d (pa - r.base) n v s
  | _ => { s with mem := writeLE s.mem pa n v }

/-- `load(ea, n)` (R240, R401): the value read, zero-extended to a word, or the exception. -/
def load (sz : MemSize) (ea : Word) (s : State) : Except Raised Word :=
  match checkAccess .R ea sz.bytes s with
  | .ok r => .ok (regionRead r ea.toNat sz.bytes s)
  | .error e => .error e

/-- `store(ea, n, v)` (R240, R401): the state after the store of the low `8 n` bits, or the exception. -/
def store (sz : MemSize) (ea v : Word) (s : State) : Except Raised State :=
  match checkAccess .W ea sz.bytes s with
  | .ok r => .ok (regionWrite r ea.toNat sz.bytes v s)
  | .error e => .error e

/-- `Fetch(pc)` (R206): the four bytes at `pc`, access type X, in the current mode. -/
def fetch (s : State) : Except Raised InstWord :=
  match checkAccess .X s.pc 4 s with
  | .ok r => .ok ((regionRead r s.pc.toNat 4 s).setWidth 32)
  | .error e => .error e

end Sys2Proof.Machine
end

