-- ==== Sys2Proof/Machine/LoadStore.lean ====
section
/-! DEFINITION. The RV32I loads and stores (R413 to R420), and the shared forms the RV64 ones use. -/

namespace Sys2Proof.Machine

/-- A load: access `x[rs1] + imm`, extend the value read, write it to `x[rd]` (R413). -/
def loadInstr (sz : MemSize) (ext : Word → Word) (rd rs1 : Reg) (imm : BitVec 12) (s : State) :
    Host.Outcome State Fault Refusal :=
  match load sz (effAddr rs1 imm s) s with
  | .ok v => finishRd rd (ext v) s
  | .error e => raise e s

/-- A store of `x[rs2]` at `x[rs1] + imm` (R418). -/
def storeInstr (sz : MemSize) (rs2 rs1 : Reg) (imm : BitVec 12) (s : State) : Host.Outcome State Fault Refusal :=
  match store sz (effAddr rs1 imm s) (readX rs2 s) s with
  | .ok t => finishPlain t
  | .error e => raise e s

/-- LB (R413). -/
def execLb (rd rs1 : Reg) (imm : BitVec 12) (s : State) : Host.Outcome State Fault Refusal :=
  loadInstr .byte sext8 rd rs1 imm s

/-- LH (R414). -/
def execLh (rd rs1 : Reg) (imm : BitVec 12) (s : State) : Host.Outcome State Fault Refusal :=
  loadInstr .half sext16 rd rs1 imm s

/-- LW (R415). -/
def execLw (rd rs1 : Reg) (imm : BitVec 12) (s : State) : Host.Outcome State Fault Refusal :=
  loadInstr .word sext32 rd rs1 imm s

/-- LBU (R416). -/
def execLbu (rd rs1 : Reg) (imm : BitVec 12) (s : State) : Host.Outcome State Fault Refusal :=
  loadInstr .byte id rd rs1 imm s

/-- LHU (R417). -/
def execLhu (rd rs1 : Reg) (imm : BitVec 12) (s : State) : Host.Outcome State Fault Refusal :=
  loadInstr .half id rd rs1 imm s

/-- SB (R418). -/
def execSb (rs2 rs1 : Reg) (imm : BitVec 12) (s : State) : Host.Outcome State Fault Refusal :=
  storeInstr .byte rs2 rs1 imm s

/-- SH (R419). -/
def execSh (rs2 rs1 : Reg) (imm : BitVec 12) (s : State) : Host.Outcome State Fault Refusal :=
  storeInstr .half rs2 rs1 imm s

/-- SW (R420). -/
def execSw (rs2 rs1 : Reg) (imm : BitVec 12) (s : State) : Host.Outcome State Fault Refusal :=
  storeInstr .word rs2 rs1 imm s

end Sys2Proof.Machine
end

