-- ==== Sys2Proof/Machine/Privileged.lean ====
section
/-! DEFINITION. The privileged instructions (`41_privileged_instructions.md`): environment call and breakpoint, the trap
returns, WFI and SFENCE.VMA. -/

namespace Sys2Proof.Machine

/-- The environment call of a mode (R351). -/
def ecallExc : Priv → Exc
  | .U => .ecallFromU
  | .S => .ecallFromS
  | .M => .ecallFromM

/-- MRET is legal here (R350, R353). -/
def mretLegal (s : State) : Bool := s.priv == .M

/-- SRET is legal here (R350, R354). -/
def sretLegal (s : State) : Bool :=
  s.cfg.hasS && (s.priv == .M || (s.priv == .S && !s.mstatus.tsr))

/-- WFI is legal here (R350, R356). -/
def wfiLegal (s : State) : Bool :=
  match s.priv with
  | .M => true
  | .S => !s.mstatus.tw
  | .U => !s.cfg.hasS && !s.mstatus.tw

/-- SFENCE.VMA is legal here (R350, R357). -/
def sfenceLegal (s : State) : Bool :=
  s.cfg.hasS && (s.priv == .M || (s.priv == .S && !s.mstatus.tvm))

/-- ECALL (R351): takes the environment-call exception of the current mode, with trap value 0. -/
def execEcall (s : State) : Host.Outcome State Fault Refusal := raise { exc := ecallExc s.priv, tval := 0 } s

/-- EBREAK (R352): takes the breakpoint exception, with trap value 0. -/
def execEbreak (s : State) : Host.Outcome State Fault Refusal := raise { exc := .breakpoint, tval := 0 } s

/-- A trap return of level `x` (R90, R353 to R355): it retires. -/
def execReturn (x : Priv) (legal : Bool) (i : Instr) (s : State) : Host.Outcome State Fault Refusal :=
  if legal then .next (retire (returnFromTrap x s)) else raise (illegal i) s

/-- MRET (R353). -/
def execMret (s : State) : Host.Outcome State Fault Refusal := execReturn .M (mretLegal s) .mret s

/-- SRET (R354). -/
def execSret (s : State) : Host.Outcome State Fault Refusal := execReturn .S (sretLegal s) .sret s

/-- URET (R355). -/
def execUret (s : State) : Host.Outcome State Fault Refusal := execReturn .U s.cfg.hasN .uret s

/-- WFI (R356): the hart moves on and stalls. -/
def execWfi (s : State) : Host.Outcome State Fault Refusal :=
  if wfiLegal s then .next (retire (advancePc { s with wfiStalled := true })) else raise (illegal .wfi) s

/-- SFENCE.VMA (R357): its checks and nothing else, since translation is Bare (R250). -/
def execSfenceVma (rs1 rs2 : Reg) (s : State) : Host.Outcome State Fault Refusal :=
  if sfenceLegal s then finishPlain s else raise (illegal (.sfenceVma rs1 rs2)) s

end Sys2Proof.Machine
end

