-- ==== Sys2Proof/Machine/Rv64.lean ====
section
/-! DEFINITION. The RV64I additions (R442 to R453). On MXLEN = 32 none of them exists and each raises
IllegalInstruction. -/

namespace Sys2Proof.Machine

/-- An instruction that exists on MXLEN = 64 only (R442). -/
def onRv64 (i : Instr) (s : State) (o : Host.Outcome State Fault Refusal) : Host.Outcome State Fault Refusal :=
  if s.cfg.xlen = .rv64 then o else raise (illegal i) s

/-- LWU (R442). -/
def execLwu (rd rs1 : Reg) (imm : BitVec 12) (s : State) : Host.Outcome State Fault Refusal :=
  onRv64 (.lwu rd rs1 imm) s (loadInstr .word id rd rs1 imm s)

/-- LD (R443). -/
def execLd (rd rs1 : Reg) (imm : BitVec 12) (s : State) : Host.Outcome State Fault Refusal :=
  onRv64 (.ld rd rs1 imm) s (loadInstr .dword id rd rs1 imm s)

/-- SD (R444). -/
def execSd (rs2 rs1 : Reg) (imm : BitVec 12) (s : State) : Host.Outcome State Fault Refusal :=
  onRv64 (.sd rs2 rs1 imm) s (storeInstr .dword rs2 rs1 imm s)

/-- ADDIW (R445). -/
def execAddiw (rd rs1 : Reg) (imm : BitVec 12) (s : State) : Host.Outcome State Fault Refusal :=
  onRv64 (.addiw rd rs1 imm) s (finishRd rd (sext32 (readX rs1 s + imm12 imm)) s)

/-- SLLIW (R446). -/
def execSlliw (rd rs1 : Reg) (shamt : BitVec 5) (s : State) : Host.Outcome State Fault Refusal :=
  onRv64 (.slliw rd rs1 shamt) s (finishRd rd (shiftLeftW (readX rs1 s) shamt.toNat) s)

/-- SRLIW (R447). -/
def execSrliw (rd rs1 : Reg) (shamt : BitVec 5) (s : State) : Host.Outcome State Fault Refusal :=
  onRv64 (.srliw rd rs1 shamt) s (finishRd rd (shiftRightUW (readX rs1 s) shamt.toNat) s)

/-- SRAIW (R448). -/
def execSraiw (rd rs1 : Reg) (shamt : BitVec 5) (s : State) : Host.Outcome State Fault Refusal :=
  onRv64 (.sraiw rd rs1 shamt) s (finishRd rd (shiftRightSW (readX rs1 s) shamt.toNat) s)

/-- ADDW (R449). -/
def execAddw (rd rs1 rs2 : Reg) (s : State) : Host.Outcome State Fault Refusal :=
  onRv64 (.addw rd rs1 rs2) s (finishRd rd (sext32 (readX rs1 s + readX rs2 s)) s)

/-- SUBW (R450). -/
def execSubw (rd rs1 rs2 : Reg) (s : State) : Host.Outcome State Fault Refusal :=
  onRv64 (.subw rd rs1 rs2) s (finishRd rd (sext32 (readX rs1 s - readX rs2 s)) s)

/-- SLLW (R451). -/
def execSllw (rd rs1 rs2 : Reg) (s : State) : Host.Outcome State Fault Refusal :=
  onRv64 (.sllw rd rs1 rs2) s (finishRd rd (shiftLeftW (readX rs1 s) (shiftAmountW (readX rs2 s))) s)

/-- SRLW (R452). -/
def execSrlw (rd rs1 rs2 : Reg) (s : State) : Host.Outcome State Fault Refusal :=
  onRv64 (.srlw rd rs1 rs2) s (finishRd rd (shiftRightUW (readX rs1 s) (shiftAmountW (readX rs2 s))) s)

/-- SRAW (R453). -/
def execSraw (rd rs1 rs2 : Reg) (s : State) : Host.Outcome State Fault Refusal :=
  onRv64 (.sraw rd rs1 rs2) s (finishRd rd (shiftRightSW (readX rs1 s) (shiftAmountW (readX rs2 s))) s)

end Sys2Proof.Machine
end

