-- ==== Sys2Proof/Machine/Run.lean ====
section
/-! DEFINITION. What one step of the hart does (R520), the platform's move after it, and where the host places an
instruction. -/

namespace Sys2Proof.Machine

/-- What a fetched word does (R287, R520): the meaning of the instruction it decodes to, or IllegalInstruction with the word
as trap value (R288, R530). -/
def execWord (w : InstWord) (s : State) : Host.Outcome State Fault Refusal :=
  match decodeWord s.cfg.xlen w with
  | .ok i => exec i s
  | .error _ => raise { exc := .illegalInstruction, tval := w.setWidth 64 } s

/-- Fetch, decode and execute the instruction at `pc` (R520): a failed fetch is an exception too. -/
def execAtPc (s : State) : Host.Outcome State Fault Refusal :=
  match fetch s with
  | .ok w => execWord w s
  | .error e => raise e s

/-- What an awake hart does at a boundary (R520): take the interrupt that can be taken, or run the instruction at `pc`. -/
def runAwake (s : State) : Host.Outcome State Fault Refusal :=
  match nextInterrupt s with
  | some i => .next (takeInterrupt i s)
  | none => execAtPc s

/-- The hart has left its stall, or never stalled (R520). -/
def awaken (s : State) : State := { s with wfiStalled := false }

/-- One boundary (R520): a stalled hart that does not wake only lets time pass; otherwise it is awake and runs. Then the
platform moves (log 6). -/
def runBoundary (s : State) : Host.Outcome State Fault Refusal :=
  if s.wfiStalled && !wakes s then .next (passTime s) else thenPassTime (runAwake (awaken s))

/-- The word `w` stored where the next step fetches: at `pc` (R206, R280). -/
def placeWord (w : InstWord) (s : State) : State :=
  { s with mem := writeLE s.mem s.pc.toNat 4 (w.setWidth 64) }

end Sys2Proof.Machine
end

