-- ==== Sys2Proof/Machine/Step.lean ====
section
/-! DEFINITION. The step of the machine and the host's way to place an instruction, each one call of `Run.lean`. -/

namespace Sys2Proof.Machine

/-- One step (R520). -/
def step (s : State) : Host.Outcome State Fault Refusal := runBoundary s

/-- The instruction whose table bits are `w`, stored where the next step fetches (log 22). -/
def State.withFetchWord (s : State) (nbits w : Nat) : State := placeWord (BitVec.ofNat 32 (w % 2 ^ nbits)) s

end Sys2Proof.Machine
end

