-- ==== Sys2Proof/Machine/Reset.lean ====
section
/-! DEFINITION. Reset (R165, R601, R602). What the spec leaves unspecified is an arbitrary value that is legal for its field
(decision D24): the functions here take an arbitrary value to a legal one and leave a legal one as it is. -/

namespace Sys2Proof.Machine

/-- A legal `mstatus` (R91, R165): MPP in `MODES`, the fields of an absent mode or extension zero (R92, R98 to R102). -/
def legalMstatus (c : Config) (m : Mstatus) : Mstatus where
  mie := m.mie
  mpie := m.mpie
  mpp := if c.hasMode m.mpp then m.mpp else .M
  sie := m.sie && c.hasS
  spie := m.spie && c.hasS
  spp := m.spp && c.hasS
  sum := m.sum && c.hasS
  mxr := m.mxr && c.hasS
  tvm := m.tvm && c.hasS
  tsr := m.tsr && c.hasS
  uie := m.uie && c.hasN
  upie := m.upie && c.hasN
  mprv := m.mprv && c.hasU
  tw := m.tw && c.hasU

/-- Legal trap registers: XLEN bits, no reserved MODE in `xtvec` (R110), `xepc[1:0]` zero (R143). -/
def legalTrapRegs (xl : Xlen) (t : TrapRegs) : TrapRegs where
  tvec := legalTvec 0 (truncX xl t.tvec)
  scratch := truncX xl t.scratch
  epc := alignWord (truncX xl t.epc)
  cause := truncX xl t.cause
  tval := truncX xl t.tval

/-- Legal stored bits of `mip` (R132): those of an absent mode or extension are zero. -/
def legalMip (c : Config) (m : MipBits) : MipBits where
  usip := m.usip && c.hasN
  ssip := m.ssip && c.hasS
  utip := m.utip && c.hasN
  stip := m.stip && c.hasS
  ueipSw := m.ueipSw && c.hasN
  seipSw := m.seipSw && c.hasS

/-- The same bytes in the canonical form (log 5). -/
def canonicalMemory (m : Memory) : Memory := m.foldr (fun c n => memWrite n c.1 c.2) []

/-- `pmpicfg` after reset (R165): L and A zero, R, W and X legal (R149), an entry that is not implemented zero (R146). -/
def resetPmpcfg (c : Config) (i : Nat) (b : Byte) : Byte :=
  if i < c.pmpEntries then legalPmpcfg c.pmpG 0 (b &&& 0x67) else 0

/-- `pmpaddri` after reset: its writable bits (R152), zero where the entry is not implemented (R146). -/
def resetPmpaddr (c : Config) (i : Nat) (a : Word) : Word := if i < c.pmpEntries then a &&& pmpaddrMask c else 0

/-- The reset procedure (R165, R601): `unspecified` supplies every element the spec leaves unspecified, memory and the
platform's registers among them, made legal for its field (D24); the parameters and the model's own fields are those of
`s`. Reset comes from outside: it is no step (log 20). -/
def hartReset (unspecified s : State) : State :=
  { unspecified with
    cfg := s.cfg
    priv := .M
    pc := s.cfg.resetVector
    mstatus := { legalMstatus s.cfg unspecified.mstatus with mie := false, mprv := false }
    mtrap := { legalTrapRegs s.cfg.xlen unspecified.mtrap with cause := 0 }
    strap := legalTrapRegs s.cfg.xlen unspecified.strap
    utrap := legalTrapRegs s.cfg.xlen unspecified.utrap
    medeleg := unspecified.medeleg &&& medelegMask
    mideleg := unspecified.mideleg &&& lowerIntMask s.cfg
    sedeleg := unspecified.sedeleg &&& sedelegMask
    sideleg := unspecified.sideleg &&& sidelegMask
    mie := unspecified.mie &&& mieMask s.cfg
    mip := legalMip s.cfg unspecified.mip
    mcounteren := unspecified.mcounteren &&& 0x7
    scounteren := unspecified.scounteren &&& 0x7
    mcountinhibit := unspecified.mcountinhibit &&& 0x5
    pmpcfg := Vector.ofFn (fun i : Fin 16 => resetPmpcfg s.cfg i.val unspecified.pmpcfg[i])
    pmpaddr := Vector.ofFn (fun i : Fin 16 => resetPmpaddr s.cfg i.val unspecified.pmpaddr[i])
    wfiStalled := false
    mem := canonicalMemory unspecified.mem
    inputs := s.inputs
    boundary := s.boundary
    mcycleWritten := false }

end Sys2Proof.Machine
end

