-- ==== Sys2Proof/Safety.lean ====
section
/-! DEFINITION. The terms statements about the machine are made in: a register's value as a number, what an instruction
that completes leaves unchanged, and the invariants that every step keeps. -/

namespace Sys2Proof.Machine

/-! ### Values as numbers (R401) -/

/-- A number modulo 2^XLEN. -/
def wrapX (xl : Xlen) (n : Int) : Nat := (n % 2 ^ xl.bits).toNat

/-- The value of `x[r]`, unsigned. -/
def ux (r : Reg) (s : State) : Nat := (readX r s).toNat

/-- The value of `x[r]`, signed: two's complement on XLEN bits. -/
def sx (r : Reg) (s : State) : Int := Int.bmod (ux r s) (2 ^ s.cfg.xlen.bits)

/-- The low 32 bits of a number as a signed number. -/
def signed32 (n : Int) : Int := Int.bmod n (2 ^ 32)

/-- The number that `n` bytes of memory from address `a` hold, little-endian (R202). -/
def leNat (m : Memory) (a : Nat) : Nat → Nat
  | 0 => 0
  | n + 1 => (memRead m a).toNat + 256 * leNat m (a + 1) n

/-! ### What an instruction that completes does to the rest of the machine -/

/-- `pc` names the next instruction (R39). -/
def movedOn (s t : State) : Prop := t.pc.toNat = (s.pc.toNat + 4) % 2 ^ s.cfg.xlen.bits

/-- The instruction retired (R136, R520): `minstret` counts it unless `mcountinhibit.IR` is set. -/
def retired (s t : State) : Prop :=
  t.minstret = if s.mcountinhibit.getLsbD 2 then s.minstret else s.minstret + 1

/-- Every integer register but `rd` keeps its value, and `rd`, unless it is `x0`, holds `v` (R38). -/
def wroteReg (rd : Reg) (v : Nat) (s t : State) : Prop :=
  ∀ r : Reg, ux r t = if r = rd ∧ r ≠ 0 then v else ux r s

/-- Every integer register keeps its value. -/
def keptRegs (s t : State) : Prop := ∀ r : Reg, ux r t = ux r s

/-- Every byte of memory reads as before. -/
def keptMem (s t : State) : Prop := ∀ a : Nat, memRead t.mem a = memRead s.mem a

/-- The `n` bytes from `ea` hold the low `8 n` bits of `v`, little-endian, and every other byte reads as before (R202). -/
def storedAt (ea n v : Nat) (s t : State) : Prop :=
  ∀ a : Nat, memRead t.mem a =
    if ea ≤ a ∧ a < ea + n then BitVec.ofNat 8 (v / 256 ^ (a - ea)) else memRead s.mem a

/-- Nothing but the integer registers, `pc` and `minstret` differs. -/
def keptRest (s t : State) : Prop := t = { s with xregs := t.xregs, pc := t.pc, minstret := t.minstret }

/-- Nothing but memory, `pc` and `minstret` differs. -/
def keptRestStore (s t : State) : Prop := t = { s with mem := t.mem, pc := t.pc, minstret := t.minstret }

/-- `exec i` completes in `s`: it writes `v` to `x[rd]`, moves on, retires, and changes nothing else. -/
def writesReg (i : Instr) (rd : Reg) (v : Nat) (s : State) : Prop :=
  ∃ t, exec i s = .next t ∧ wroteReg rd v s t ∧ movedOn s t ∧ retired s t ∧ keptMem s t ∧ keptRest s t

/-- `exec i` completes in `s`: it moves on, retires, and changes nothing else. -/
def onlyMoves (i : Instr) (s : State) : Prop :=
  ∃ t, exec i s = .next t ∧ keptRegs s t ∧ movedOn s t ∧ retired s t ∧ keptMem s t ∧ keptRest s t

/-- `exec i` completes in `s` with the next instruction at `target`: it writes `v` to `x[rd]`, retires, and changes nothing
else. -/
def jumpsTo (i : Instr) (target : Nat) (rd : Reg) (v : Nat) (s : State) : Prop :=
  ∃ t, exec i s = .next t ∧ wroteReg rd v s t ∧ t.pc.toNat = target ∧ retired s t ∧ keptMem s t ∧ keptRest s t

/-- `exec i` completes in `s`: it stores the low `8 n` bits of `v` at `ea`, moves on, retires, and changes nothing else. -/
def storesBytes (i : Instr) (ea n v : Nat) (s : State) : Prop :=
  ∃ t, exec i s = .next t ∧ storedAt ea n v s t ∧ keptRegs s t ∧ movedOn s t ∧ retired s t ∧ keptRestStore s t

/-- `exec i` completes in `s` with the next instruction at `target`: it retires and changes nothing else. -/
def branchesTo (i : Instr) (target : Nat) (s : State) : Prop :=
  ∃ t, exec i s = .next t ∧ keptRegs s t ∧ t.pc.toNat = target ∧ retired s t ∧ keptMem s t ∧ keptRest s t

/-- `exec i` completes in `s` as an access to the CSR `c` (R320, R328): `x[rd]` gets the value read, the register gets `new`
if the instruction counts as a write (`w`), the hart moves on and retires, and nothing else changes. An instruction that
writes `minstret` does not count itself; the inhibit bit that counts is the one left behind (log 9). -/
def accessesCsr (i : Instr) (c : Csr) (w : Bool) (rd : Reg) (new : Word) (s : State) : Prop :=
  ∃ t u, exec i s = .next t ∧ u = (if w then csrWrite c new s else s) ∧ wroteReg rd (csrRead c s).toNat s t ∧
    movedOn s t ∧ keptMem s t ∧ t = { u with xregs := t.xregs, pc := t.pc, minstret := t.minstret } ∧
    t.minstret =
      if (w = true ∧ (c = .minstret ∨ c = .minstreth)) ∨ u.mcountinhibit.getLsbD 2 = true then u.minstret
      else u.minstret + 1

/-- One line of the CSR tables: the address and the register it names (R59), whether the register exists in the
configuration (R161), and the counter-enable bit that guards it below M-mode (R139). -/
structure CsrRow where
  addr : Nat
  reg : Csr
  present : Bool
  guard : Option Nat := none

/-- 29 lines for the registers numbered 3 to 31, at consecutive addresses. -/
def csrRows29 (addr : Nat) (reg : Nat → Csr) (present : Bool) (guarded : Bool := false) : List CsrRow :=
  (List.range 29).map (fun k =>
    { addr := addr + k, reg := reg (k + 3), present := present, guard := if guarded then some (k + 3) else none })

/-- The user-level lines of R59, R161 and R139. -/
def csrTableU (c : Config) : List CsrRow :=
  let n := c.extN && c.modes != .m
  let r := c.xlen == .rv32
  [{ addr := 0x000, reg := .ustatus, present := n }, { addr := 0x004, reg := .uie, present := n },
   { addr := 0x005, reg := .utvec, present := n }, { addr := 0x040, reg := .uscratch, present := n },
   { addr := 0x041, reg := .uepc, present := n }, { addr := 0x042, reg := .ucause, present := n },
   { addr := 0x043, reg := .utval, present := n }, { addr := 0x044, reg := .uip, present := n },
   { addr := 0xC00, reg := .cycle, present := true, guard := some 0 },
   { addr := 0xC01, reg := .time, present := true, guard := some 1 },
   { addr := 0xC02, reg := .instret, present := true, guard := some 2 },
   { addr := 0xC80, reg := .cycleh, present := r, guard := some 0 },
   { addr := 0xC81, reg := .timeh, present := r, guard := some 1 },
   { addr := 0xC82, reg := .instreth, present := r, guard := some 2 }] ++
  csrRows29 0xC03 .hpmcounter true true ++ csrRows29 0xC83 .hpmcounterh r true

/-- The supervisor-level lines of R59 and R161. -/
def csrTableS (c : Config) : List CsrRow :=
  let s := c.modes == .msu
  [{ addr := 0x100, reg := .sstatus, present := s }, { addr := 0x102, reg := .sedeleg, present := s && c.extN },
   { addr := 0x103, reg := .sideleg, present := s && c.extN }, { addr := 0x104, reg := .sie, present := s },
   { addr := 0x105, reg := .stvec, present := s }, { addr := 0x106, reg := .scounteren, present := s },
   { addr := 0x140, reg := .sscratch, present := s }, { addr := 0x141, reg := .sepc, present := s },
   { addr := 0x142, reg := .scause, present := s }, { addr := 0x143, reg := .stval, present := s },
   { addr := 0x144, reg := .sip, present := s }, { addr := 0x180, reg := .satp, present := s }]

/-- The machine-level lines of R59 and R161. -/
def csrTableM (c : Config) : List CsrRow :=
  let r := c.xlen == .rv32
  let d := c.modes == .msu || (c.extN && c.modes != .m)
  let p := decide (0 < c.pmpEntries)
  [{ addr := 0xF11, reg := .mvendorid, present := true }, { addr := 0xF12, reg := .marchid, present := true },
   { addr := 0xF13, reg := .mimpid, present := true }, { addr := 0xF14, reg := .mhartid, present := true },
   { addr := 0x300, reg := .mstatus, present := true }, { addr := 0x301, reg := .misa, present := true },
   { addr := 0x302, reg := .medeleg, present := d }, { addr := 0x303, reg := .mideleg, present := d },
   { addr := 0x304, reg := .mie, present := true }, { addr := 0x305, reg := .mtvec, present := true },
   { addr := 0x306, reg := .mcounteren, present := c.modes != .m },
   { addr := 0x320, reg := .mcountinhibit, present := true }, { addr := 0x340, reg := .mscratch, present := true },
   { addr := 0x341, reg := .mepc, present := true }, { addr := 0x342, reg := .mcause, present := true },
   { addr := 0x343, reg := .mtval, present := true }, { addr := 0x344, reg := .mip, present := true },
   { addr := 0x3A0, reg := .pmpcfg 0, present := p }, { addr := 0x3A1, reg := .pmpcfg 1, present := p && r },
   { addr := 0x3A2, reg := .pmpcfg 2, present := p }, { addr := 0x3A3, reg := .pmpcfg 3, present := p && r },
   { addr := 0xB00, reg := .mcycle, present := true }, { addr := 0xB02, reg := .minstret, present := true },
   { addr := 0xB80, reg := .mcycleh, present := r }, { addr := 0xB82, reg := .minstreth, present := r }] ++
  (List.finRange 16).map (fun i => { addr := 0x3B0 + i.val, reg := .pmpaddr i, present := p }) ++
  csrRows29 0x323 .mhpmevent true ++ csrRows29 0xB03 .mhpmcounter true ++ csrRows29 0xB83 .mhpmcounterh r

/-- The CSR tables of R59, R161 and R139. -/
def csrTable (c : Config) : List CsrRow := csrTableU c ++ csrTableS c ++ csrTableM c

/-- The access to CSR address `a`, a write of it when `w`, is one that R321 forbids. -/
def csrForbidden (a : CsrAddr) (w : Bool) (s : State) : Prop :=
  s.priv.level < (a.extractLsb' 8 2).toNat ∨ (w = true ∧ (a.extractLsb' 10 2).toNat = 3) ∨
    match csrOfAddr a with
    | none => True
    | some c =>
      csrExists s.cfg c = false ∨ (c = .satp ∧ s.priv = .S ∧ s.mstatus.tvm = true) ∨
        ∃ b, counterBit c = some b ∧ s.priv ≠ .M ∧
          (s.mcounteren.getLsbD b = false ∨ (s.priv = .U ∧ s.cfg.hasS = true ∧ s.scounteren.getLsbD b = false))

/-- `exec i` raises `e` with trap value `v` in `s`: the next state is the trap entry. -/
def raises (i : Instr) (e : Exc) (v : Word) (s : State) : Prop :=
  exec i s = .next (takeException { exc := e, tval := v } s)

/-- The region is main memory: RAM or ROM (R209). -/
def isMemory (r : Region) : Prop := r.kind = .ram ∨ r.kind = .rom

/-- The regions of the memory map are disjoint (R209). -/
def mapDisjoint (c : Config) : Prop :=
  c.memMap.Pairwise (fun r q => r.base + r.size ≤ q.base ∨ q.base + q.size ≤ r.base)

/-- The region holds the `n` bytes at `pa` and permits the access (R209): RAM every access, ROM reads and fetches, a device
no fetch, and of data accesses the widths and offsets of R210: the word of `msip`, either word or the doubleword of `mtime`
and `mtimecmp` (log 10). -/
def regionServes (r : Region) (t : AccessType) (pa n : Nat) : Prop :=
  r.base ≤ pa ∧ pa + n ≤ r.base + r.size ∧
    match r.kind with
    | .ram => True
    | .rom => t ≠ .W
    | .dev .msip => t ≠ .X ∧ n = 4 ∧ pa = r.base
    | .dev _ => t ≠ .X ∧ ((n = 4 ∧ (pa = r.base ∨ pa = r.base + 4)) ∨ (n = 8 ∧ pa = r.base))

/-! ### Device registers (R210) -/

/-- The 64-bit value a device register shows: `msip` is bit 0 of a register whose other bits are zero. -/
def deviceValue (d : Device) (s : State) : Nat :=
  match d with
  | .mtime => s.mtime.toNat
  | .mtimecmp => s.mtimecmp.toNat
  | .msip => if s.msip then 1 else 0

/-- The 64-bit number `old` with the `n` bytes from byte `off` replaced by the low bytes of `v`. -/
def patched (old off n v : Nat) : Nat :=
  old % 256 ^ off + v % 256 ^ n * 256 ^ off + old / 256 ^ (off + n) * 256 ^ (off + n)

/-- `exec i` completes in `s`: it stores the low `8 n` bits of `v` at byte `off` of the device register `d`, moves on,
retires, and changes nothing else. -/
def storesDevice (i : Instr) (d : Device) (off n v : Nat) (s : State) : Prop :=
  ∃ t, exec i s = .next t ∧ keptRegs s t ∧ movedOn s t ∧ retired s t ∧ keptMem s t ∧
    t = { s with
          mtime := if d = .mtime then BitVec.ofNat 64 (patched s.mtime.toNat off n v) else s.mtime
          mtimecmp := if d = .mtimecmp then BitVec.ofNat 64 (patched s.mtimecmp.toNat off n v) else s.mtimecmp
          msip := if d = .msip then v.testBit 0 else s.msip
          pc := t.pc
          minstret := t.minstret }

/-! ### Invariants -/

/-- The alignment of instruction addresses (R40, R143): `pc` and every `xepc` are multiples of 4. -/
def alignedPcs (s : State) : Prop :=
  s.pc.toNat % 4 = 0 ∧ ∀ x : Priv, (trapRegs x s).epc.toNat % 4 = 0

/-- No `xtvec` holds a reserved MODE (R110, R111). -/
def legalTvecs (s : State) : Prop := ∀ x : Priv, (trapRegs x s).tvec.toNat % 4 < 2

/-- The current mode and the previous modes of the privilege stack are implemented (R34, R91). -/
def legalModes (s : State) : Prop :=
  s.cfg.hasMode s.priv = true ∧ s.cfg.hasMode s.mstatus.mpp = true ∧ (s.mstatus.spp = true → s.cfg.hasS = true)

/-- The fields of `mstatus` and `mip` that a mode or extension brings are zero where it is absent (R92, R98 to R102,
R132). -/
def absentZero (s : State) : Prop :=
  (s.cfg.hasS = false →
    s.mstatus.sie = false ∧ s.mstatus.spie = false ∧ s.mstatus.spp = false ∧ s.mstatus.sum = false ∧
      s.mstatus.mxr = false ∧ s.mstatus.tvm = false ∧ s.mstatus.tsr = false ∧
      s.mip.ssip = false ∧ s.mip.stip = false ∧ s.mip.seipSw = false) ∧
  (s.cfg.hasN = false →
    s.mstatus.uie = false ∧ s.mstatus.upie = false ∧ s.mip.usip = false ∧ s.mip.utip = false ∧ s.mip.ueipSw = false) ∧
  (s.cfg.hasU = false → s.mstatus.mprv = false ∧ s.mstatus.tw = false)

/-- A word has bits of `m` only. -/
def within (m v : Word) : Prop := v &&& ~~~m = 0

/-- The delegation, enable and counter-control registers hold their writable bits only (R114 to R117, R132, R139 to R141,
decisions D20 and D26). -/
def maskedCsrs (s : State) : Prop :=
  within medelegMask s.medeleg ∧ within (lowerIntMask s.cfg) s.mideleg ∧ within sedelegMask s.sedeleg ∧
    within sidelegMask s.sideleg ∧ within (mieMask s.cfg) s.mie ∧
    s.mcounteren &&& ~~~(0x7 : BitVec 32) = 0 ∧ s.scounteren &&& ~~~(0x7 : BitVec 32) = 0 ∧
    s.mcountinhibit &&& ~~~(0x5 : BitVec 32) = 0

/-- The PMP registers hold legal values (R146, R149, R152, R154): bits 6:5 of a configuration are zero, W is not set
without R, NA4 is not selected under a coarser granularity, entries that are not implemented are zero, and an address
register has its `PALEN-2` bits only. -/
def legalPmp (s : State) : Prop :=
  ∀ i : Fin 16,
    s.pmpcfg[i] &&& 0x60 = 0 ∧ (pmpPermits s.pmpcfg[i] .W = true → pmpPermits s.pmpcfg[i] .R = true) ∧
      (1 ≤ s.cfg.pmpG → pmpMode s.pmpcfg[i] ≠ 2#2) ∧
      (s.cfg.pmpEntries ≤ i.val → s.pmpcfg[i] = 0 ∧ s.pmpaddr[i] = 0) ∧
      within (pmpaddrMask s.cfg) s.pmpaddr[i]

/-- The XLEN-bit registers of a level fit the width. -/
def trapRegsFit (xl : Xlen) (r : TrapRegs) : Prop :=
  r.tvec.toNat < 2 ^ xl.bits ∧ r.scratch.toNat < 2 ^ xl.bits ∧ r.epc.toNat < 2 ^ xl.bits ∧
    r.cause.toNat < 2 ^ xl.bits ∧ r.tval.toNat < 2 ^ xl.bits

/-- `pc` and the trap registers are XLEN bits wide (R39, R108, R142 to R145, R156, R157). -/
def fitsXlen (s : State) : Prop :=
  s.pc.toNat < 2 ^ s.cfg.xlen.bits ∧ ∀ x : Priv, trapRegsFit s.cfg.xlen (trapRegs x s)

/-- `RESET_VECTOR` is an instruction address of the hart: 4-byte aligned (decision D23) and XLEN bits (R39). -/
def legalResetVector (c : Config) : Prop := c.resetVector.toNat % 4 = 0 ∧ c.resetVector.toNat < 2 ^ c.xlen.bits

/-- Every element holds a value that is legal for its field: all the invariants. -/
def legalState (s : State) : Prop :=
  Memory.wf s.mem = true ∧ alignedPcs s ∧ legalTvecs s ∧ legalModes s ∧ absentZero s ∧ maskedCsrs s ∧ legalPmp s ∧ fitsXlen s

/-- Entry `i` and every address register its range needs are as they were (R153): the entry was locked before. -/
def pmpEntryKept (i : Fin 16) (s t : State) : Prop :=
  t.pmpcfg[i] = s.pmpcfg[i] ∧ t.pmpaddr[i] = s.pmpaddr[i] ∧
    (pmpMode s.pmpcfg[i] = 1#2 → ∀ j : Fin 16, j.val + 1 = i.val → t.pmpaddr[j] = s.pmpaddr[j])

/-- The interrupts delegated to U-mode, `D_u` and 0x111 (R122), those that `uie` and `uip` show. -/
def userInterrupt (s : State) (k : Nat) : Bool :=
  s.mideleg.getLsbD k && (s.cfg.modes != .msu || s.sideleg.getLsbD k) && (k == 0 || k == 4 || k == 8)

/-- Everything that U-mode may not change: the M and S trap registers, the delegation, counter-control and PMP registers,
every field of `mstatus` but UIE and UPIE, every bit of `mie` and `mip` but those that `uie` and `uip` let it write, and
`minstret` but for the retirement of the instruction. -/
def keptPrivileged (s t : State) : Prop :=
  t.cfg = s.cfg ∧ t.mtrap = s.mtrap ∧ t.strap = s.strap ∧ t.medeleg = s.medeleg ∧ t.mideleg = s.mideleg ∧
    t.sedeleg = s.sedeleg ∧ t.sideleg = s.sideleg ∧ t.mcounteren = s.mcounteren ∧ t.scounteren = s.scounteren ∧
    t.mcountinhibit = s.mcountinhibit ∧ t.mcycle = s.mcycle ∧ t.pmpcfg = s.pmpcfg ∧ t.pmpaddr = s.pmpaddr ∧
    t.mstatus = { s.mstatus with uie := t.mstatus.uie, upie := t.mstatus.upie } ∧
    (∀ k, userInterrupt s k = false → t.mie.getLsbD k = s.mie.getLsbD k) ∧
    t.mip = { s.mip with usip := t.mip.usip } ∧ (userInterrupt s 0 = false → t.mip = s.mip) ∧
    (t.minstret = s.minstret ∨ t.minstret = s.minstret + 1)

end Sys2Proof.Machine
end

