-- ==== Sys2Proof/Certificates/Slice0/Obligations.lean ====
section
/-! DEFINITION. The statements for the provers. Values are numbers (`Safety.lean`), so that a result is said without the
operations that compute it. -/

section

open Sys2Proof Sys2Proof.Machine

/-! ### Encoding -/

/-- R281 to R286, R293: the decoder reads back every well-formed instruction with all its operands, from its word and from
its bytes in memory order. -/
def Obligations.DecodeOfEncode : Prop :=
  ∀ (xl : Xlen) (i : Instr) (rest : List Byte), i.wellFormed xl = true →
    decodeWord xl (encode i) = .ok i ∧ decodeBytes xl (encodeBytes i ++ rest) = .ok (i, rest)

/-- R287, R290, R293: every word the decoder accepts is the word of the instruction it gives, reserved fields included, and
that instruction exists on a hart of the width. -/
def Obligations.EncodeOfDecode : Prop :=
  ∀ (xl : Xlen) (w : InstWord) (i : Instr), decodeWord xl w = .ok i → encode i = w ∧ i.wellFormed xl = true

/-- R287: a row of the table that is available and fits a word is the one decoded; no word fits two available rows; and a
word that fits none raises IllegalInstruction. -/
def Obligations.DecodeUniqueRow : Prop :=
  ∀ (xl : Xlen) (w : InstWord),
    (∀ r ∈ rows, r.available xl = true → r.fits xl w = true → decodeWord xl w = .ok (r.build w)) ∧
      rows.Pairwise (fun r q => ¬(r.available xl = true ∧ r.fits xl w = true ∧ q.available xl = true ∧ q.fits xl w = true)) ∧
      ((∀ r ∈ rows, r.available xl = true → r.fits xl w = false) →
        ∀ s : State, s.cfg.xlen = xl →
          execWord w s = .next (takeException { exc := .illegalInstruction, tval := w.setWidth 64 } s))

/-- R322, R353, R357, R403 to R445: words written out in the spec decode to the instructions it gives them for. -/
def Obligations.SampleWordsDecode : Prop :=
  decodeWord .rv32 0x340110F3 = .ok (.csrrw 1 0x340 2) ∧
    decodeWord .rv32 0x30200073 = .ok .mret ∧
    decodeWord .rv32 0x12418073 = .ok (.sfenceVma 3 4) ∧
    decodeWord .rv32 0x123452B7 = .ok (.lui 5 0x12345) ∧
    decodeWord .rv32 0x001000EF = .ok (.jal 1 1024) ∧
    decodeWord .rv32 0xFE208CE3 = .ok (.beq 1 2 0xFFC) ∧
    decodeWord .rv32 0xFFF12283 = .ok (.lw 5 2 0xFFF) ∧
    decodeWord .rv32 0x00512223 = .ok (.sw 5 2 4) ∧
    decodeWord .rv32 0x40435293 = .ok (.srai 5 6 4) ∧
    decodeWord .rv32 0x407302B3 = .ok (.sub 5 6 7) ∧
    decodeWord .rv32 0x0330000F = .ok (.fence 0 0 0 3 3) ∧
    decodeWord .rv64 0x0013029B = .ok (.addiw 5 6 1)

/-- R280, R284, R288: a word that is not 32-bit instruction space, or whose major opcode this hart does not decode, raises
IllegalInstruction with the word as trap value; OP-IMM-32 and OP-32 are decoded on MXLEN = 64 only. -/
def Obligations.ReservedWordsTrap : Prop :=
  ∀ (w : InstWord) (s : State),
    (w.toNat % 4 ≠ 3 ∨ w.toNat % 32 = 31 ∨
      w.toNat % 128 ∉ [0x03, 0x0F, 0x13, 0x17, 0x1B, 0x23, 0x33, 0x37, 0x3B, 0x63, 0x67, 0x6F, 0x73] ∨
      (s.cfg.xlen = .rv32 ∧ w.toNat % 128 ∈ [0x1B, 0x3B])) →
    execWord w s = .next (takeException { exc := .illegalInstruction, tval := w.setWidth 64 } s)

/-! ### The step -/

/-- R520: when the hart is awake or wakes, no interrupt can be taken, and the bytes at `pc` decode to `i`, the step is the
meaning of `i`, followed by the platform's move: `mtime` and, unless held, `mcycle` advance by the platform's amounts and the
interrupt lines take their new levels. The platform's move and its place after the instruction are the model's (log 6). -/
def Obligations.StepRunsDecoded : Prop :=
  ∀ (s t : State) (w : InstWord) (i : Instr),
    (s.wfiStalled = false ∨ wakes s = true) → nextInterrupt (awaken s) = none → fetch (awaken s) = .ok w →
    decodeWord s.cfg.xlen w = .ok i → exec i (awaken s) = .next t →
    step s = .next
      { t with
        mtime := t.mtime + BitVec.ofNat 64 (platformInput t).mtimeTicks
        mcycle := if t.mcountinhibit.getLsbD 0 ∨ t.mcycleWritten then t.mcycle
          else t.mcycle + BitVec.ofNat 64 (platformInput t).cycles
        lines := (platformInput t).lines
        inputs := t.inputs.tail
        boundary := t.boundary + 1
        mcycleWritten := false }

/-- R520, R523, R356: a stalled hart wakes when some interrupt is pending and enabled in `mie`, whatever the global enables
and delegations, or when the platform chooses so (log 6); one that does not wake executes nothing; an interrupt that can be
taken is taken before the instruction at `pc`, with `pc` saved; a fetch that fails raises InstrAccessFault with `pc` as trap
value. The platform's move after each is the model's (log 6). -/
def Obligations.StepBeforeExecution : Prop :=
  ∀ s : State,
    (wakes s = true ↔
      s.lines.wake = true ∨
        ∃ k, s.mie.getLsbD k = true ∧
          (match k with
            | 0 => s.mip.usip
            | 1 => s.mip.ssip
            | 3 => s.msip
            | 4 => s.mip.utip
            | 5 => s.mip.stip
            | 7 => decide (s.mtimecmp.toNat ≤ s.mtime.toNat)
            | 8 => s.mip.ueipSw || s.lines.ueip
            | 9 => s.mip.seipSw || s.lines.seip
            | 11 => s.lines.meip
            | _ => false) = true) ∧
    (s.wfiStalled = true → wakes s = false → step s = .next (passTime s)) ∧
      ((s.wfiStalled = false ∨ wakes s = true) →
        (∀ i, nextInterrupt (awaken s) = some i → step s = .next (passTime (takeTrap true i 0 s.pc (awaken s)))) ∧
        (∀ e, nextInterrupt (awaken s) = none → fetch (awaken s) = .error e →
          step s = .next (passTime (takeTrap false 1 s.pc s.pc (awaken s)))))

/-- R500, R520, R288: a step always answers a next state, since every exception is taken; and no step changes the
parameters (`00_scope.md` section 4). -/
def Obligations.StepAlwaysNext : Prop :=
  ∀ s : State, ∃ t, step s = .next t ∧ t.cfg = s.cfg

/-! ### Base integer instructions -/

/-- R37, R38: `x0` reads 0 in every state and a write to it is discarded; a write to another register is read back modulo
2^XLEN and leaves every other register alone. -/
def Obligations.IntegerRegisters : Prop :=
  ∀ (s : State) (rd r : Reg) (v : Word),
    readX 0 s = 0 ∧ writeX 0 v s = s ∧
      ux r (writeX rd v s) = if r = rd ∧ r ≠ 0 then wrapX s.cfg.xlen v.toNat else ux r s

/-- R403, R404: LUI and AUIPC. -/
def Obligations.UpperImmediates : Prop :=
  ∀ (s : State) (rd : Reg) (imm : BitVec 20),
    writesReg (.lui rd imm) rd (wrapX s.cfg.xlen (imm.toInt * 4096)) s ∧
      writesReg (.auipc rd imm) rd (wrapX s.cfg.xlen (s.pc.toNat + imm.toInt * 4096)) s

/-- R405, R406: JAL and JALR to an aligned target link and jump; JALR clears bit 0 of the sum and reads its base before it
links. -/
def Obligations.JumpsLink : Prop :=
  ∀ (s : State) (rd rs1 : Reg) (imm20 : BitVec 20) (imm12 : BitVec 12),
    (wrapX s.cfg.xlen (s.pc.toNat + 2 * imm20.toInt) % 4 = 0 →
      jumpsTo (.jal rd imm20) (wrapX s.cfg.xlen (s.pc.toNat + 2 * imm20.toInt)) rd (wrapX s.cfg.xlen (s.pc.toNat + 4)) s) ∧
      (wrapX s.cfg.xlen (ux rs1 s + imm12.toInt) / 2 % 2 = 0 →
        jumpsTo (.jalr rd rs1 imm12) (wrapX s.cfg.xlen (ux rs1 s + imm12.toInt) / 2 * 2) rd
          (wrapX s.cfg.xlen (s.pc.toNat + 4)) s)

/-- R402, R405 to R412: a jump or taken branch to a target that is not a multiple of 4 raises InstrAddrMisaligned on itself
with the target as trap value. -/
def Obligations.MisalignedTargetsTrap : Prop :=
  ∀ (s : State) (rd rs1 rs2 : Reg) (imm20 : BitVec 20) (imm : BitVec 12) (target : Word),
    target.toNat % 4 ≠ 0 →
    (target.toNat = wrapX s.cfg.xlen (s.pc.toNat + 2 * imm20.toInt) →
      raises (.jal rd imm20) .instrAddrMisaligned target s) ∧
    (target.toNat = wrapX s.cfg.xlen (ux rs1 s + imm.toInt) / 2 * 2 →
      raises (.jalr rd rs1 imm) .instrAddrMisaligned target s) ∧
    (target.toNat = wrapX s.cfg.xlen (s.pc.toNat + 2 * imm.toInt) →
      (ux rs1 s = ux rs2 s → raises (.beq rs1 rs2 imm) .instrAddrMisaligned target s) ∧
      (ux rs1 s ≠ ux rs2 s → raises (.bne rs1 rs2 imm) .instrAddrMisaligned target s) ∧
      (sx rs1 s < sx rs2 s → raises (.blt rs1 rs2 imm) .instrAddrMisaligned target s) ∧
      (sx rs2 s ≤ sx rs1 s → raises (.bge rs1 rs2 imm) .instrAddrMisaligned target s) ∧
      (ux rs1 s < ux rs2 s → raises (.bltu rs1 rs2 imm) .instrAddrMisaligned target s) ∧
      (ux rs2 s ≤ ux rs1 s → raises (.bgeu rs1 rs2 imm) .instrAddrMisaligned target s))

/-- R407 to R412: a branch that is not taken, or whose target is a multiple of 4, moves `pc` and nothing else. -/
def Obligations.BranchesComplete : Prop :=
  ∀ (s : State) (rs1 rs2 : Reg) (imm : BitVec 12) (dest next : Nat),
    dest = wrapX s.cfg.xlen (s.pc.toNat + 2 * imm.toInt) → next = wrapX s.cfg.xlen (s.pc.toNat + 4) →
    ((ux rs1 s = ux rs2 s → dest % 4 = 0) →
      branchesTo (.beq rs1 rs2 imm) (if ux rs1 s = ux rs2 s then dest else next) s) ∧
    ((ux rs1 s ≠ ux rs2 s → dest % 4 = 0) →
      branchesTo (.bne rs1 rs2 imm) (if ux rs1 s ≠ ux rs2 s then dest else next) s) ∧
    ((sx rs1 s < sx rs2 s → dest % 4 = 0) →
      branchesTo (.blt rs1 rs2 imm) (if sx rs1 s < sx rs2 s then dest else next) s) ∧
    ((sx rs2 s ≤ sx rs1 s → dest % 4 = 0) →
      branchesTo (.bge rs1 rs2 imm) (if sx rs2 s ≤ sx rs1 s then dest else next) s) ∧
    ((ux rs1 s < ux rs2 s → dest % 4 = 0) →
      branchesTo (.bltu rs1 rs2 imm) (if ux rs1 s < ux rs2 s then dest else next) s) ∧
    ((ux rs2 s ≤ ux rs1 s → dest % 4 = 0) →
      branchesTo (.bgeu rs1 rs2 imm) (if ux rs2 s ≤ ux rs1 s then dest else next) s)

/-- R421 to R426: the register-immediate instructions. -/
def Obligations.RegImmResults : Prop :=
  ∀ (s : State) (rd rs1 : Reg) (imm : BitVec 12) (c : Nat), c = wrapX s.cfg.xlen imm.toInt →
    writesReg (.addi rd rs1 imm) rd (wrapX s.cfg.xlen (ux rs1 s + imm.toInt)) s ∧
      writesReg (.slti rd rs1 imm) rd (if sx rs1 s < imm.toInt then 1 else 0) s ∧
      writesReg (.sltiu rd rs1 imm) rd (if ux rs1 s < c then 1 else 0) s ∧
      writesReg (.xori rd rs1 imm) rd (ux rs1 s ^^^ c) s ∧
      writesReg (.ori rd rs1 imm) rd (ux rs1 s ||| c) s ∧
      writesReg (.andi rd rs1 imm) rd (ux rs1 s &&& c) s

/-- R427 to R429, R283: the shifts by an immediate, whose amount is below XLEN. -/
def Obligations.ShiftImmResults : Prop :=
  ∀ (s : State) (rd rs1 : Reg) (shamt : BitVec 6), shamt.toNat < s.cfg.xlen.bits →
    writesReg (.slli rd rs1 shamt) rd (wrapX s.cfg.xlen (ux rs1 s * 2 ^ shamt.toNat)) s ∧
      writesReg (.srli rd rs1 shamt) rd (ux rs1 s / 2 ^ shamt.toNat) s ∧
      writesReg (.srai rd rs1 shamt) rd (wrapX s.cfg.xlen (sx rs1 s / 2 ^ shamt.toNat)) s

/-- R430, R431, R433 to R435, R438, R439: the register-register instructions. -/
def Obligations.RegRegResults : Prop :=
  ∀ (s : State) (rd rs1 rs2 : Reg),
    writesReg (.add rd rs1 rs2) rd (wrapX s.cfg.xlen (ux rs1 s + ux rs2 s)) s ∧
      writesReg (.sub rd rs1 rs2) rd (wrapX s.cfg.xlen (ux rs1 s - ux rs2 s)) s ∧
      writesReg (.slt rd rs1 rs2) rd (if sx rs1 s < sx rs2 s then 1 else 0) s ∧
      writesReg (.sltu rd rs1 rs2) rd (if ux rs1 s < ux rs2 s then 1 else 0) s ∧
      writesReg (.xor rd rs1 rs2) rd (ux rs1 s ^^^ ux rs2 s) s ∧
      writesReg (.or rd rs1 rs2) rd (ux rs1 s ||| ux rs2 s) s ∧
      writesReg (.and rd rs1 rs2) rd (ux rs1 s &&& ux rs2 s) s

/-- R432, R436, R437: the shifts by a register use its low 5 bits on RV32 and its low 6 on RV64. -/
def Obligations.RegShiftResults : Prop :=
  ∀ (s : State) (rd rs1 rs2 : Reg) (n : Nat), n = ux rs2 s % s.cfg.xlen.bits →
    writesReg (.sll rd rs1 rs2) rd (wrapX s.cfg.xlen (ux rs1 s * 2 ^ n)) s ∧
      writesReg (.srl rd rs1 rs2) rd (ux rs1 s / 2 ^ n) s ∧
      writesReg (.sra rd rs1 rs2) rd (wrapX s.cfg.xlen (sx rs1 s / 2 ^ n)) s

/-- R440, R441, R290: FENCE and FENCE.I only move on, whatever their fields hold. -/
def Obligations.FencesOnlyMove : Prop :=
  ∀ (s : State) (rd rs1 : Reg) (fm pred succ : BitVec 4) (imm : BitVec 12),
    onlyMoves (.fence rd rs1 fm pred succ) s ∧ onlyMoves (.fenceI rd rs1 imm) s

/-- R445, R449, R450: ADDIW, ADDW and SUBW write the sign-extended low 32 bits of the sum or difference. -/
def Obligations.WordArithResults : Prop :=
  ∀ (s : State) (rd rs1 rs2 : Reg) (imm : BitVec 12), s.cfg.xlen = .rv64 →
    writesReg (.addiw rd rs1 imm) rd (wrapX .rv64 (signed32 (ux rs1 s + imm.toInt))) s ∧
      writesReg (.addw rd rs1 rs2) rd (wrapX .rv64 (signed32 (ux rs1 s + ux rs2 s))) s ∧
      writesReg (.subw rd rs1 rs2) rd (wrapX .rv64 (signed32 (ux rs1 s - ux rs2 s))) s

/-- R446 to R448, R451 to R453: the word shifts, by an immediate and by the low 5 bits of a register. -/
def Obligations.WordShiftResults : Prop :=
  ∀ (s : State) (rd rs1 rs2 : Reg) (shamt : BitVec 5) (n : Nat), s.cfg.xlen = .rv64 → n = ux rs2 s % 32 →
    writesReg (.slliw rd rs1 shamt) rd (wrapX .rv64 (signed32 (ux rs1 s * 2 ^ shamt.toNat))) s ∧
      writesReg (.srliw rd rs1 shamt) rd (wrapX .rv64 (signed32 (ux rs1 s % 2 ^ 32 / 2 ^ shamt.toNat))) s ∧
      writesReg (.sraiw rd rs1 shamt) rd (wrapX .rv64 (signed32 (ux rs1 s) / 2 ^ shamt.toNat)) s ∧
      writesReg (.sllw rd rs1 rs2) rd (wrapX .rv64 (signed32 (ux rs1 s * 2 ^ n))) s ∧
      writesReg (.srlw rd rs1 rs2) rd (wrapX .rv64 (signed32 (ux rs1 s % 2 ^ 32 / 2 ^ n))) s ∧
      writesReg (.sraw rd rs1 rs2) rd (wrapX .rv64 (signed32 (ux rs1 s) / 2 ^ n)) s

/-- R283, R442 to R453: on MXLEN = 32 an instruction that has no encoding there (an RV64-only one, or a shift by 32 or more)
raises IllegalInstruction with its word as trap value. That `exec` raises it on the term itself is the model's way to say so
(log 15). -/
def Obligations.Rv64OnlyTrap : Prop :=
  ∀ (s : State) (i : Instr), s.cfg.xlen = .rv32 → i.wellFormed .rv32 = false →
    raises i .illegalInstruction ((encode i).setWidth 64) s

/-! ### Loads and stores -/

/-- R413 to R417, R442, R443, R202: a load from main memory that passes the checks writes the little-endian value, extended,
and changes nothing else; its address wraps modulo 2^XLEN. -/
def Obligations.LoadsFromMemory : Prop :=
  ∀ (s : State) (rd rs1 : Reg) (imm : BitVec 12) (r : Region) (ea : Word), ea = effAddr rs1 imm s →
    ea.toNat = wrapX s.cfg.xlen (ux rs1 s + imm.toInt) ∧
    (isMemory r →
      (checkAccess .R ea 1 s = .ok r →
        writesReg (.lb rd rs1 imm) rd (wrapX s.cfg.xlen (Int.bmod (leNat s.mem ea.toNat 1) (2 ^ 8))) s ∧
          writesReg (.lbu rd rs1 imm) rd (leNat s.mem ea.toNat 1) s) ∧
      (checkAccess .R ea 2 s = .ok r →
        writesReg (.lh rd rs1 imm) rd (wrapX s.cfg.xlen (Int.bmod (leNat s.mem ea.toNat 2) (2 ^ 16))) s ∧
          writesReg (.lhu rd rs1 imm) rd (leNat s.mem ea.toNat 2) s) ∧
      (checkAccess .R ea 4 s = .ok r →
        writesReg (.lw rd rs1 imm) rd (wrapX s.cfg.xlen (Int.bmod (leNat s.mem ea.toNat 4) (2 ^ 32))) s ∧
          (s.cfg.xlen = .rv64 → writesReg (.lwu rd rs1 imm) rd (leNat s.mem ea.toNat 4) s)) ∧
      (checkAccess .R ea 8 s = .ok r → s.cfg.xlen = .rv64 →
        writesReg (.ld rd rs1 imm) rd (leNat s.mem ea.toNat 8) s))

/-- R418 to R420, R444, R202: a store to main memory that passes the checks changes exactly the bytes from the effective
address on, to the little-endian bytes of the low part of the register, and changes nothing else. Memory is in its canonical
form (log 5), which every step keeps (`MemoryFormKept`). -/
def Obligations.StoresToMemory : Prop :=
  ∀ (s : State) (rs2 rs1 : Reg) (imm : BitVec 12) (r : Region) (ea : Word), ea = effAddr rs1 imm s → isMemory r →
    Memory.wf s.mem = true →
    (checkAccess .W ea 1 s = .ok r → storesBytes (.sb rs2 rs1 imm) ea.toNat 1 (ux rs2 s) s) ∧
      (checkAccess .W ea 2 s = .ok r → storesBytes (.sh rs2 rs1 imm) ea.toNat 2 (ux rs2 s) s) ∧
      (checkAccess .W ea 4 s = .ok r → storesBytes (.sw rs2 rs1 imm) ea.toNat 4 (ux rs2 s) s) ∧
      (checkAccess .W ea 8 s = .ok r → s.cfg.xlen = .rv64 →
        storesBytes (.sd rs2 rs1 imm) ea.toNat 8 (ux rs2 s) s)

/-- R413 to R420, R442 to R444, R233: a load or store whose access fails a check takes that exception, which is the
address-misaligned or the access-fault exception of its kind with the effective address as trap value. -/
def Obligations.AccessExceptions : Prop :=
  ∀ (s : State) (rd rs1 rs2 : Reg) (imm : BitVec 12) (ea : Word) (e : Raised), ea = effAddr rs1 imm s →
    (∀ n, checkAccess .R ea n s = .error e →
      e.tval = ea ∧ (e.exc = .loadAddrMisaligned ∨ e.exc = .loadAccessFault)) ∧
    (∀ n, checkAccess .W ea n s = .error e →
      e.tval = ea ∧ (e.exc = .storeAddrMisaligned ∨ e.exc = .storeAccessFault)) ∧
    (checkAccess .R ea 1 s = .error e → raises (.lb rd rs1 imm) e.exc ea s ∧ raises (.lbu rd rs1 imm) e.exc ea s) ∧
    (checkAccess .R ea 2 s = .error e → raises (.lh rd rs1 imm) e.exc ea s ∧ raises (.lhu rd rs1 imm) e.exc ea s) ∧
    (checkAccess .R ea 4 s = .error e →
      raises (.lw rd rs1 imm) e.exc ea s ∧ (s.cfg.xlen = .rv64 → raises (.lwu rd rs1 imm) e.exc ea s)) ∧
    (checkAccess .R ea 8 s = .error e → s.cfg.xlen = .rv64 → raises (.ld rd rs1 imm) e.exc ea s) ∧
    (checkAccess .W ea 1 s = .error e → raises (.sb rs2 rs1 imm) e.exc ea s) ∧
    (checkAccess .W ea 2 s = .error e → raises (.sh rs2 rs1 imm) e.exc ea s) ∧
    (checkAccess .W ea 4 s = .error e → raises (.sw rs2 rs1 imm) e.exc ea s) ∧
    (checkAccess .W ea 8 s = .error e → s.cfg.xlen = .rv64 → raises (.sd rs2 rs1 imm) e.exc ea s)

/-- R210, R127, R134, R135: word and doubleword accesses to a device register read and write it at the offset from the
region's base; no other register changes. Which widths and offsets a device accepts beyond the words of R210 is the model's
reading (log 10). -/
def Obligations.DeviceAccesses : Prop :=
  ∀ (s : State) (rd rs1 rs2 : Reg) (imm : BitVec 12) (r : Region) (d : Device) (ea : Word) (off : Nat),
    ea = effAddr rs1 imm s → r.kind = .dev d → off = ea.toNat - r.base →
    (checkAccess .R ea 4 s = .ok r →
      writesReg (.lw rd rs1 imm) rd (wrapX s.cfg.xlen (signed32 (deviceValue d s / 256 ^ off))) s ∧
        (s.cfg.xlen = .rv64 → writesReg (.lwu rd rs1 imm) rd (deviceValue d s / 256 ^ off % 2 ^ 32) s)) ∧
    (checkAccess .R ea 8 s = .ok r → s.cfg.xlen = .rv64 → writesReg (.ld rd rs1 imm) rd (deviceValue d s) s) ∧
    (checkAccess .W ea 4 s = .ok r → storesDevice (.sw rs2 rs1 imm) d off 4 (ux rs2 s) s) ∧
    (checkAccess .W ea 8 s = .ok r → s.cfg.xlen = .rv64 → storesDevice (.sd rs2 rs1 imm) d 0 8 (ux rs2 s) s)

/-- R240, R236, R209, R210: the checks on one access in their order: alignment, physical address width, PMP at the effective
privilege, memory map. What each kind of region permits is spelled out in `regionServes`; the widths and offsets a device
accepts beyond the words of R210 are the model's reading (log 10). -/
def Obligations.AccessChecks : Prop :=
  ∀ (s : State) (t : AccessType) (ea : Word) (n : Nat) (p : Priv), mapDisjoint s.cfg → 0 < n →
    p = (if t ≠ .X ∧ s.mstatus.mprv = true then s.mstatus.mpp else s.priv) →
    (t ≠ .X → ea.toNat % n ≠ 0 → checkAccess t ea n s = .error { exc := misalignedExc t, tval := ea }) ∧
    ((t = .X ∨ ea.toNat % n = 0) →
      (2 ^ s.cfg.palen ≤ ea.toNat ∨ pmpCheck ea.toNat n t p s = false ∨
          (∀ r ∈ s.cfg.memMap, ¬ regionServes r t ea.toNat n) →
        checkAccess t ea n s = .error { exc := accessFaultExc t, tval := ea }) ∧
      (∀ r ∈ s.cfg.memMap, ea.toNat < 2 ^ s.cfg.palen → pmpCheck ea.toNat n t p s = true →
        regionServes r t ea.toNat n → checkAccess t ea n s = .ok r))

/-! ### CSR instructions -/

/-- R320, R322 to R328: a CSR instruction whose access is permitted completes: the value read goes to `x[rd]` and the
register gets the source, or the read-modify-write base with the source's bits set or cleared; `rs1 = x0` or `uimm = 0` makes
a set or clear form a pure read. The base is the value read for every register but `mip`, `sip` and `uip`, whose bases
`PendingRegisters` gives. -/
def Obligations.CsrInstrComplete : Prop :=
  ∀ (s : State) (rd rs1 : Reg) (uimm : BitVec 5) (a : CsrAddr) (c : Csr),
    (csrAccess a true s = some c →
      accessesCsr (.csrrw rd a rs1) c true rd (readX rs1 s) s ∧
        accessesCsr (.csrrwi rd a uimm) c true rd (uimm.setWidth 64) s) ∧
    (csrAccess a (rs1 != 0) s = some c →
      accessesCsr (.csrrs rd a rs1) c (rs1 != 0) rd (csrRmwBase c s ||| readX rs1 s) s ∧
        accessesCsr (.csrrc rd a rs1) c (rs1 != 0) rd (csrRmwBase c s &&& ~~~(readX rs1 s)) s) ∧
    (csrAccess a (uimm != 0) s = some c →
      accessesCsr (.csrrsi rd a uimm) c (uimm != 0) rd (csrRmwBase c s ||| uimm.setWidth 64) s ∧
        accessesCsr (.csrrci rd a uimm) c (uimm != 0) rd (csrRmwBase c s &&& ~~~(uimm.setWidth 64)) s) ∧
    (c ∉ [Csr.mip, .sip, .uip] → csrRmwBase c s = csrRead c s)

/-- R321, R328, R46, R47, R59, R161, R139: `csrTable` lists the register each address names, when it exists and the enable
bit that guards it, and no other address names a register. An access is refused exactly when the CSR does not exist, the mode
is too low, a read-only address is written, a counter is not enabled, or `satp` is reached from S-mode under TVM; each CSR
instruction then raises IllegalInstruction with its word as trap value. -/
def Obligations.CsrAccessRefused : Prop :=
  ∀ (s : State) (rd rs1 : Reg) (uimm : BitVec 5) (a : CsrAddr),
    (∀ r ∈ csrTable s.cfg,
      csrOfAddr (BitVec.ofNat 12 r.addr) = some r.reg ∧ csrExists s.cfg r.reg = r.present ∧ counterBit r.reg = r.guard) ∧
    ((∀ r ∈ csrTable s.cfg, r.addr ≠ a.toNat) → csrOfAddr a = none) ∧
    (∀ w, csrAccess a w s = none ↔ csrForbidden a w s) ∧
    (csrForbidden a true s →
      raises (.csrrw rd a rs1) .illegalInstruction ((encode (.csrrw rd a rs1)).setWidth 64) s ∧
        raises (.csrrwi rd a uimm) .illegalInstruction ((encode (.csrrwi rd a uimm)).setWidth 64) s) ∧
    (csrForbidden a (rs1 != 0) s →
      raises (.csrrs rd a rs1) .illegalInstruction ((encode (.csrrs rd a rs1)).setWidth 64) s ∧
        raises (.csrrc rd a rs1) .illegalInstruction ((encode (.csrrc rd a rs1)).setWidth 64) s) ∧
    (csrForbidden a (uimm != 0) s →
      raises (.csrrsi rd a uimm) .illegalInstruction ((encode (.csrrsi rd a uimm)).setWidth 64) s ∧
        raises (.csrrci rd a uimm) .illegalInstruction ((encode (.csrrci rd a uimm)).setWidth 64) s)

/-! ### The registers behind the CSR addresses -/

/-- R107, R84, R85, R91: the bits of `mstatus` as it is read, and the fields after it is written; MPP takes only the encoding
of an implemented mode. -/
def Obligations.MstatusAccess : Prop :=
  ∀ (s : State) (v : Word),
    (∀ k, (csrRead .mstatus s).getLsbD k =
      match k with
      | 0 => s.mstatus.uie
      | 1 => s.mstatus.sie
      | 3 => s.mstatus.mie
      | 4 => s.mstatus.upie
      | 5 => s.mstatus.spie
      | 7 => s.mstatus.mpie
      | 8 => s.mstatus.spp
      | 11 => decide (s.mstatus.mpp.level % 2 = 1)
      | 12 => decide (s.mstatus.mpp.level / 2 = 1)
      | 17 => s.mstatus.mprv
      | 18 => s.mstatus.sum
      | 19 => s.mstatus.mxr
      | 20 => s.mstatus.tvm
      | 21 => s.mstatus.tw
      | 22 => s.mstatus.tsr
      | 33 => s.cfg.xlen == .rv64 && s.cfg.hasU
      | 35 => s.cfg.xlen == .rv64 && s.cfg.hasS
      | _ => false) ∧
    ∃ m : Mstatus, csrWrite .mstatus v s = { s with mstatus := m } ∧
      m.mie = v.getLsbD 3 ∧ m.mpie = v.getLsbD 7 ∧
      (∀ q : Priv, q.level = v.toNat / 2 ^ 11 % 4 → s.cfg.hasMode q = true → m.mpp = q) ∧
      ((∀ q : Priv, q.level = v.toNat / 2 ^ 11 % 4 → s.cfg.hasMode q = false) → m.mpp = s.mstatus.mpp) ∧
      (m.sie, m.spie, m.spp, m.sum, m.mxr, m.tvm, m.tsr) =
        (if s.cfg.hasS then
          (v.getLsbD 1, v.getLsbD 5, v.getLsbD 8, v.getLsbD 18, v.getLsbD 19, v.getLsbD 20, v.getLsbD 22)
        else
          (s.mstatus.sie, s.mstatus.spie, s.mstatus.spp, s.mstatus.sum, s.mstatus.mxr, s.mstatus.tvm, s.mstatus.tsr)) ∧
      (m.uie, m.upie) =
        (if s.cfg.hasN then (v.getLsbD 0, v.getLsbD 4) else (s.mstatus.uie, s.mstatus.upie)) ∧
      (m.mprv, m.tw) =
        (if s.cfg.hasU then (v.getLsbD 17, v.getLsbD 21) else (s.mstatus.mprv, s.mstatus.tw))

/-- R106, R330: `sstatus` and `ustatus` show the bits of `mstatus` under their masks, exist with S-mode and with EXT_N, and a
write through them changes exactly the writable bits under the mask. -/
def Obligations.StatusViews : Prop :=
  ∀ (s : State) (v : Word) (k : Nat),
    csrExists s.cfg .sstatus = s.cfg.hasS ∧ csrExists s.cfg .ustatus = s.cfg.hasN ∧
    (csrRead .sstatus s).getLsbD k =
      ((csrRead .mstatus s).getLsbD k &&
        (if s.cfg.xlen = .rv32 then (0x800DE133 : Word) else 0x80000003000DE133).getLsbD k) ∧
    (csrRead .ustatus s).getLsbD k = ((csrRead .mstatus s).getLsbD k && (0x11 : Word).getLsbD k) ∧
    (s.cfg.hasS = true →
      csrWrite .sstatus v s = { s with mstatus := (csrWrite .sstatus v s).mstatus } ∧
      (csrRead .mstatus (csrWrite .sstatus v s)).getLsbD k =
        if (0xC0122 : Word).getLsbD k || (s.cfg.hasN && (0x11 : Word).getLsbD k) then v.getLsbD k
        else (csrRead .mstatus s).getLsbD k) ∧
    (s.cfg.hasN = true →
      csrWrite .ustatus v s = { s with mstatus := (csrWrite .ustatus v s).mstatus } ∧
      (csrRead .mstatus (csrWrite .ustatus v s)).getLsbD k =
        if (0x11 : Word).getLsbD k then v.getLsbD k else (csrRead .mstatus s).getLsbD k)

/-- R331: what `mip`, `sip` and `uip` show, what a set or clear computes from, which stored bits a write changes, and that no
CSR write changes what MEIP, MTIP and MSIP follow. -/
def Obligations.PendingRegisters : Prop :=
  ∀ (s : State) (v : Word) (k : Nat) (pend soft : Nat → Bool) (wm du : Nat → Bool),
    (pend = fun i => match i with
      | 0 => s.mip.usip
      | 1 => s.mip.ssip
      | 3 => s.msip
      | 4 => s.mip.utip
      | 5 => s.mip.stip
      | 7 => decide (s.mtimecmp.toNat ≤ s.mtime.toNat)
      | 8 => s.mip.ueipSw || s.lines.ueip
      | 9 => s.mip.seipSw || s.lines.seip
      | 11 => s.lines.meip
      | _ => false) →
    (soft = fun i => if i = 8 then s.mip.ueipSw else if i = 9 then s.mip.seipSw else pend i) →
    (wm = fun i => (s.cfg.hasS && (0x222 : Word).getLsbD i) || (s.cfg.hasN && (0x111 : Word).getLsbD i)) →
    (du = fun i => s.mideleg.getLsbD i && (!s.cfg.hasS || s.sideleg.getLsbD i) && (0x111 : Word).getLsbD i) →
    (csrRead .mip s).getLsbD k = (pend k && ((0x888 : Word).getLsbD k || wm k)) ∧
    (csrRead .sip s).getLsbD k = (pend k && s.mideleg.getLsbD k && (0x333 : Word).getLsbD k) ∧
    (csrRead .uip s).getLsbD k = (pend k && du k) ∧
    (csrRmwBase .mip s).getLsbD k = soft k ∧
    (csrRmwBase .sip s).getLsbD k = (soft k && s.mideleg.getLsbD k && (0x333 : Word).getLsbD k) ∧
    (csrRmwBase .uip s).getLsbD k = (soft k && du k) ∧
    csrWrite .mip v s =
      { s with mip :=
        { usip := if wm 0 then v.getLsbD 0 else s.mip.usip
          ssip := if wm 1 then v.getLsbD 1 else s.mip.ssip
          utip := if wm 4 then v.getLsbD 4 else s.mip.utip
          stip := if wm 5 then v.getLsbD 5 else s.mip.stip
          ueipSw := if wm 8 then v.getLsbD 8 else s.mip.ueipSw
          seipSw := if wm 9 then v.getLsbD 9 else s.mip.seipSw } } ∧
    csrWrite .sip v s =
      { s with mip :=
        { s.mip with
          usip := if s.mideleg.getLsbD 0 && wm 0 then v.getLsbD 0 else s.mip.usip
          ssip := if s.mideleg.getLsbD 1 && wm 1 then v.getLsbD 1 else s.mip.ssip
          ueipSw := if s.mideleg.getLsbD 8 && wm 8 then v.getLsbD 8 else s.mip.ueipSw } } ∧
    csrWrite .uip v s = { s with mip := { s.mip with usip := if du 0 then v.getLsbD 0 else s.mip.usip } } ∧
    ∀ c, (csrWrite c v s).lines = s.lines ∧ (csrWrite c v s).msip = s.msip ∧ (csrWrite c v s).mtime = s.mtime ∧
      (csrWrite c v s).mtimecmp = s.mtimecmp

/-- R119, R122, R132, R330: `mie` keeps the enable bits of the levels that exist; `sie` and `uie` show and write the delegated
ones. -/
def Obligations.EnableRegisters : Prop :=
  ∀ (s : State) (v : Word) (k : Nat) (du : Nat → Bool), k < 32 →
    (du = fun i => s.mideleg.getLsbD i && (!s.cfg.hasS || s.sideleg.getLsbD i) && (0x111 : Word).getLsbD i) →
    (csrRead .mie (csrWrite .mie v s)).getLsbD k =
      (v.getLsbD k && ((0x888 : Word).getLsbD k || (s.cfg.hasS && (0x222 : Word).getLsbD k) ||
        (s.cfg.hasN && (0x111 : Word).getLsbD k))) ∧
    (csrRead .sie s).getLsbD k = ((csrRead .mie s).getLsbD k && s.mideleg.getLsbD k && (0x333 : Word).getLsbD k) ∧
    (csrRead .uie s).getLsbD k = ((csrRead .mie s).getLsbD k && du k) ∧
    (csrRead .mie (csrWrite .sie v s)).getLsbD k =
      (if s.mideleg.getLsbD k && (0x333 : Word).getLsbD k then v.getLsbD k else (csrRead .mie s).getLsbD k) ∧
    (csrRead .mie (csrWrite .uie v s)).getLsbD k =
      (if du k then v.getLsbD k else (csrRead .mie s).getLsbD k) ∧
    csrWrite .mie v s = { s with mie := (csrWrite .mie v s).mie } ∧
    csrWrite .sie v s = { s with mie := (csrWrite .sie v s).mie } ∧
    csrWrite .uie v s = { s with mie := (csrWrite .uie v s).mie }

/-- R108 to R111, R142 to R145, R156, R157: what each trap register reads after a write of `v`: a vector keeps its MODE when
`v` names a reserved one, `xepc` has its low two bits clear, the others hold all XLEN bits; only that register changes. -/
def Obligations.TrapRegisters : Prop :=
  ∀ (s : State) (v : Word) (x : Priv) (tvec scratch epc cause tval : Csr) (w : Nat), w = wrapX s.cfg.xlen v.toNat →
    ((x = .M ∧ [tvec, scratch, epc, cause, tval] = [.mtvec, .mscratch, .mepc, .mcause, .mtval]) ∨
      (x = .S ∧ [tvec, scratch, epc, cause, tval] = [.stvec, .sscratch, .sepc, .scause, .stval]) ∨
      (x = .U ∧ [tvec, scratch, epc, cause, tval] = [.utvec, .uscratch, .uepc, .ucause, .utval])) →
    (csrRead tvec (csrWrite tvec v s)).toNat =
        w / 4 * 4 + (if w % 4 < 2 then w % 4 else (csrRead tvec s).toNat % 4) ∧
      csrWrite tvec v s =
        setTrapRegs x { trapRegs x s with tvec := (trapRegs x (csrWrite tvec v s)).tvec } s ∧
      (csrRead scratch (csrWrite scratch v s)).toNat = w ∧
      csrWrite scratch v s =
        setTrapRegs x { trapRegs x s with scratch := (trapRegs x (csrWrite scratch v s)).scratch } s ∧
      (csrRead epc (csrWrite epc v s)).toNat = w / 4 * 4 ∧
      csrWrite epc v s = setTrapRegs x { trapRegs x s with epc := (trapRegs x (csrWrite epc v s)).epc } s ∧
      (csrRead cause (csrWrite cause v s)).toNat = w ∧
      csrWrite cause v s = setTrapRegs x { trapRegs x s with cause := (trapRegs x (csrWrite cause v s)).cause } s ∧
      (csrRead tval (csrWrite tval v s)).toNat = w ∧
      csrWrite tval v s = setTrapRegs x { trapRegs x s with tval := (trapRegs x (csrWrite tval v s)).tval } s

/-- R114, R115, R117, R139 to R141: the delegation and counter-control registers keep their writable bits of what is written
and read them back; only that register changes. -/
def Obligations.MaskedRegisters : Prop :=
  ∀ (s : State) (v : Word),
    csrRead .medeleg (csrWrite .medeleg v s) = v &&& 0xB3FF ∧
      csrWrite .medeleg v s = { s with medeleg := v &&& 0xB3FF } ∧
      csrRead .mideleg (csrWrite .mideleg v s) =
        v &&& ((if s.cfg.hasS then 0x222 else 0) ||| (if s.cfg.hasN then 0x111 else 0)) ∧
      csrWrite .mideleg v s = { s with mideleg := (csrWrite .mideleg v s).mideleg } ∧
      csrRead .sedeleg (csrWrite .sedeleg v s) = v &&& 0xB1FF ∧
      csrWrite .sedeleg v s = { s with sedeleg := v &&& 0xB1FF } ∧
      csrRead .sideleg (csrWrite .sideleg v s) = v &&& 0x111 ∧
      csrWrite .sideleg v s = { s with sideleg := v &&& 0x111 } ∧
      csrRead .mcounteren (csrWrite .mcounteren v s) = v &&& 0x7 ∧
      csrWrite .mcounteren v s = { s with mcounteren := (csrWrite .mcounteren v s).mcounteren } ∧
      csrRead .scounteren (csrWrite .scounteren v s) = v &&& 0x7 ∧
      csrWrite .scounteren v s = { s with scounteren := (csrWrite .scounteren v s).scounteren } ∧
      csrRead .mcountinhibit (csrWrite .mcountinhibit v s) = v &&& 0x5 ∧
      csrWrite .mcountinhibit v s = { s with mcountinhibit := (csrWrite .mcountinhibit v s).mcountinhibit }

/-- R134, R136, R138, R330: the counters read their low XLEN bits and, on MXLEN = 32, their upper halves; a write replaces the
part it names; the user-level shadows read the same values. The mark that `mcycle` was written is the model's (log 8). -/
def Obligations.Counters : Prop :=
  ∀ (s : State) (v : Word) (b : Nat), b = s.cfg.xlen.bits →
    (csrRead .mcycle s).toNat = s.mcycle.toNat % 2 ^ b ∧ (csrRead .mcycleh s).toNat = s.mcycle.toNat / 2 ^ 32 ∧
    (csrRead .minstret s).toNat = s.minstret.toNat % 2 ^ b ∧ (csrRead .minstreth s).toNat = s.minstret.toNat / 2 ^ 32 ∧
    (csrRead .time s).toNat = s.mtime.toNat % 2 ^ b ∧ (csrRead .timeh s).toNat = s.mtime.toNat / 2 ^ 32 ∧
    csrRead .cycle s = csrRead .mcycle s ∧ csrRead .cycleh s = csrRead .mcycleh s ∧
    csrRead .instret s = csrRead .minstret s ∧ csrRead .instreth s = csrRead .minstreth s ∧
    csrWrite .mcycle v s =
      { s with mcycle := BitVec.ofNat 64 (patched s.mcycle.toNat 0 (b / 8) v.toNat), mcycleWritten := true } ∧
    csrWrite .mcycleh v s =
      { s with mcycle := BitVec.ofNat 64 (patched s.mcycle.toNat 4 4 v.toNat), mcycleWritten := true } ∧
    csrWrite .minstret v s =
      { s with minstret := BitVec.ofNat 64 (patched s.minstret.toNat 0 (b / 8) v.toNat) } ∧
    csrWrite .minstreth v s = { s with minstret := BitVec.ofNat 64 (patched s.minstret.toNat 4 4 v.toNat) }

/-- R75, R76 to R82, R137, R156: the registers that hold a constant: `misa` shows MXL, I, and U, S, N as configured, the
identification registers their parameters, `satp` and the hardware performance counters 0; a write changes nothing. -/
def Obligations.ConstantRegisters : Prop :=
  ∀ (s : State) (v : Word) (n k : Nat), k < s.cfg.xlen.bits →
    (csrRead .misa s).getLsbD k =
      (k == 8 || (s.cfg.hasU && k == 20) || (s.cfg.hasS && k == 18) || (s.cfg.hasN && k == 13) ||
        (s.cfg.xlen == .rv32 && k == 30) || (s.cfg.xlen == .rv64 && k == 63)) ∧
    (csrRead .mvendorid s).toNat = s.cfg.mvendorid.toNat ∧
    (csrRead .marchid s).toNat = wrapX s.cfg.xlen s.cfg.marchid.toNat ∧
    (csrRead .mimpid s).toNat = wrapX s.cfg.xlen s.cfg.mimpid.toNat ∧
    (csrRead .mhartid s).toNat = wrapX s.cfg.xlen s.cfg.mhartid.toNat ∧
    ∀ c ∈ [Csr.satp, .mhpmcounter n, .mhpmcounterh n, .mhpmevent n, .hpmcounter n, .hpmcounterh n, .misa],
      (c ≠ .misa → csrRead c s = 0) ∧ csrWrite c v s = s

/-- R332, R147 to R149, R153: what `pmpcfgN` shows and the configuration bytes after it is written: an entry that is not
covered, not implemented or locked keeps its byte; bits 6:5 are dropped, W is cleared without R, and NA4 under a coarser
granularity keeps the old A. -/
def Obligations.PmpcfgAccess : Prop :=
  ∀ (s : State) (n : Fin 4) (v : Word) (i : Fin 16) (j per : Nat) (b old : Byte),
    csrExists s.cfg (.pmpcfg n) = true → per = s.cfg.xlen.bits / 8 → i.val = 4 * n.val + j →
    b = BitVec.ofNat 8 (v.toNat / 256 ^ j) → old = s.pmpcfg[i] →
    (j < per → (csrRead (.pmpcfg n) s).toNat / 256 ^ j % 256 = old.toNat) ∧
    csrWrite (.pmpcfg n) v s = { s with pmpcfg := (csrWrite (.pmpcfg n) v s).pmpcfg } ∧
    (∀ m : Fin 16, m.val < 4 * n.val ∨ 4 * n.val + per ≤ m.val → (csrWrite (.pmpcfg n) v s).pmpcfg[m] = s.pmpcfg[m]) ∧
    (j < per →
      (s.cfg.pmpEntries ≤ i.val ∨ old.getLsbD 7 = true → (csrWrite (.pmpcfg n) v s).pmpcfg[i] = old) ∧
      (i.val < s.cfg.pmpEntries → old.getLsbD 7 = false →
        ∀ k, ((csrWrite (.pmpcfg n) v s).pmpcfg[i]).getLsbD k =
          match k with
          | 0 => b.getLsbD 0
          | 1 => b.getLsbD 1 && b.getLsbD 0
          | 2 => b.getLsbD 2
          | 3 => if 1 ≤ s.cfg.pmpG ∧ b.toNat / 8 % 4 = 2 then old.getLsbD 3 else b.getLsbD 3
          | 4 => if 1 ≤ s.cfg.pmpG ∧ b.toNat / 8 % 4 = 2 then old.getLsbD 4 else b.getLsbD 4
          | 7 => b.getLsbD 7
          | _ => false))

/-- R333, R152 to R154: what `pmpaddrN` shows under each granularity and mode, and when a write of it is ignored. -/
def Obligations.PmpaddrAccess : Prop :=
  ∀ (s : State) (n : Fin 16) (v : Word) (k : Nat), k < s.cfg.xlen.bits →
    (csrRead (.pmpaddr n) s).getLsbD k =
      (if s.pmpcfg[n].getLsbD 4 then s.pmpaddr[n].getLsbD k || decide (2 ≤ s.cfg.pmpG ∧ k + 2 ≤ s.cfg.pmpG)
        else s.pmpaddr[n].getLsbD k && decide (s.cfg.pmpG ≤ k)) ∧
    ((s.cfg.pmpEntries ≤ n.val ∨ s.pmpcfg[n].getLsbD 7 = true ∨
        (∃ m : Fin 16, m.val = n.val + 1 ∧ s.pmpcfg[m].getLsbD 7 = true ∧ s.pmpcfg[m].toNat / 8 % 4 = 1)) →
      csrWrite (.pmpaddr n) v s = s) ∧
    (n.val < s.cfg.pmpEntries → s.pmpcfg[n].getLsbD 7 = false →
      (∀ m : Fin 16, m.val = n.val + 1 → s.pmpcfg[m].getLsbD 7 = false ∨ s.pmpcfg[m].toNat / 8 % 4 ≠ 1) →
      ∃ a : Word, csrWrite (.pmpaddr n) v s = { s with pmpaddr := s.pmpaddr.set n.val a n.isLt } ∧
        a.getLsbD k = (v.getLsbD k && decide (k + 2 < s.cfg.palen)))

/-! ### Physical memory protection -/

/-- R230: the PMP decision: the lowest-numbered implemented entry that matches any byte of the access decides; it must match
every byte, and then grants by L and the mode or by the permission bit; with no such entry M-mode succeeds, and so does every
mode when no entry is implemented. -/
def Obligations.PmpDecision : Prop :=
  ∀ (s : State) (addr n : Nat) (t : AccessType) (p : Priv), 0 < n → s.cfg.pmpEntries ≤ 16 →
    (pmpCheck addr n t p s = true ↔
      ((∀ i : Fin 16, i.val < s.cfg.pmpEntries → ∀ y, addr ≤ y → y < addr + n → pmpMatches i s y = false) ∧
        (p = .M ∨ s.cfg.pmpEntries = 0)) ∨
      ∃ i : Fin 16, i.val < s.cfg.pmpEntries ∧
        (∀ j : Fin 16, j < i → ∀ y, addr ≤ y → y < addr + n → pmpMatches j s y = false) ∧
        (∀ y, addr ≤ y → y < addr + n → pmpMatches i s y = true) ∧
        ((p = .M ∧ s.pmpcfg[i].getLsbD 7 = false) ∨
          s.pmpcfg[i].getLsbD (match t with | .R => 0 | .W => 1 | .X => 2) = true))

/-- R221 to R225, R154: what a PMP entry matches: nothing when OFF; the bytes from the preceding register's address up to its
own in TOR mode, with the low G bits of both registers dropped (log 21 for the preceding one); its four bytes in NA4; and in
NAPOT mode the aligned power-of-two region its trailing ones encode. -/
def Obligations.PmpMatching : Prop :=
  ∀ (s : State) (i : Fin 16) (y : Nat) (mode a g : Nat),
    mode = s.pmpcfg[i].toNat / 8 % 4 → a = s.pmpaddr[i].toNat → g = s.cfg.pmpG →
    (mode = 0 → pmpMatches i s y = false) ∧
    (mode = 1 →
      (pmpMatches i s y = true ↔
        (∀ j : Fin 16, j.val + 1 = i.val → s.pmpaddr[j].toNat / 2 ^ g * 2 ^ g * 4 ≤ y) ∧ y < a / 2 ^ g * 2 ^ g * 4)) ∧
    (mode = 2 → g = 0 → (pmpMatches i s y = true ↔ a * 4 ≤ y ∧ y < a * 4 + 4)) ∧
    (mode = 3 → a < 2 ^ 54 → g < 54 → y < 2 ^ 56 →
      ∀ t v : Nat, v = (if 2 ≤ g then a / 2 ^ (g - 1) * 2 ^ (g - 1) + (2 ^ (g - 1) - 1) else a) →
        v % 2 ^ (t + 1) = 2 ^ t - 1 →
        (pmpMatches i s y = true ↔
          v / 2 ^ (t + 1) * 2 ^ (t + 3) ≤ y ∧ y < v / 2 ^ (t + 1) * 2 ^ (t + 3) + 2 ^ (t + 3)))

/-! ### Traps -/

/-- R531, R532, R89: trap entry: the target mode's `xepc`, `xcause` and `xtval` are written, the interrupt-enable stack is
pushed, `pc` goes to the vector, and nothing else changes. A raised exception is such an entry with its code (R510) as cause,
its trap value, and the instruction's own address. -/
def Obligations.TrapEntry : Prop :=
  (∀ (s t : State) (isInt : Bool) (c : Nat) (tval epc : Word) (x : Priv) (b : Nat),
    b = s.cfg.xlen.bits → c < 64 → epc.toNat % 4 = 0 → epc.toNat < 2 ^ b → tval.toNat < 2 ^ b →
    x = trapTarget isInt c s → t = takeTrap isInt c tval epc s →
    (trapRegs x t).epc = epc ∧ (trapRegs x t).tval = tval ∧
      (trapRegs x t).cause.toNat = (if isInt then 2 ^ (b - 1) else 0) + c ∧
      (trapRegs x t).tvec = (trapRegs x s).tvec ∧ (trapRegs x t).scratch = (trapRegs x s).scratch ∧
      (∀ z, z ≠ x → trapRegs z t = trapRegs z s) ∧
      t.mstatus =
        (match x with
        | .M => { s.mstatus with mpie := s.mstatus.mie, mie := false, mpp := s.priv }
        | .S => { s.mstatus with spie := s.mstatus.sie, sie := false, spp := s.priv == .S }
        | .U => { s.mstatus with upie := s.mstatus.uie, uie := false }) ∧
      t.priv = x ∧
      t.pc.toNat =
        ((trapRegs x s).tvec.toNat / 4 * 4 +
          (if isInt = true ∧ (trapRegs x s).tvec.toNat % 4 = 1 then 4 * c else 0)) % 2 ^ b ∧
      t.wfiStalled = false ∧
      t = { s with mtrap := t.mtrap, strap := t.strap, utrap := t.utrap, mstatus := t.mstatus, priv := t.priv, pc := t.pc,
                   wfiStalled := t.wfiStalled }) ∧
  ∀ (s : State) (r : Raised),
    takeException r s =
      takeTrap false
        (match r.exc with
          | .instrAddrMisaligned => 0
          | .instrAccessFault => 1
          | .illegalInstruction => 2
          | .breakpoint => 3
          | .loadAddrMisaligned => 4
          | .loadAccessFault => 5
          | .storeAddrMisaligned => 6
          | .storeAccessFault => 7
          | .ecallFromU => 8
          | .ecallFromS => 9
          | .ecallFromM => 11
          | .instrPageFault => 12
          | .loadPageFault => 13
          | .storePageFault => 15)
        r.tval s.pc s

/-- R551, R552, R116, R502: where an interrupt and an exception go, and that no exception goes below the current mode. -/
def Obligations.TrapRouting : Prop :=
  ∀ (s : State) (c : Nat) (d : Priv),
    ((s.cfg.modes = .m ∨ (s.cfg.modes = .mu ∧ s.cfg.extN = false) ∨ s.mideleg.getLsbD c = false) →
      trapTarget true c s = .M) ∧
    (s.cfg.modes = .mu → s.cfg.extN = true → s.mideleg.getLsbD c = true → trapTarget true c s = .U) ∧
    (s.cfg.modes = .msu → s.mideleg.getLsbD c = true →
      trapTarget true c s = if s.cfg.extN = true ∧ s.sideleg.getLsbD c = true then .U else .S) ∧
    (((s.cfg.modes = .m ∨ (s.cfg.modes = .mu ∧ s.cfg.extN = false) ∨ s.medeleg.getLsbD c = false) ∧ d = .M) ∨
        (s.cfg.modes = .mu ∧ s.cfg.extN = true ∧ s.medeleg.getLsbD c = true ∧ d = .U) ∨
        (s.cfg.modes = .msu ∧ s.medeleg.getLsbD c = true ∧
          d = if s.cfg.extN = true ∧ s.sedeleg.getLsbD c = true then .U else .S) →
      trapTarget false c s = if d.level < s.priv.level then s.priv else d) ∧
    s.priv.level ≤ (trapTarget false c s).level

/-- R351, R352: ECALL takes the environment-call exception of the current mode and EBREAK the breakpoint exception, both
with trap value 0 and the instruction's own address; neither retires. -/
def Obligations.EnvironmentCalls : Prop :=
  ∀ s : State,
    exec .ecall s =
        .next (takeTrap false (match s.priv with | .U => 8 | .S => 9 | .M => 11) 0 s.pc s) ∧
      exec .ebreak s = .next (takeTrap false 3 0 s.pc s) ∧
      (∀ t, exec .ecall s = .next t ∨ exec .ebreak s = .next t →
        t.minstret = s.minstret ∧ keptRegs s t ∧ keptMem s t)

/-- R353 to R355, R90: a legal xRET pops the stack of its level, enters the mode the stack held, goes to `xepc` and retires;
nothing else changes, MPRV included. -/
def Obligations.TrapReturns : Prop :=
  ∀ s : State,
    (s.priv = .M →
      ∃ t, exec .mret s = .next t ∧ t.pc = s.mtrap.epc ∧ t.priv = s.mstatus.mpp ∧
        t.mstatus = { s.mstatus with mie := s.mstatus.mpie, mpie := true, mpp := if s.cfg.modes = .m then .M else .U } ∧
        retired s t ∧ t = { s with mstatus := t.mstatus, priv := t.priv, pc := t.pc, minstret := t.minstret }) ∧
    (s.cfg.modes = .msu → (s.priv = .M ∨ (s.priv = .S ∧ s.mstatus.tsr = false)) →
      ∃ t, exec .sret s = .next t ∧ t.pc = s.strap.epc ∧ t.priv = (if s.mstatus.spp then .S else .U) ∧
        t.mstatus = { s.mstatus with sie := s.mstatus.spie, spie := true, spp := false } ∧
        retired s t ∧ t = { s with mstatus := t.mstatus, priv := t.priv, pc := t.pc, minstret := t.minstret }) ∧
    (s.cfg.extN = true → s.cfg.modes ≠ .m →
      ∃ t, exec .uret s = .next t ∧ t.pc = s.utrap.epc ∧ t.priv = .U ∧
        t.mstatus = { s.mstatus with uie := s.mstatus.upie, upie := true } ∧
        retired s t ∧ t = { s with mstatus := t.mstatus, priv := t.priv, pc := t.pc, minstret := t.minstret })

/-- R356, R357: where they are legal, WFI moves on and stalls the hart, and SFENCE.VMA only moves on. -/
def Obligations.WfiAndSfence : Prop :=
  ∀ (s : State) (rs1 rs2 : Reg),
    ((s.priv = .M ∨ (s.priv = .S ∧ s.mstatus.tw = false) ∨
        (s.priv = .U ∧ s.cfg.modes ≠ .msu ∧ s.mstatus.tw = false)) →
      ∃ t, exec .wfi s = .next t ∧ t.wfiStalled = true ∧ keptRegs s t ∧ movedOn s t ∧ retired s t ∧ keptMem s t ∧
        t = { s with wfiStalled := t.wfiStalled, pc := t.pc, minstret := t.minstret }) ∧
    (s.cfg.modes = .msu → (s.priv = .M ∨ (s.priv = .S ∧ s.mstatus.tvm = false)) → onlyMoves (.sfenceVma rs1 rs2) s)

/-- R350, R353 to R357: a privileged instruction in a mode, configuration or trap setting that does not allow it raises
IllegalInstruction with its word as trap value. -/
def Obligations.PrivilegedInstrTrap : Prop :=
  ∀ (s : State) (rs1 rs2 : Reg),
    (s.priv ≠ .M → raises .mret .illegalInstruction 0x30200073 s) ∧
    ((s.cfg.modes ≠ .msu ∨ s.priv = .U ∨ (s.priv = .S ∧ s.mstatus.tsr = true)) →
      raises .sret .illegalInstruction 0x10200073 s) ∧
    ((s.cfg.extN = false ∨ s.cfg.modes = .m) → raises .uret .illegalInstruction 0x00200073 s) ∧
    (((s.priv = .S ∧ s.mstatus.tw = true) ∨ (s.priv = .U ∧ (s.cfg.modes = .msu ∨ s.mstatus.tw = true))) →
      raises .wfi .illegalInstruction 0x10500073 s) ∧
    ((s.cfg.modes ≠ .msu ∨ s.priv = .U ∨ (s.priv = .S ∧ s.mstatus.tvm = true)) →
      raises (.sfenceVma rs1 rs2) .illegalInstruction
        (BitVec.ofNat 64 (0x12000073 + rs2.toNat * 2 ^ 20 + rs1.toNat * 2 ^ 15)) s)

/-- R521, R522, R551: the interrupt taken is one that is pending, enabled in `mie` and globally enabled for the mode it is
destined for, and no other such interrupt has a higher destination, or the same destination and an earlier place in the order
MEI, MSI, MTI, SEI, SSI, STI, UEI, USI, UTI. -/
def Obligations.InterruptSelection : Prop :=
  ∀ (s : State) (can : Nat → Prop) (order : List Nat) (i : Nat),
    order = [11, 3, 7, 9, 1, 5, 8, 0, 4] →
    (can = fun j => j ∈ order ∧ (csrRead .mip s).getLsbD j = true ∧ s.mie.getLsbD j = true ∧
      (s.priv.level < (trapTarget true j s).level ∨
        (s.priv = trapTarget true j s ∧
          (match s.priv with | .M => s.mstatus.mie | .S => s.mstatus.sie | .U => s.mstatus.uie) = true))) →
    within (mieMask s.cfg) s.mie →
    (nextInterrupt s = some i ↔
      can i ∧ ∀ j, can j →
        (trapTarget true j s).level < (trapTarget true i s).level ∨
          (trapTarget true j s = trapTarget true i s ∧ order.idxOf i ≤ order.idxOf j)) ∧
    (nextInterrupt s = none ↔ ∀ j, ¬ can j)

/-! ### Reset -/

/-- R165, R601, R602: reset from any state, whatever the unspecified elements are: M-mode at `RESET_VECTOR`, MIE and MPRV
clear, `mcause` 0, every PMP entry OFF and unlocked, no stall; memory reads as the unspecified memory; where the unspecified
elements are legal for their fields (D24), every other element is the unspecified one. `State.reset` is such a reset with the
values the model names (log 1 to 7). -/
def Obligations.ResetProcedure : Prop :=
  (∀ u s t : State, t = hartReset u s →
    t.priv = .M ∧ t.pc = s.cfg.resetVector ∧ t.mstatus.mie = false ∧ t.mstatus.mprv = false ∧ t.mtrap.cause = 0 ∧
      (∀ i : Fin 16, t.pmpcfg[i].toNat / 8 % 4 = 0 ∧ t.pmpcfg[i].getLsbD 7 = false) ∧
      t.wfiStalled = false ∧ t.cfg = s.cfg ∧ keptMem u t ∧
      (legalState u → u.cfg = s.cfg →
        t.mstatus = { u.mstatus with mie := false, mprv := false } ∧ t.mtrap = { u.mtrap with cause := 0 } ∧
          (∀ (i : Fin 16) (k : Nat), t.pmpcfg[i].getLsbD k =
            if k = 3 ∨ k = 4 ∨ k = 7 then false else u.pmpcfg[i].getLsbD k) ∧
          t = { u with priv := t.priv, pc := t.pc, mstatus := t.mstatus, mtrap := t.mtrap, pmpcfg := t.pmpcfg,
                       wfiStalled := t.wfiStalled, inputs := s.inputs, boundary := s.boundary,
                       mcycleWritten := false })) ∧
    hartReset State.reset State.reset = State.reset

/-- R603: after reset PMP allows every M-mode access and, with an entry implemented, denies every S-mode and U-mode access; a
system that enters a lower mode without programming PMP gets an InstrAccessFault on the first fetch there. -/
def Obligations.ResetProtection : Prop :=
  ∀ (u s t : State) (addr n : Nat) (a : AccessType), t = hartReset u s → 0 < n →
    pmpCheck addr n a .M t = true ∧
      (0 < s.cfg.pmpEntries → pmpCheck addr n a .S t = false ∧ pmpCheck addr n a .U t = false ∧
        ∀ q, q.priv ≠ .M → q = { t with priv := q.priv, pc := q.pc } →
          fetch q = .error { exc := .instrAccessFault, tval := q.pc })

/-! ### Invariants -/

/-- The model's canonical form of memory (log 5): every step keeps it. -/
def Obligations.MemoryFormKept : Prop :=
  ∀ s t : State, Memory.wf s.mem = true → step s = .next t → Memory.wf t.mem = true

/-- R40, R110, R143: `pc` and every `xepc` stay multiples of 4 and no `xtvec` takes a reserved MODE, across every step. -/
def Obligations.AddressesKept : Prop :=
  ∀ s t : State, alignedPcs s → legalTvecs s → step s = .next t → alignedPcs t ∧ legalTvecs t

/-- R34, R91, R92, R98 to R102, R132: the current and previous modes stay implemented ones and the fields that an absent mode
or extension would bring stay zero, across every step. -/
def Obligations.ModesKept : Prop :=
  ∀ s t : State, legalModes s → absentZero s → step s = .next t → legalModes t ∧ absentZero t

/-- R114 to R117, R132, R139 to R141: the delegation, enable and counter-control registers stay within their writable bits,
across every step. -/
def Obligations.MasksKept : Prop :=
  ∀ s t : State, maskedCsrs s → step s = .next t → maskedCsrs t

/-- R146, R149, R152, R154: the PMP registers stay legal across every step. -/
def Obligations.PmpLegalKept : Prop :=
  ∀ s t : State, legalPmp s → step s = .next t → legalPmp t

/-- R39, R142 to R145: `pc` and the trap registers stay XLEN bits wide across every step. -/
def Obligations.WidthsKept : Prop :=
  ∀ s t : State, fitsXlen s → step s = .next t → fitsXlen t

/-- R165, D24: every element is legal for its field after every reset, whatever the unspecified elements and whatever the
configuration, of a `RESET_VECTOR` that is an instruction address; every invariant holds of `State.reset`, with the values of
log 1 to 7. -/
def Obligations.InvariantsAtReset : Prop :=
  (∀ u s : State, legalResetVector s.cfg → legalState (hartReset u s)) ∧
    Memory.wf State.reset.mem = true ∧ alignedPcs State.reset ∧ legalTvecs State.reset ∧ legalModes State.reset ∧
    absentZero State.reset ∧ maskedCsrs State.reset ∧ legalPmp State.reset ∧ fitsXlen State.reset ∧
    mapDisjoint State.reset.cfg

/-- R153, R227: while a PMP entry is locked no step changes its configuration, its address register or, in TOR mode, the
preceding address register; it stays locked. -/
def Obligations.LockedPmpKept : Prop :=
  ∀ (s t : State) (i : Fin 16), pmpLocked s.pmpcfg[i] = true → step s = .next t →
    pmpEntryKept i s t ∧ pmpLocked t.pmpcfg[i] = true

/-- R230, R240, R209: a step changes a byte of memory only by executing a store, and only inside the access of that store: at
its effective address, as wide as its size, aligned, granted by PMP for writing at the effective privilege, and in a region
of RAM. -/
def Obligations.MemoryIsolation : Prop :=
  ∀ (s t : State) (a : Nat), step s = .next t → memRead t.mem a ≠ memRead s.mem a →
    ∃ (w : InstWord) (i : Instr) (rs2 rs1 : Reg) (imm : BitVec 12) (ea n : Nat),
      fetch (awaken s) = .ok w ∧ decodeWord s.cfg.xlen w = .ok i ∧
      (i, n) ∈ [(Instr.sb rs2 rs1 imm, 1), (.sh rs2 rs1 imm, 2), (.sw rs2 rs1 imm, 4), (.sd rs2 rs1 imm, 8)] ∧
      ea = (effAddr rs1 imm s).toNat ∧ ea % n = 0 ∧ ea ≤ a ∧ a < ea + n ∧
      pmpCheck ea n .W (if s.mstatus.mprv then s.mstatus.mpp else s.priv) s = true ∧
      ∃ r ∈ s.cfg.memMap, r.kind = .ram ∧ r.base ≤ ea ∧ ea + n ≤ r.base + r.size

/-- R32, R33, R44, R47, R122, R331: an instruction that U-mode executes without leaving U-mode changes no machine-level or
supervisor-level trap, delegation, counter-control or PMP register, no field of `mstatus` but UIE and UPIE, no bit of `mie`
but those delegated to U-mode, nothing of `mip` but a delegated USIP, and `minstret` only by its own retirement. -/
def Obligations.UserIsolation : Prop :=
  ∀ (i : Instr) (s t : State), s.priv = .U → exec i s = .next t → t.priv = .U → keptPrivileged s t

/-- R34, R502, R565: a step raises the privilege mode only by a trap entry and lowers it only by MRET, SRET or URET. -/
def Obligations.PrivilegeChanges : Prop :=
  ∀ s t : State, step s = .next t →
    (s.priv.level < t.priv.level → ∃ b c v e, t = passTime (takeTrap b c v e (awaken s))) ∧
      (t.priv.level < s.priv.level →
        ∃ w i, fetch (awaken s) = .ok w ∧ decodeWord s.cfg.xlen w = .ok i ∧ i ∈ [Instr.mret, .sret, .uret])

end
end

