-- ==== Sys2Proof/Laws/Memory.lean ====
section
/-! SUPPORT. Memory: reading after writing, the canonical form, and little-endian data as numbers. -/

namespace Sys2Proof.Machine

/-- Every address of the memory is above `a`. -/
def memAbove (a : Nat) (m : Memory) : Prop := ∀ c ∈ m, a < c.1

theorem memory_wf_cons (c : Host.Cell) (m : Memory) :
    Memory.wf (c :: m) = true ↔ c.2 ≠ memDefault ∧ memAbove c.1 m ∧ Memory.wf m = true := by
  simp [Memory.wf, memAbove, and_assoc]

theorem memRead_of_above {a : Nat} {m : Memory} (h : memAbove a m) : memRead m a = memDefault := by
  induction m with
  | nil => rfl
  | cons c m ih =>
    have hc : a < c.1 := h c (List.mem_cons_self ..)
    rw [memRead, if_neg (by omega)]
    exact ih (fun d hd => h d (List.mem_cons_of_mem _ hd))

theorem memRead_memCons_ne {a x : Nat} (h : x ≠ a) (b : Byte) (m : Memory) :
    memRead (memCons a b m) x = memRead m x := by
  unfold memCons
  split
  · rfl
  · rw [memRead, if_neg (fun e => h e.symm)]

theorem memRead_memCons_self {a : Nat} {m : Memory} (h : memAbove a m) (b : Byte) : memRead (memCons a b m) a = b := by
  unfold memCons
  split
  · rename_i hb
    rw [memRead_of_above h, hb]
  · rw [memRead, if_pos rfl]

theorem memCons_wf {a : Nat} {m : Memory} (h : memAbove a m) (hm : Memory.wf m = true) (b : Byte) :
    Memory.wf (memCons a b m) = true := by
  unfold memCons
  split
  · exact hm
  · rename_i hb
    exact (memory_wf_cons (a, b) m).mpr ⟨hb, h, hm⟩

theorem memAbove_memCons {x a : Nat} {m : Memory} (hx : x < a) (h : memAbove x m) (b : Byte) :
    memAbove x (memCons a b m) := by
  unfold memCons
  split
  · exact h
  · intro c hc
    rcases List.mem_cons.mp hc with rfl | hc
    · exact hx
    · exact h c hc

theorem memAbove_memWrite {x a : Nat} {m : Memory} (hx : x < a) (h : memAbove x m) (b : Byte) :
    memAbove x (memWrite m a b) := by
  induction m with
  | nil => exact memAbove_memCons hx h b
  | cons c m ih =>
    have hm : memAbove x m := fun d hd => h d (List.mem_cons_of_mem _ hd)
    unfold memWrite
    split
    · exact memAbove_memCons hx h b
    · split
      · exact memAbove_memCons hx hm b
      · intro d hd
        rcases List.mem_cons.mp hd with rfl | hd
        · exact h d (List.mem_cons_self ..)
        · exact ih hm d hd

theorem memAbove_of_lt {a b : Nat} {m : Memory} (h : memAbove b m) (hab : a ≤ b) : memAbove a m :=
  fun c hc => lt_of_le_of_lt hab (h c hc)

/-- A byte that is not written reads as before. -/
theorem memRead_memWrite_ne {a x : Nat} (h : x ≠ a) (b : Byte) (m : Memory) :
    memRead (memWrite m a b) x = memRead m x := by
  induction m with
  | nil => exact memRead_memCons_ne h b []
  | cons c m ih =>
    unfold memWrite
    split
    · exact memRead_memCons_ne h b _
    · split
      · rename_i hc
        rw [memRead_memCons_ne h, memRead, if_neg (by omega)]
      · rw [memRead, memRead, ih]

/-- A byte that is written reads as written. -/
theorem memRead_memWrite_self {m : Memory} (hm : Memory.wf m = true) (a : Nat) (b : Byte) :
    memRead (memWrite m a b) a = b := by
  induction m with
  | nil => exact memRead_memCons_self (fun _ h => by cases h) b
  | cons c m ih =>
    obtain ⟨hc, ha, hm'⟩ := (memory_wf_cons c m).mp hm
    unfold memWrite
    split
    · rename_i h
      refine memRead_memCons_self ?_ b
      intro d hd
      rcases List.mem_cons.mp hd with rfl | hd
      · exact h
      · exact lt_trans h (ha d hd)
    · split
      · rename_i h
        exact memRead_memCons_self (h ▸ ha) b
      · rename_i h
        rw [memRead, if_neg (fun e => h e.symm)]
        exact ih hm'

theorem memRead_memWrite {m : Memory} (hm : Memory.wf m = true) (a x : Nat) (b : Byte) :
    memRead (memWrite m a b) x = if x = a then b else memRead m x := by
  split
  · rename_i h
    rw [h]
    exact memRead_memWrite_self hm a b
  · rename_i h
    exact memRead_memWrite_ne h b m

/-- Writing a byte keeps the canonical form. -/
theorem memWrite_wf {m : Memory} (hm : Memory.wf m = true) (a : Nat) (b : Byte) : Memory.wf (memWrite m a b) = true := by
  induction m with
  | nil => exact memCons_wf (fun _ h => by cases h) rfl b
  | cons c m ih =>
    obtain ⟨hc, ha, hm'⟩ := (memory_wf_cons c m).mp hm
    unfold memWrite
    split
    · rename_i h
      refine memCons_wf ?_ hm b
      intro d hd
      rcases List.mem_cons.mp hd with rfl | hd
      · exact h
      · exact lt_trans h (ha d hd)
    · split
      · rename_i h
        exact memCons_wf (h ▸ ha) hm' b
      · exact (memory_wf_cons _ _).mpr ⟨hc, memAbove_memWrite (by omega) ha b, ih hm'⟩

/-- Equal memories are equal data: a memory in canonical form is determined by what it reads as. -/
theorem memory_ext {m n : Memory} (hm : Memory.wf m = true) (hn : Memory.wf n = true)
    (h : ∀ a, memRead m a = memRead n a) : m = n := by
  induction m generalizing n with
  | nil =>
    cases n with
    | nil => rfl
    | cons d n =>
      obtain ⟨hd, -, -⟩ := (memory_wf_cons d n).mp hn
      have := h d.1
      rw [memRead, memRead, if_pos rfl] at this
      exact absurd this.symm hd
  | cons c m ih =>
    obtain ⟨hc, ha, hm'⟩ := (memory_wf_cons c m).mp hm
    have hcr : memRead (c :: m) c.1 = c.2 := by rw [memRead, if_pos rfl]
    cases n with
    | nil => exact absurd ((hcr.symm.trans (h c.1)).trans rfl) hc
    | cons d n =>
      obtain ⟨hd, hb, hn'⟩ := (memory_wf_cons d n).mp hn
      have hdr : memRead (d :: n) d.1 = d.2 := by rw [memRead, if_pos rfl]
      have hcd : c.1 = d.1 := by
        rcases lt_trichotomy c.1 d.1 with hlt | heq | hgt
        · have : memRead (d :: n) c.1 = memDefault := by
            rw [memRead, if_neg (by omega)]
            exact memRead_of_above (memAbove_of_lt hb (by omega))
          exact absurd (hcr.symm.trans ((h c.1).trans this)) hc
        · exact heq
        · have : memRead (c :: m) d.1 = memDefault := by
            rw [memRead, if_neg (by omega)]
            exact memRead_of_above (memAbove_of_lt ha (by omega))
          exact absurd (hdr.symm.trans ((h d.1).symm.trans this)) hd
      have hval : c.2 = d.2 := by rw [← hcr, h, hcd, hdr]
      have hcell : c = d := Prod.ext hcd hval
      subst hcell
      congr 1
      refine ih hm' hn' (fun a => ?_)
      by_cases hac : a = c.1
      · rw [hac, memRead_of_above ha, memRead_of_above hb]
      · have := h a
        rw [memRead, memRead, if_neg (fun e => hac e.symm), if_neg (fun e => hac e.symm)] at this
        exact this

/-! ### Little-endian data -/

theorem writeLE_wf {m : Memory} (hm : Memory.wf m = true) (a n : Nat) (v : Word) : Memory.wf (writeLE m a n v) = true := by
  induction n generalizing m a v with
  | zero => exact hm
  | succ n ih => exact ih (memWrite_wf hm _ _) _ _

theorem memRead_writeLE_outside (m : Memory) {a n x : Nat} (h : ¬(a ≤ x ∧ x < a + n)) (v : Word) :
    memRead (writeLE m a n v) x = memRead m x := by
  induction n generalizing m a v with
  | zero => rfl
  | succ n ih =>
    rw [writeLE, ih _ (by omega), memRead_memWrite_ne (by omega)]

/-- Exactly the `n` bytes from `a` change, to the little-endian bytes of the value. -/
theorem memRead_writeLE {m : Memory} (hm : Memory.wf m = true) (a n x : Nat) (v : Word) :
    memRead (writeLE m a n v) x =
      if a ≤ x ∧ x < a + n then BitVec.ofNat 8 (v.toNat / 256 ^ (x - a)) else memRead m x := by
  induction n generalizing m a v with
  | zero => rw [if_neg (by omega)]; rfl
  | succ n ih =>
    rw [writeLE, ih (memWrite_wf hm _ _)]
    by_cases hx : x = a
    · subst hx
      rw [if_neg (by omega), if_pos (by omega), memRead_memWrite_self hm, Nat.sub_self, pow_zero, Nat.div_one]
      rfl
    · by_cases hin : a + 1 ≤ x ∧ x < a + 1 + n
      · rw [if_pos hin, if_pos (by omega), BitVec.toNat_ushiftRight, Nat.shiftRight_eq_div_pow, Nat.div_div_eq_div_mul]
        have : (2 : Nat) ^ 8 * 256 ^ (x - (a + 1)) = 256 ^ (x - a) := by
          rw [show x - a = (x - (a + 1)) + 1 by omega, pow_succ 256, mul_comm]; norm_num
        rw [this]
      · rw [if_neg hin, if_neg (by omega), memRead_memWrite_ne hx]

theorem leNat_lt (m : Memory) (a n : Nat) : leNat m a n < 256 ^ n := by
  induction n generalizing a with
  | zero => exact Nat.one_pos
  | succ n ih =>
    have h1 := ih (a + 1)
    have h2 := (memRead m a).isLt
    rw [leNat, pow_succ]
    omega

/-- What is read is the little-endian number, for the widths an access has. -/
theorem readLE_toNat (m : Memory) (a n : Nat) (h : n ≤ 8) : (readLE m a n).toNat = leNat m a n := by
  induction n generalizing a with
  | zero => rfl
  | succ n ih =>
    have h1 := leNat_lt m (a + 1) n
    have h2 := (memRead m a).isLt
    have h3 : 256 ^ n * 256 ≤ 2 ^ 64 := by
      rw [← pow_succ]
      calc 256 ^ (n + 1) ≤ 256 ^ 8 := Nat.pow_le_pow_right (by norm_num) h
        _ = 2 ^ 64 := by norm_num
    rw [readLE, BitVec.toNat_or, BitVec.toNat_shiftLeft, ih _ (by omega), leNat, Nat.shiftLeft_eq, BitVec.toNat_setWidth]
    rw [Nat.mod_eq_of_lt (by omega : (memRead m a).toNat < 2 ^ 64),
      Nat.mod_eq_of_lt (by omega : leNat m (a + 1) n * 2 ^ 8 < 2 ^ 64)]
    rw [Nat.or_comm, ← Nat.shiftLeft_eq, ← Nat.shiftLeft_add_eq_or_of_lt h2, Nat.shiftLeft_eq]
    omega

theorem reset_mem_wf : Memory.wf State.reset.mem = true := rfl

end Sys2Proof.Machine
end

