-- ==== Sys2Proof/Laws/State.lean ====
section
/-! SUPPORT. The fields of the state after each shared update: one lemma for each field an update leaves alone, and, where
the new value is short, one for the field it writes. -/

namespace Sys2Proof.Machine

/-! ### `advancePc` -/

@[simp] theorem advancePc_cfg (s : State) : (advancePc s).cfg = s.cfg := rfl
@[simp] theorem advancePc_xregs (s : State) : (advancePc s).xregs = s.xregs := rfl
@[simp] theorem advancePc_priv (s : State) : (advancePc s).priv = s.priv := rfl
@[simp] theorem advancePc_mstatus (s : State) : (advancePc s).mstatus = s.mstatus := rfl
@[simp] theorem advancePc_mtrap (s : State) : (advancePc s).mtrap = s.mtrap := rfl
@[simp] theorem advancePc_strap (s : State) : (advancePc s).strap = s.strap := rfl
@[simp] theorem advancePc_utrap (s : State) : (advancePc s).utrap = s.utrap := rfl
@[simp] theorem advancePc_medeleg (s : State) : (advancePc s).medeleg = s.medeleg := rfl
@[simp] theorem advancePc_mideleg (s : State) : (advancePc s).mideleg = s.mideleg := rfl
@[simp] theorem advancePc_sedeleg (s : State) : (advancePc s).sedeleg = s.sedeleg := rfl
@[simp] theorem advancePc_sideleg (s : State) : (advancePc s).sideleg = s.sideleg := rfl
@[simp] theorem advancePc_mie (s : State) : (advancePc s).mie = s.mie := rfl
@[simp] theorem advancePc_mip (s : State) : (advancePc s).mip = s.mip := rfl
@[simp] theorem advancePc_mcounteren (s : State) : (advancePc s).mcounteren = s.mcounteren := rfl
@[simp] theorem advancePc_scounteren (s : State) : (advancePc s).scounteren = s.scounteren := rfl
@[simp] theorem advancePc_mcountinhibit (s : State) : (advancePc s).mcountinhibit = s.mcountinhibit := rfl
@[simp] theorem advancePc_mcycle (s : State) : (advancePc s).mcycle = s.mcycle := rfl
@[simp] theorem advancePc_minstret (s : State) : (advancePc s).minstret = s.minstret := rfl
@[simp] theorem advancePc_pmpcfg (s : State) : (advancePc s).pmpcfg = s.pmpcfg := rfl
@[simp] theorem advancePc_pmpaddr (s : State) : (advancePc s).pmpaddr = s.pmpaddr := rfl
@[simp] theorem advancePc_wfiStalled (s : State) : (advancePc s).wfiStalled = s.wfiStalled := rfl
@[simp] theorem advancePc_mtime (s : State) : (advancePc s).mtime = s.mtime := rfl
@[simp] theorem advancePc_mtimecmp (s : State) : (advancePc s).mtimecmp = s.mtimecmp := rfl
@[simp] theorem advancePc_msip (s : State) : (advancePc s).msip = s.msip := rfl
@[simp] theorem advancePc_lines (s : State) : (advancePc s).lines = s.lines := rfl
@[simp] theorem advancePc_mem (s : State) : (advancePc s).mem = s.mem := rfl
@[simp] theorem advancePc_inputs (s : State) : (advancePc s).inputs = s.inputs := rfl
@[simp] theorem advancePc_boundary (s : State) : (advancePc s).boundary = s.boundary := rfl
@[simp] theorem advancePc_mcycleWritten (s : State) : (advancePc s).mcycleWritten = s.mcycleWritten := rfl

/-! ### `retire` -/

@[simp] theorem retire_cfg (s : State) : (retire s).cfg = s.cfg := rfl
@[simp] theorem retire_xregs (s : State) : (retire s).xregs = s.xregs := rfl
@[simp] theorem retire_pc (s : State) : (retire s).pc = s.pc := rfl
@[simp] theorem retire_priv (s : State) : (retire s).priv = s.priv := rfl
@[simp] theorem retire_mstatus (s : State) : (retire s).mstatus = s.mstatus := rfl
@[simp] theorem retire_mtrap (s : State) : (retire s).mtrap = s.mtrap := rfl
@[simp] theorem retire_strap (s : State) : (retire s).strap = s.strap := rfl
@[simp] theorem retire_utrap (s : State) : (retire s).utrap = s.utrap := rfl
@[simp] theorem retire_medeleg (s : State) : (retire s).medeleg = s.medeleg := rfl
@[simp] theorem retire_mideleg (s : State) : (retire s).mideleg = s.mideleg := rfl
@[simp] theorem retire_sedeleg (s : State) : (retire s).sedeleg = s.sedeleg := rfl
@[simp] theorem retire_sideleg (s : State) : (retire s).sideleg = s.sideleg := rfl
@[simp] theorem retire_mie (s : State) : (retire s).mie = s.mie := rfl
@[simp] theorem retire_mip (s : State) : (retire s).mip = s.mip := rfl
@[simp] theorem retire_mcounteren (s : State) : (retire s).mcounteren = s.mcounteren := rfl
@[simp] theorem retire_scounteren (s : State) : (retire s).scounteren = s.scounteren := rfl
@[simp] theorem retire_mcountinhibit (s : State) : (retire s).mcountinhibit = s.mcountinhibit := rfl
@[simp] theorem retire_mcycle (s : State) : (retire s).mcycle = s.mcycle := rfl
@[simp] theorem retire_pmpcfg (s : State) : (retire s).pmpcfg = s.pmpcfg := rfl
@[simp] theorem retire_pmpaddr (s : State) : (retire s).pmpaddr = s.pmpaddr := rfl
@[simp] theorem retire_wfiStalled (s : State) : (retire s).wfiStalled = s.wfiStalled := rfl
@[simp] theorem retire_mtime (s : State) : (retire s).mtime = s.mtime := rfl
@[simp] theorem retire_mtimecmp (s : State) : (retire s).mtimecmp = s.mtimecmp := rfl
@[simp] theorem retire_msip (s : State) : (retire s).msip = s.msip := rfl
@[simp] theorem retire_lines (s : State) : (retire s).lines = s.lines := rfl
@[simp] theorem retire_mem (s : State) : (retire s).mem = s.mem := rfl
@[simp] theorem retire_inputs (s : State) : (retire s).inputs = s.inputs := rfl
@[simp] theorem retire_boundary (s : State) : (retire s).boundary = s.boundary := rfl
@[simp] theorem retire_mcycleWritten (s : State) : (retire s).mcycleWritten = s.mcycleWritten := rfl

/-! ### `writeX` -/

@[simp] theorem writeX_cfg (r : Reg) (v : Word) (s : State) : (writeX r v s).cfg = s.cfg := rfl
@[simp] theorem writeX_pc (r : Reg) (v : Word) (s : State) : (writeX r v s).pc = s.pc := rfl
@[simp] theorem writeX_priv (r : Reg) (v : Word) (s : State) : (writeX r v s).priv = s.priv := rfl
@[simp] theorem writeX_mstatus (r : Reg) (v : Word) (s : State) : (writeX r v s).mstatus = s.mstatus := rfl
@[simp] theorem writeX_mtrap (r : Reg) (v : Word) (s : State) : (writeX r v s).mtrap = s.mtrap := rfl
@[simp] theorem writeX_strap (r : Reg) (v : Word) (s : State) : (writeX r v s).strap = s.strap := rfl
@[simp] theorem writeX_utrap (r : Reg) (v : Word) (s : State) : (writeX r v s).utrap = s.utrap := rfl
@[simp] theorem writeX_medeleg (r : Reg) (v : Word) (s : State) : (writeX r v s).medeleg = s.medeleg := rfl
@[simp] theorem writeX_mideleg (r : Reg) (v : Word) (s : State) : (writeX r v s).mideleg = s.mideleg := rfl
@[simp] theorem writeX_sedeleg (r : Reg) (v : Word) (s : State) : (writeX r v s).sedeleg = s.sedeleg := rfl
@[simp] theorem writeX_sideleg (r : Reg) (v : Word) (s : State) : (writeX r v s).sideleg = s.sideleg := rfl
@[simp] theorem writeX_mie (r : Reg) (v : Word) (s : State) : (writeX r v s).mie = s.mie := rfl
@[simp] theorem writeX_mip (r : Reg) (v : Word) (s : State) : (writeX r v s).mip = s.mip := rfl
@[simp] theorem writeX_mcounteren (r : Reg) (v : Word) (s : State) : (writeX r v s).mcounteren = s.mcounteren := rfl
@[simp] theorem writeX_scounteren (r : Reg) (v : Word) (s : State) : (writeX r v s).scounteren = s.scounteren := rfl
@[simp] theorem writeX_mcountinhibit (r : Reg) (v : Word) (s : State) : (writeX r v s).mcountinhibit = s.mcountinhibit := rfl
@[simp] theorem writeX_mcycle (r : Reg) (v : Word) (s : State) : (writeX r v s).mcycle = s.mcycle := rfl
@[simp] theorem writeX_minstret (r : Reg) (v : Word) (s : State) : (writeX r v s).minstret = s.minstret := rfl
@[simp] theorem writeX_pmpcfg (r : Reg) (v : Word) (s : State) : (writeX r v s).pmpcfg = s.pmpcfg := rfl
@[simp] theorem writeX_pmpaddr (r : Reg) (v : Word) (s : State) : (writeX r v s).pmpaddr = s.pmpaddr := rfl
@[simp] theorem writeX_wfiStalled (r : Reg) (v : Word) (s : State) : (writeX r v s).wfiStalled = s.wfiStalled := rfl
@[simp] theorem writeX_mtime (r : Reg) (v : Word) (s : State) : (writeX r v s).mtime = s.mtime := rfl
@[simp] theorem writeX_mtimecmp (r : Reg) (v : Word) (s : State) : (writeX r v s).mtimecmp = s.mtimecmp := rfl
@[simp] theorem writeX_msip (r : Reg) (v : Word) (s : State) : (writeX r v s).msip = s.msip := rfl
@[simp] theorem writeX_lines (r : Reg) (v : Word) (s : State) : (writeX r v s).lines = s.lines := rfl
@[simp] theorem writeX_mem (r : Reg) (v : Word) (s : State) : (writeX r v s).mem = s.mem := rfl
@[simp] theorem writeX_inputs (r : Reg) (v : Word) (s : State) : (writeX r v s).inputs = s.inputs := rfl
@[simp] theorem writeX_boundary (r : Reg) (v : Word) (s : State) : (writeX r v s).boundary = s.boundary := rfl
@[simp] theorem writeX_mcycleWritten (r : Reg) (v : Word) (s : State) : (writeX r v s).mcycleWritten = s.mcycleWritten := rfl

/-! ### `setTrapRegs` -/

@[simp] theorem setTrapRegs_cfg (x : Priv) (g : TrapRegs) (s : State) : (setTrapRegs x g s).cfg = s.cfg := rfl
@[simp] theorem setTrapRegs_xregs (x : Priv) (g : TrapRegs) (s : State) : (setTrapRegs x g s).xregs = s.xregs := rfl
@[simp] theorem setTrapRegs_pc (x : Priv) (g : TrapRegs) (s : State) : (setTrapRegs x g s).pc = s.pc := rfl
@[simp] theorem setTrapRegs_priv (x : Priv) (g : TrapRegs) (s : State) : (setTrapRegs x g s).priv = s.priv := rfl
@[simp] theorem setTrapRegs_mstatus (x : Priv) (g : TrapRegs) (s : State) : (setTrapRegs x g s).mstatus = s.mstatus := rfl
@[simp] theorem setTrapRegs_medeleg (x : Priv) (g : TrapRegs) (s : State) : (setTrapRegs x g s).medeleg = s.medeleg := rfl
@[simp] theorem setTrapRegs_mideleg (x : Priv) (g : TrapRegs) (s : State) : (setTrapRegs x g s).mideleg = s.mideleg := rfl
@[simp] theorem setTrapRegs_sedeleg (x : Priv) (g : TrapRegs) (s : State) : (setTrapRegs x g s).sedeleg = s.sedeleg := rfl
@[simp] theorem setTrapRegs_sideleg (x : Priv) (g : TrapRegs) (s : State) : (setTrapRegs x g s).sideleg = s.sideleg := rfl
@[simp] theorem setTrapRegs_mie (x : Priv) (g : TrapRegs) (s : State) : (setTrapRegs x g s).mie = s.mie := rfl
@[simp] theorem setTrapRegs_mip (x : Priv) (g : TrapRegs) (s : State) : (setTrapRegs x g s).mip = s.mip := rfl
@[simp] theorem setTrapRegs_mcounteren (x : Priv) (g : TrapRegs) (s : State) : (setTrapRegs x g s).mcounteren = s.mcounteren := rfl
@[simp] theorem setTrapRegs_scounteren (x : Priv) (g : TrapRegs) (s : State) : (setTrapRegs x g s).scounteren = s.scounteren := rfl
@[simp] theorem setTrapRegs_mcountinhibit (x : Priv) (g : TrapRegs) (s : State) : (setTrapRegs x g s).mcountinhibit = s.mcountinhibit := rfl
@[simp] theorem setTrapRegs_mcycle (x : Priv) (g : TrapRegs) (s : State) : (setTrapRegs x g s).mcycle = s.mcycle := rfl
@[simp] theorem setTrapRegs_minstret (x : Priv) (g : TrapRegs) (s : State) : (setTrapRegs x g s).minstret = s.minstret := rfl
@[simp] theorem setTrapRegs_pmpcfg (x : Priv) (g : TrapRegs) (s : State) : (setTrapRegs x g s).pmpcfg = s.pmpcfg := rfl
@[simp] theorem setTrapRegs_pmpaddr (x : Priv) (g : TrapRegs) (s : State) : (setTrapRegs x g s).pmpaddr = s.pmpaddr := rfl
@[simp] theorem setTrapRegs_wfiStalled (x : Priv) (g : TrapRegs) (s : State) : (setTrapRegs x g s).wfiStalled = s.wfiStalled := rfl
@[simp] theorem setTrapRegs_mtime (x : Priv) (g : TrapRegs) (s : State) : (setTrapRegs x g s).mtime = s.mtime := rfl
@[simp] theorem setTrapRegs_mtimecmp (x : Priv) (g : TrapRegs) (s : State) : (setTrapRegs x g s).mtimecmp = s.mtimecmp := rfl
@[simp] theorem setTrapRegs_msip (x : Priv) (g : TrapRegs) (s : State) : (setTrapRegs x g s).msip = s.msip := rfl
@[simp] theorem setTrapRegs_lines (x : Priv) (g : TrapRegs) (s : State) : (setTrapRegs x g s).lines = s.lines := rfl
@[simp] theorem setTrapRegs_mem (x : Priv) (g : TrapRegs) (s : State) : (setTrapRegs x g s).mem = s.mem := rfl
@[simp] theorem setTrapRegs_inputs (x : Priv) (g : TrapRegs) (s : State) : (setTrapRegs x g s).inputs = s.inputs := rfl
@[simp] theorem setTrapRegs_boundary (x : Priv) (g : TrapRegs) (s : State) : (setTrapRegs x g s).boundary = s.boundary := rfl
@[simp] theorem setTrapRegs_mcycleWritten (x : Priv) (g : TrapRegs) (s : State) : (setTrapRegs x g s).mcycleWritten = s.mcycleWritten := rfl

/-! ### `enterTrap` -/

@[simp] theorem enterTrap_cfg (x : Priv) (b : Bool) (c : Nat) (v e : Word) (s : State) : (enterTrap x b c v e s).cfg = s.cfg := rfl
@[simp] theorem enterTrap_xregs (x : Priv) (b : Bool) (c : Nat) (v e : Word) (s : State) : (enterTrap x b c v e s).xregs = s.xregs := rfl
@[simp] theorem enterTrap_medeleg (x : Priv) (b : Bool) (c : Nat) (v e : Word) (s : State) : (enterTrap x b c v e s).medeleg = s.medeleg := rfl
@[simp] theorem enterTrap_mideleg (x : Priv) (b : Bool) (c : Nat) (v e : Word) (s : State) : (enterTrap x b c v e s).mideleg = s.mideleg := rfl
@[simp] theorem enterTrap_sedeleg (x : Priv) (b : Bool) (c : Nat) (v e : Word) (s : State) : (enterTrap x b c v e s).sedeleg = s.sedeleg := rfl
@[simp] theorem enterTrap_sideleg (x : Priv) (b : Bool) (c : Nat) (v e : Word) (s : State) : (enterTrap x b c v e s).sideleg = s.sideleg := rfl
@[simp] theorem enterTrap_mie (x : Priv) (b : Bool) (c : Nat) (v e : Word) (s : State) : (enterTrap x b c v e s).mie = s.mie := rfl
@[simp] theorem enterTrap_mip (x : Priv) (b : Bool) (c : Nat) (v e : Word) (s : State) : (enterTrap x b c v e s).mip = s.mip := rfl
@[simp] theorem enterTrap_mcounteren (x : Priv) (b : Bool) (c : Nat) (v e : Word) (s : State) : (enterTrap x b c v e s).mcounteren = s.mcounteren := rfl
@[simp] theorem enterTrap_scounteren (x : Priv) (b : Bool) (c : Nat) (v e : Word) (s : State) : (enterTrap x b c v e s).scounteren = s.scounteren := rfl
@[simp] theorem enterTrap_mcountinhibit (x : Priv) (b : Bool) (c : Nat) (v e : Word) (s : State) : (enterTrap x b c v e s).mcountinhibit = s.mcountinhibit := rfl
@[simp] theorem enterTrap_mcycle (x : Priv) (b : Bool) (c : Nat) (v e : Word) (s : State) : (enterTrap x b c v e s).mcycle = s.mcycle := rfl
@[simp] theorem enterTrap_minstret (x : Priv) (b : Bool) (c : Nat) (v e : Word) (s : State) : (enterTrap x b c v e s).minstret = s.minstret := rfl
@[simp] theorem enterTrap_pmpcfg (x : Priv) (b : Bool) (c : Nat) (v e : Word) (s : State) : (enterTrap x b c v e s).pmpcfg = s.pmpcfg := rfl
@[simp] theorem enterTrap_pmpaddr (x : Priv) (b : Bool) (c : Nat) (v e : Word) (s : State) : (enterTrap x b c v e s).pmpaddr = s.pmpaddr := rfl
@[simp] theorem enterTrap_mtime (x : Priv) (b : Bool) (c : Nat) (v e : Word) (s : State) : (enterTrap x b c v e s).mtime = s.mtime := rfl
@[simp] theorem enterTrap_mtimecmp (x : Priv) (b : Bool) (c : Nat) (v e : Word) (s : State) : (enterTrap x b c v e s).mtimecmp = s.mtimecmp := rfl
@[simp] theorem enterTrap_msip (x : Priv) (b : Bool) (c : Nat) (v e : Word) (s : State) : (enterTrap x b c v e s).msip = s.msip := rfl
@[simp] theorem enterTrap_lines (x : Priv) (b : Bool) (c : Nat) (v e : Word) (s : State) : (enterTrap x b c v e s).lines = s.lines := rfl
@[simp] theorem enterTrap_mem (x : Priv) (b : Bool) (c : Nat) (v e : Word) (s : State) : (enterTrap x b c v e s).mem = s.mem := rfl
@[simp] theorem enterTrap_inputs (x : Priv) (b : Bool) (c : Nat) (v e : Word) (s : State) : (enterTrap x b c v e s).inputs = s.inputs := rfl
@[simp] theorem enterTrap_boundary (x : Priv) (b : Bool) (c : Nat) (v e : Word) (s : State) : (enterTrap x b c v e s).boundary = s.boundary := rfl
@[simp] theorem enterTrap_mcycleWritten (x : Priv) (b : Bool) (c : Nat) (v e : Word) (s : State) : (enterTrap x b c v e s).mcycleWritten = s.mcycleWritten := rfl

/-! ### `takeTrap` -/

@[simp] theorem takeTrap_cfg (b : Bool) (c : Nat) (v e : Word) (s : State) : (takeTrap b c v e s).cfg = s.cfg := rfl
@[simp] theorem takeTrap_xregs (b : Bool) (c : Nat) (v e : Word) (s : State) : (takeTrap b c v e s).xregs = s.xregs := rfl
@[simp] theorem takeTrap_medeleg (b : Bool) (c : Nat) (v e : Word) (s : State) : (takeTrap b c v e s).medeleg = s.medeleg := rfl
@[simp] theorem takeTrap_mideleg (b : Bool) (c : Nat) (v e : Word) (s : State) : (takeTrap b c v e s).mideleg = s.mideleg := rfl
@[simp] theorem takeTrap_sedeleg (b : Bool) (c : Nat) (v e : Word) (s : State) : (takeTrap b c v e s).sedeleg = s.sedeleg := rfl
@[simp] theorem takeTrap_sideleg (b : Bool) (c : Nat) (v e : Word) (s : State) : (takeTrap b c v e s).sideleg = s.sideleg := rfl
@[simp] theorem takeTrap_mie (b : Bool) (c : Nat) (v e : Word) (s : State) : (takeTrap b c v e s).mie = s.mie := rfl
@[simp] theorem takeTrap_mip (b : Bool) (c : Nat) (v e : Word) (s : State) : (takeTrap b c v e s).mip = s.mip := rfl
@[simp] theorem takeTrap_mcounteren (b : Bool) (c : Nat) (v e : Word) (s : State) : (takeTrap b c v e s).mcounteren = s.mcounteren := rfl
@[simp] theorem takeTrap_scounteren (b : Bool) (c : Nat) (v e : Word) (s : State) : (takeTrap b c v e s).scounteren = s.scounteren := rfl
@[simp] theorem takeTrap_mcountinhibit (b : Bool) (c : Nat) (v e : Word) (s : State) : (takeTrap b c v e s).mcountinhibit = s.mcountinhibit := rfl
@[simp] theorem takeTrap_mcycle (b : Bool) (c : Nat) (v e : Word) (s : State) : (takeTrap b c v e s).mcycle = s.mcycle := rfl
@[simp] theorem takeTrap_minstret (b : Bool) (c : Nat) (v e : Word) (s : State) : (takeTrap b c v e s).minstret = s.minstret := rfl
@[simp] theorem takeTrap_pmpcfg (b : Bool) (c : Nat) (v e : Word) (s : State) : (takeTrap b c v e s).pmpcfg = s.pmpcfg := rfl
@[simp] theorem takeTrap_pmpaddr (b : Bool) (c : Nat) (v e : Word) (s : State) : (takeTrap b c v e s).pmpaddr = s.pmpaddr := rfl
@[simp] theorem takeTrap_mtime (b : Bool) (c : Nat) (v e : Word) (s : State) : (takeTrap b c v e s).mtime = s.mtime := rfl
@[simp] theorem takeTrap_mtimecmp (b : Bool) (c : Nat) (v e : Word) (s : State) : (takeTrap b c v e s).mtimecmp = s.mtimecmp := rfl
@[simp] theorem takeTrap_msip (b : Bool) (c : Nat) (v e : Word) (s : State) : (takeTrap b c v e s).msip = s.msip := rfl
@[simp] theorem takeTrap_lines (b : Bool) (c : Nat) (v e : Word) (s : State) : (takeTrap b c v e s).lines = s.lines := rfl
@[simp] theorem takeTrap_mem (b : Bool) (c : Nat) (v e : Word) (s : State) : (takeTrap b c v e s).mem = s.mem := rfl
@[simp] theorem takeTrap_inputs (b : Bool) (c : Nat) (v e : Word) (s : State) : (takeTrap b c v e s).inputs = s.inputs := rfl
@[simp] theorem takeTrap_boundary (b : Bool) (c : Nat) (v e : Word) (s : State) : (takeTrap b c v e s).boundary = s.boundary := rfl
@[simp] theorem takeTrap_mcycleWritten (b : Bool) (c : Nat) (v e : Word) (s : State) : (takeTrap b c v e s).mcycleWritten = s.mcycleWritten := rfl

/-! ### `takeException` -/

@[simp] theorem takeException_cfg (r : Raised) (s : State) : (takeException r s).cfg = s.cfg := rfl
@[simp] theorem takeException_xregs (r : Raised) (s : State) : (takeException r s).xregs = s.xregs := rfl
@[simp] theorem takeException_medeleg (r : Raised) (s : State) : (takeException r s).medeleg = s.medeleg := rfl
@[simp] theorem takeException_mideleg (r : Raised) (s : State) : (takeException r s).mideleg = s.mideleg := rfl
@[simp] theorem takeException_sedeleg (r : Raised) (s : State) : (takeException r s).sedeleg = s.sedeleg := rfl
@[simp] theorem takeException_sideleg (r : Raised) (s : State) : (takeException r s).sideleg = s.sideleg := rfl
@[simp] theorem takeException_mie (r : Raised) (s : State) : (takeException r s).mie = s.mie := rfl
@[simp] theorem takeException_mip (r : Raised) (s : State) : (takeException r s).mip = s.mip := rfl
@[simp] theorem takeException_mcounteren (r : Raised) (s : State) : (takeException r s).mcounteren = s.mcounteren := rfl
@[simp] theorem takeException_scounteren (r : Raised) (s : State) : (takeException r s).scounteren = s.scounteren := rfl
@[simp] theorem takeException_mcountinhibit (r : Raised) (s : State) : (takeException r s).mcountinhibit = s.mcountinhibit := rfl
@[simp] theorem takeException_mcycle (r : Raised) (s : State) : (takeException r s).mcycle = s.mcycle := rfl
@[simp] theorem takeException_minstret (r : Raised) (s : State) : (takeException r s).minstret = s.minstret := rfl
@[simp] theorem takeException_pmpcfg (r : Raised) (s : State) : (takeException r s).pmpcfg = s.pmpcfg := rfl
@[simp] theorem takeException_pmpaddr (r : Raised) (s : State) : (takeException r s).pmpaddr = s.pmpaddr := rfl
@[simp] theorem takeException_mtime (r : Raised) (s : State) : (takeException r s).mtime = s.mtime := rfl
@[simp] theorem takeException_mtimecmp (r : Raised) (s : State) : (takeException r s).mtimecmp = s.mtimecmp := rfl
@[simp] theorem takeException_msip (r : Raised) (s : State) : (takeException r s).msip = s.msip := rfl
@[simp] theorem takeException_lines (r : Raised) (s : State) : (takeException r s).lines = s.lines := rfl
@[simp] theorem takeException_mem (r : Raised) (s : State) : (takeException r s).mem = s.mem := rfl
@[simp] theorem takeException_inputs (r : Raised) (s : State) : (takeException r s).inputs = s.inputs := rfl
@[simp] theorem takeException_boundary (r : Raised) (s : State) : (takeException r s).boundary = s.boundary := rfl
@[simp] theorem takeException_mcycleWritten (r : Raised) (s : State) : (takeException r s).mcycleWritten = s.mcycleWritten := rfl

/-! ### `takeInterrupt` -/

@[simp] theorem takeInterrupt_cfg (i : Nat) (s : State) : (takeInterrupt i s).cfg = s.cfg := rfl
@[simp] theorem takeInterrupt_xregs (i : Nat) (s : State) : (takeInterrupt i s).xregs = s.xregs := rfl
@[simp] theorem takeInterrupt_medeleg (i : Nat) (s : State) : (takeInterrupt i s).medeleg = s.medeleg := rfl
@[simp] theorem takeInterrupt_mideleg (i : Nat) (s : State) : (takeInterrupt i s).mideleg = s.mideleg := rfl
@[simp] theorem takeInterrupt_sedeleg (i : Nat) (s : State) : (takeInterrupt i s).sedeleg = s.sedeleg := rfl
@[simp] theorem takeInterrupt_sideleg (i : Nat) (s : State) : (takeInterrupt i s).sideleg = s.sideleg := rfl
@[simp] theorem takeInterrupt_mie (i : Nat) (s : State) : (takeInterrupt i s).mie = s.mie := rfl
@[simp] theorem takeInterrupt_mip (i : Nat) (s : State) : (takeInterrupt i s).mip = s.mip := rfl
@[simp] theorem takeInterrupt_mcounteren (i : Nat) (s : State) : (takeInterrupt i s).mcounteren = s.mcounteren := rfl
@[simp] theorem takeInterrupt_scounteren (i : Nat) (s : State) : (takeInterrupt i s).scounteren = s.scounteren := rfl
@[simp] theorem takeInterrupt_mcountinhibit (i : Nat) (s : State) : (takeInterrupt i s).mcountinhibit = s.mcountinhibit := rfl
@[simp] theorem takeInterrupt_mcycle (i : Nat) (s : State) : (takeInterrupt i s).mcycle = s.mcycle := rfl
@[simp] theorem takeInterrupt_minstret (i : Nat) (s : State) : (takeInterrupt i s).minstret = s.minstret := rfl
@[simp] theorem takeInterrupt_pmpcfg (i : Nat) (s : State) : (takeInterrupt i s).pmpcfg = s.pmpcfg := rfl
@[simp] theorem takeInterrupt_pmpaddr (i : Nat) (s : State) : (takeInterrupt i s).pmpaddr = s.pmpaddr := rfl
@[simp] theorem takeInterrupt_mtime (i : Nat) (s : State) : (takeInterrupt i s).mtime = s.mtime := rfl
@[simp] theorem takeInterrupt_mtimecmp (i : Nat) (s : State) : (takeInterrupt i s).mtimecmp = s.mtimecmp := rfl
@[simp] theorem takeInterrupt_msip (i : Nat) (s : State) : (takeInterrupt i s).msip = s.msip := rfl
@[simp] theorem takeInterrupt_lines (i : Nat) (s : State) : (takeInterrupt i s).lines = s.lines := rfl
@[simp] theorem takeInterrupt_mem (i : Nat) (s : State) : (takeInterrupt i s).mem = s.mem := rfl
@[simp] theorem takeInterrupt_inputs (i : Nat) (s : State) : (takeInterrupt i s).inputs = s.inputs := rfl
@[simp] theorem takeInterrupt_boundary (i : Nat) (s : State) : (takeInterrupt i s).boundary = s.boundary := rfl
@[simp] theorem takeInterrupt_mcycleWritten (i : Nat) (s : State) : (takeInterrupt i s).mcycleWritten = s.mcycleWritten := rfl

/-! ### `returnFromTrap` -/

@[simp] theorem returnFromTrap_cfg (x : Priv) (s : State) : (returnFromTrap x s).cfg = s.cfg := rfl
@[simp] theorem returnFromTrap_xregs (x : Priv) (s : State) : (returnFromTrap x s).xregs = s.xregs := rfl
@[simp] theorem returnFromTrap_mtrap (x : Priv) (s : State) : (returnFromTrap x s).mtrap = s.mtrap := rfl
@[simp] theorem returnFromTrap_strap (x : Priv) (s : State) : (returnFromTrap x s).strap = s.strap := rfl
@[simp] theorem returnFromTrap_utrap (x : Priv) (s : State) : (returnFromTrap x s).utrap = s.utrap := rfl
@[simp] theorem returnFromTrap_medeleg (x : Priv) (s : State) : (returnFromTrap x s).medeleg = s.medeleg := rfl
@[simp] theorem returnFromTrap_mideleg (x : Priv) (s : State) : (returnFromTrap x s).mideleg = s.mideleg := rfl
@[simp] theorem returnFromTrap_sedeleg (x : Priv) (s : State) : (returnFromTrap x s).sedeleg = s.sedeleg := rfl
@[simp] theorem returnFromTrap_sideleg (x : Priv) (s : State) : (returnFromTrap x s).sideleg = s.sideleg := rfl
@[simp] theorem returnFromTrap_mie (x : Priv) (s : State) : (returnFromTrap x s).mie = s.mie := rfl
@[simp] theorem returnFromTrap_mip (x : Priv) (s : State) : (returnFromTrap x s).mip = s.mip := rfl
@[simp] theorem returnFromTrap_mcounteren (x : Priv) (s : State) : (returnFromTrap x s).mcounteren = s.mcounteren := rfl
@[simp] theorem returnFromTrap_scounteren (x : Priv) (s : State) : (returnFromTrap x s).scounteren = s.scounteren := rfl
@[simp] theorem returnFromTrap_mcountinhibit (x : Priv) (s : State) : (returnFromTrap x s).mcountinhibit = s.mcountinhibit := rfl
@[simp] theorem returnFromTrap_mcycle (x : Priv) (s : State) : (returnFromTrap x s).mcycle = s.mcycle := rfl
@[simp] theorem returnFromTrap_minstret (x : Priv) (s : State) : (returnFromTrap x s).minstret = s.minstret := rfl
@[simp] theorem returnFromTrap_pmpcfg (x : Priv) (s : State) : (returnFromTrap x s).pmpcfg = s.pmpcfg := rfl
@[simp] theorem returnFromTrap_pmpaddr (x : Priv) (s : State) : (returnFromTrap x s).pmpaddr = s.pmpaddr := rfl
@[simp] theorem returnFromTrap_wfiStalled (x : Priv) (s : State) : (returnFromTrap x s).wfiStalled = s.wfiStalled := rfl
@[simp] theorem returnFromTrap_mtime (x : Priv) (s : State) : (returnFromTrap x s).mtime = s.mtime := rfl
@[simp] theorem returnFromTrap_mtimecmp (x : Priv) (s : State) : (returnFromTrap x s).mtimecmp = s.mtimecmp := rfl
@[simp] theorem returnFromTrap_msip (x : Priv) (s : State) : (returnFromTrap x s).msip = s.msip := rfl
@[simp] theorem returnFromTrap_lines (x : Priv) (s : State) : (returnFromTrap x s).lines = s.lines := rfl
@[simp] theorem returnFromTrap_mem (x : Priv) (s : State) : (returnFromTrap x s).mem = s.mem := rfl
@[simp] theorem returnFromTrap_inputs (x : Priv) (s : State) : (returnFromTrap x s).inputs = s.inputs := rfl
@[simp] theorem returnFromTrap_boundary (x : Priv) (s : State) : (returnFromTrap x s).boundary = s.boundary := rfl
@[simp] theorem returnFromTrap_mcycleWritten (x : Priv) (s : State) : (returnFromTrap x s).mcycleWritten = s.mcycleWritten := rfl

/-! ### `awaken` -/

@[simp] theorem awaken_cfg (s : State) : (awaken s).cfg = s.cfg := rfl
@[simp] theorem awaken_xregs (s : State) : (awaken s).xregs = s.xregs := rfl
@[simp] theorem awaken_pc (s : State) : (awaken s).pc = s.pc := rfl
@[simp] theorem awaken_priv (s : State) : (awaken s).priv = s.priv := rfl
@[simp] theorem awaken_mstatus (s : State) : (awaken s).mstatus = s.mstatus := rfl
@[simp] theorem awaken_mtrap (s : State) : (awaken s).mtrap = s.mtrap := rfl
@[simp] theorem awaken_strap (s : State) : (awaken s).strap = s.strap := rfl
@[simp] theorem awaken_utrap (s : State) : (awaken s).utrap = s.utrap := rfl
@[simp] theorem awaken_medeleg (s : State) : (awaken s).medeleg = s.medeleg := rfl
@[simp] theorem awaken_mideleg (s : State) : (awaken s).mideleg = s.mideleg := rfl
@[simp] theorem awaken_sedeleg (s : State) : (awaken s).sedeleg = s.sedeleg := rfl
@[simp] theorem awaken_sideleg (s : State) : (awaken s).sideleg = s.sideleg := rfl
@[simp] theorem awaken_mie (s : State) : (awaken s).mie = s.mie := rfl
@[simp] theorem awaken_mip (s : State) : (awaken s).mip = s.mip := rfl
@[simp] theorem awaken_mcounteren (s : State) : (awaken s).mcounteren = s.mcounteren := rfl
@[simp] theorem awaken_scounteren (s : State) : (awaken s).scounteren = s.scounteren := rfl
@[simp] theorem awaken_mcountinhibit (s : State) : (awaken s).mcountinhibit = s.mcountinhibit := rfl
@[simp] theorem awaken_mcycle (s : State) : (awaken s).mcycle = s.mcycle := rfl
@[simp] theorem awaken_minstret (s : State) : (awaken s).minstret = s.minstret := rfl
@[simp] theorem awaken_pmpcfg (s : State) : (awaken s).pmpcfg = s.pmpcfg := rfl
@[simp] theorem awaken_pmpaddr (s : State) : (awaken s).pmpaddr = s.pmpaddr := rfl
@[simp] theorem awaken_mtime (s : State) : (awaken s).mtime = s.mtime := rfl
@[simp] theorem awaken_mtimecmp (s : State) : (awaken s).mtimecmp = s.mtimecmp := rfl
@[simp] theorem awaken_msip (s : State) : (awaken s).msip = s.msip := rfl
@[simp] theorem awaken_lines (s : State) : (awaken s).lines = s.lines := rfl
@[simp] theorem awaken_mem (s : State) : (awaken s).mem = s.mem := rfl
@[simp] theorem awaken_inputs (s : State) : (awaken s).inputs = s.inputs := rfl
@[simp] theorem awaken_boundary (s : State) : (awaken s).boundary = s.boundary := rfl
@[simp] theorem awaken_mcycleWritten (s : State) : (awaken s).mcycleWritten = s.mcycleWritten := rfl

/-! ### `passTime` -/

@[simp] theorem passTime_cfg (s : State) : (passTime s).cfg = s.cfg := rfl
@[simp] theorem passTime_xregs (s : State) : (passTime s).xregs = s.xregs := rfl
@[simp] theorem passTime_pc (s : State) : (passTime s).pc = s.pc := rfl
@[simp] theorem passTime_priv (s : State) : (passTime s).priv = s.priv := rfl
@[simp] theorem passTime_mstatus (s : State) : (passTime s).mstatus = s.mstatus := rfl
@[simp] theorem passTime_mtrap (s : State) : (passTime s).mtrap = s.mtrap := rfl
@[simp] theorem passTime_strap (s : State) : (passTime s).strap = s.strap := rfl
@[simp] theorem passTime_utrap (s : State) : (passTime s).utrap = s.utrap := rfl
@[simp] theorem passTime_medeleg (s : State) : (passTime s).medeleg = s.medeleg := rfl
@[simp] theorem passTime_mideleg (s : State) : (passTime s).mideleg = s.mideleg := rfl
@[simp] theorem passTime_sedeleg (s : State) : (passTime s).sedeleg = s.sedeleg := rfl
@[simp] theorem passTime_sideleg (s : State) : (passTime s).sideleg = s.sideleg := rfl
@[simp] theorem passTime_mie (s : State) : (passTime s).mie = s.mie := rfl
@[simp] theorem passTime_mip (s : State) : (passTime s).mip = s.mip := rfl
@[simp] theorem passTime_mcounteren (s : State) : (passTime s).mcounteren = s.mcounteren := rfl
@[simp] theorem passTime_scounteren (s : State) : (passTime s).scounteren = s.scounteren := rfl
@[simp] theorem passTime_mcountinhibit (s : State) : (passTime s).mcountinhibit = s.mcountinhibit := rfl
@[simp] theorem passTime_minstret (s : State) : (passTime s).minstret = s.minstret := rfl
@[simp] theorem passTime_pmpcfg (s : State) : (passTime s).pmpcfg = s.pmpcfg := rfl
@[simp] theorem passTime_pmpaddr (s : State) : (passTime s).pmpaddr = s.pmpaddr := rfl
@[simp] theorem passTime_wfiStalled (s : State) : (passTime s).wfiStalled = s.wfiStalled := rfl
@[simp] theorem passTime_mtimecmp (s : State) : (passTime s).mtimecmp = s.mtimecmp := rfl
@[simp] theorem passTime_msip (s : State) : (passTime s).msip = s.msip := rfl
@[simp] theorem passTime_mem (s : State) : (passTime s).mem = s.mem := rfl

/-! ### The fields an update writes -/

@[simp] theorem advancePc_pc (s : State) : (advancePc s).pc = truncX s.cfg.xlen (s.pc + 4) := rfl
@[simp] theorem retire_minstret (s : State) :
    (retire s).minstret = if s.mcountinhibit.getLsbD 2 then s.minstret else s.minstret + 1 := rfl
@[simp] theorem enterTrap_priv (x : Priv) (b : Bool) (c : Nat) (v e : Word) (s : State) :
    (enterTrap x b c v e s).priv = x := rfl
@[simp] theorem enterTrap_mstatus (x : Priv) (b : Bool) (c : Nat) (v e : Word) (s : State) :
    (enterTrap x b c v e s).mstatus = pushPrivStack x s.priv s.mstatus := rfl
@[simp] theorem enterTrap_pc (x : Priv) (b : Bool) (c : Nat) (v e : Word) (s : State) :
    (enterTrap x b c v e s).pc = trapVector s.cfg.xlen (trapRegs x s).tvec b c := rfl
@[simp] theorem enterTrap_wfiStalled (x : Priv) (b : Bool) (c : Nat) (v e : Word) (s : State) :
    (enterTrap x b c v e s).wfiStalled = false := rfl
@[simp] theorem returnFromTrap_mstatus (x : Priv) (s : State) :
    (returnFromTrap x s).mstatus = popPrivStack x s.cfg s.mstatus := rfl
@[simp] theorem returnFromTrap_priv (x : Priv) (s : State) : (returnFromTrap x s).priv = returnMode x s.mstatus := rfl
@[simp] theorem returnFromTrap_pc (x : Priv) (s : State) : (returnFromTrap x s).pc = (trapRegs x s).epc := rfl
@[simp] theorem awaken_wfiStalled (s : State) : (awaken s).wfiStalled = false := rfl

/-! ### The trap registers of a level -/

@[simp] theorem trapRegs_advancePc (x : Priv) (s : State) : trapRegs x (advancePc s) = trapRegs x s := by cases x <;> rfl
@[simp] theorem trapRegs_retire (x : Priv) (s : State) : trapRegs x (retire s) = trapRegs x s := by cases x <;> rfl
@[simp] theorem trapRegs_writeX (x : Priv) (r : Reg) (v : Word) (s : State) :
    trapRegs x (writeX r v s) = trapRegs x s := by cases x <;> rfl
@[simp] theorem trapRegs_awaken (x : Priv) (s : State) : trapRegs x (awaken s) = trapRegs x s := by cases x <;> rfl
@[simp] theorem trapRegs_passTime (x : Priv) (s : State) : trapRegs x (passTime s) = trapRegs x s := by cases x <;> rfl
@[simp] theorem trapRegs_returnFromTrap (x y : Priv) (s : State) :
    trapRegs x (returnFromTrap y s) = trapRegs x s := by cases x <;> rfl
theorem trapRegs_enterTrap (x y : Priv) (b : Bool) (c : Nat) (v e : Word) (s : State) :
    trapRegs x (enterTrap y b c v e s) =
      if x = y then trapRegsAfter s.cfg.xlen b c v e (trapRegs y s) else trapRegs x s := by
  cases x <;> cases y <;> rfl

/-! ### Memory and the device registers -/

theorem deviceWrite_frame (d : Device) (off n : Nat) (v : Word) (s : State) :
    deviceWrite d off n v s =
      { s with mtime := (deviceWrite d off n v s).mtime, mtimecmp := (deviceWrite d off n v s).mtimecmp,
               msip := (deviceWrite d off n v s).msip } := by cases d <;> rfl
theorem regionWrite_frame (r : Region) (pa n : Nat) (v : Word) (s : State) :
    regionWrite r pa n v s =
      { s with mtime := (regionWrite r pa n v s).mtime, mtimecmp := (regionWrite r pa n v s).mtimecmp,
               msip := (regionWrite r pa n v s).msip, mem := (regionWrite r pa n v s).mem } := by
  obtain ⟨b, z, k⟩ := r
  cases k with
  | ram => rfl
  | rom => rfl
  | dev d => cases d <;> rfl

/-! ### CSR writes -/

@[simp] theorem csrWrite_cfg (c : Csr) (v : Word) (s : State) : (csrWrite c v s).cfg = s.cfg := by cases c <;> rfl
@[simp] theorem csrWrite_xregs (c : Csr) (v : Word) (s : State) : (csrWrite c v s).xregs = s.xregs := by cases c <;> rfl
@[simp] theorem csrWrite_pc (c : Csr) (v : Word) (s : State) : (csrWrite c v s).pc = s.pc := by cases c <;> rfl
@[simp] theorem csrWrite_priv (c : Csr) (v : Word) (s : State) : (csrWrite c v s).priv = s.priv := by cases c <;> rfl
@[simp] theorem csrWrite_wfiStalled (c : Csr) (v : Word) (s : State) : (csrWrite c v s).wfiStalled = s.wfiStalled := by cases c <;> rfl
@[simp] theorem csrWrite_mtime (c : Csr) (v : Word) (s : State) : (csrWrite c v s).mtime = s.mtime := by cases c <;> rfl
@[simp] theorem csrWrite_mtimecmp (c : Csr) (v : Word) (s : State) : (csrWrite c v s).mtimecmp = s.mtimecmp := by cases c <;> rfl
@[simp] theorem csrWrite_msip (c : Csr) (v : Word) (s : State) : (csrWrite c v s).msip = s.msip := by cases c <;> rfl
@[simp] theorem csrWrite_lines (c : Csr) (v : Word) (s : State) : (csrWrite c v s).lines = s.lines := by cases c <;> rfl
@[simp] theorem csrWrite_mem (c : Csr) (v : Word) (s : State) : (csrWrite c v s).mem = s.mem := by cases c <;> rfl
@[simp] theorem csrWrite_inputs (c : Csr) (v : Word) (s : State) : (csrWrite c v s).inputs = s.inputs := by cases c <;> rfl
@[simp] theorem csrWrite_boundary (c : Csr) (v : Word) (s : State) : (csrWrite c v s).boundary = s.boundary := by cases c <;> rfl

end Sys2Proof.Machine
end

