-- ==== Sys2Proof/Laws/Word.lean ====
section
/-! SUPPORT. The values of the word operations as numbers. -/

namespace Sys2Proof.Machine

theorem bits_pos (xl : Xlen) : 0 < xl.bits := by cases xl <;> decide

theorem two_pow_bits_le (xl : Xlen) : (2 : Nat) ^ xl.bits ∣ 2 ^ 64 := by
  cases xl
  · exact ⟨2 ^ 32, by norm_num [Xlen.bits]⟩
  · exact ⟨1, by norm_num [Xlen.bits]⟩

theorem truncX_toNat (xl : Xlen) (v : Word) : (truncX xl v).toNat = v.toNat % 2 ^ xl.bits := by
  cases xl
  · simp only [truncX, Xlen.bits, BitVec.toNat_setWidth]; omega
  · simp only [truncX, Xlen.bits]; exact (Nat.mod_eq_of_lt v.isLt).symm

theorem truncX_lt (xl : Xlen) (v : Word) : (truncX xl v).toNat < 2 ^ xl.bits := by
  rw [truncX_toNat]; exact Nat.mod_lt _ (Nat.two_pow_pos _)

theorem truncX_of_lt {xl : Xlen} {v : Word} (h : v.toNat < 2 ^ xl.bits) : truncX xl v = v := by
  apply BitVec.eq_of_toNat_eq; rw [truncX_toNat, Nat.mod_eq_of_lt h]

theorem truncX_truncX (xl : Xlen) (v : Word) : truncX xl (truncX xl v) = truncX xl v :=
  truncX_of_lt (truncX_lt xl v)

theorem truncX_getLsbD (xl : Xlen) (v : Word) (k : Nat) :
    (truncX xl v).getLsbD k = (decide (k < xl.bits) && v.getLsbD k) := by
  cases xl
  · by_cases h : k < 32
    · have h64 : k < 64 := by omega
      simp [truncX, Xlen.bits, h, h64]
    · simp [truncX, Xlen.bits, BitVec.getLsbD_setWidth, h]
  · by_cases h : k < 64
    · simp [truncX, Xlen.bits, h]
    · have : v.getLsbD k = false := BitVec.getLsbD_of_ge _ _ (by omega)
      simp [truncX, Xlen.bits, h, this]

/-- The number a word stands for modulo 2^XLEN, when the word is that number modulo 2^64. -/
theorem truncX_eq_wrapX (xl : Xlen) (v : Word) (n : Int) (h : v = BitVec.ofInt 64 n) :
    (truncX xl v).toNat = wrapX xl n := by
  subst h
  rw [truncX_toNat, wrapX, BitVec.toNat_ofInt]
  have hd : ((2 : Int) ^ xl.bits) ∣ 2 ^ 64 := by
    have := two_pow_bits_le xl
    exact_mod_cast this
  have h0 : 0 ≤ n % (2 : Int) ^ 64 := Int.emod_nonneg _ (by norm_num)
  have : ((n % (2 : Int) ^ 64).toNat % 2 ^ xl.bits : Nat) = ((n % (2 : Int) ^ 64) % 2 ^ xl.bits).toNat := by
    apply Int.ofNat.inj
    show (((n % (2 : Int) ^ 64).toNat % 2 ^ xl.bits : Nat) : Int) = (((n % (2 : Int) ^ 64) % 2 ^ xl.bits).toNat : Int)
    rw [Int.toNat_of_nonneg (Int.emod_nonneg _ (by positivity))]
    rw [Int.natCast_mod, Int.toNat_of_nonneg h0]
    norm_cast
  have hc : ((2 ^ 64 : Nat) : Int) = (2 : Int) ^ 64 := by norm_num
  rw [hc, this, Int.emod_emod_of_dvd _ hd]

theorem wrapX_of_lt {xl : Xlen} {n : Nat} (h : n < 2 ^ xl.bits) : wrapX xl (n : Int) = n := by
  have : ((n : Int) % 2 ^ xl.bits) = ((n % 2 ^ xl.bits : Nat) : Int) := by push_cast; rfl
  rw [wrapX, this, Nat.mod_eq_of_lt h]; rfl

theorem wrapX_nat (xl : Xlen) (n : Nat) : wrapX xl (n : Int) = n % 2 ^ xl.bits := by
  have : ((n : Int) % 2 ^ xl.bits) = ((n % 2 ^ xl.bits : Nat) : Int) := by push_cast; rfl
  rw [wrapX, this]; rfl

theorem signX_toInt (xl : Xlen) (v : Word) : (signX xl v).toInt = Int.bmod v.toNat (2 ^ xl.bits) := by
  cases xl
  · simp only [signX, Xlen.bits]
    rw [BitVec.toInt_signExtend_of_le (by omega), BitVec.toInt_eq_toNat_bmod, BitVec.toNat_setWidth]
    rw [Int.natCast_mod, Int.emod_bmod]
  · simp only [signX, Xlen.bits]
    exact BitVec.toInt_eq_toNat_bmod v

theorem sext32_eq (v : Word) : sext32 v = BitVec.ofInt 64 (signed32 v.toNat) := by
  rw [sext32, BitVec.signExtend, BitVec.toInt_eq_toNat_bmod, BitVec.toNat_setWidth, signed32]
  rw [Int.natCast_mod, Int.emod_bmod]

theorem sext16_eq (v : Word) : sext16 v = BitVec.ofInt 64 (Int.bmod v.toNat (2 ^ 16)) := by
  rw [sext16, BitVec.signExtend, BitVec.toInt_eq_toNat_bmod, BitVec.toNat_setWidth]
  rw [Int.natCast_mod, Int.emod_bmod]

theorem sext8_eq (v : Word) : sext8 v = BitVec.ofInt 64 (Int.bmod v.toNat (2 ^ 8)) := by
  rw [sext8, BitVec.signExtend, BitVec.toInt_eq_toNat_bmod, BitVec.toNat_setWidth]
  rw [Int.natCast_mod, Int.emod_bmod]

theorem bitAt_getLsbD (b : Bool) (j k : Nat) (hj : j < 64) :
    (bitAt b j).getLsbD k = (b && decide (k = j)) := by
  cases b
  · simp [bitAt]
  · simp only [bitAt, if_true, BitVec.getLsbD_shiftLeft, Bool.true_and]
    by_cases h : k = j
    · subst h; simp [hj]
    · by_cases h2 : k < j
      · simp [h2, h]
      · have : k - j ≠ 0 := by omega
        simp [h, this]

theorem alignWord_toNat (v : Word) : (alignWord v).toNat = v.toNat / 4 * 4 := by
  have : alignWord v = (v >>> 2) <<< 2 := by
    apply BitVec.eq_of_getLsbD_eq
    intro i hi
    simp only [alignWord, BitVec.getLsbD_and, BitVec.getLsbD_not, BitVec.getLsbD_shiftLeft, BitVec.getLsbD_ushiftRight]
    by_cases h0 : i = 0
    · subst h0; simp
    · by_cases h1 : i = 1
      · subst h1; simp
      · have h2 : ¬ i < 2 := by omega
        have h3 : (3 : Word).getLsbD i = false := by
          have : (3 : Word) = BitVec.ofNat 64 3 := rfl
          rw [this, BitVec.getLsbD_ofNat, Nat.testBit_eq_decide_div_mod_eq]
          have : 3 / 2 ^ i = 0 := Nat.div_eq_of_lt (lt_of_lt_of_le (by norm_num) (Nat.pow_le_pow_right (by norm_num) (by omega : 2 ≤ i)))
          simp [this]
        have h4 : 2 + (i - 2) = i := by omega
        rw [BitVec.getLsbD_eq_getElem hi] at h3
        have h5 : (3#64)[i] = false := h3
        simp [hi, h2, h4, h5]
  rw [this, BitVec.toNat_shiftLeft, BitVec.toNat_ushiftRight, Nat.shiftLeft_eq, Nat.shiftRight_eq_div_pow]
  have := v.isLt
  omega

theorem low2_eq (v : Word) : (v.extractLsb' 0 2).toNat = v.toNat % 4 := by
  simp [BitVec.extractLsb'_toNat]

theorem low2_eq_zero (v : Word) : v.extractLsb' 0 2 = 0#2 ↔ v.toNat % 4 = 0 := by
  rw [← low2_eq]
  constructor
  · intro h; rw [h]; rfl
  · intro h; apply BitVec.eq_of_toNat_eq; rw [h]; rfl

end Sys2Proof.Machine
end

