-- ==== Sys2Proof/Laws/Registers.lean ====
section
/-! SUPPORT. Integer registers, and the ways an instruction of the base set ends: each says once everything that differs
in the next state. -/

namespace Sys2Proof.Machine

@[simp] theorem readX_zero (s : State) : readX 0 s = 0 := rfl

theorem readX_of_ne {r : Reg} (h : r ≠ 0) (s : State) :
    readX r s = truncX s.cfg.xlen (s.xregs[r.toNat]'r.isLt) := if_neg h

theorem writeX_zero_reg (v : Word) (s : State) : writeX 0 v s = s := rfl

theorem writeX_xregs {rd : Reg} (h : rd ≠ 0) (v : Word) (s : State) :
    (writeX rd v s).xregs = s.xregs.set rd.toNat (truncX s.cfg.xlen v) rd.isLt := if_neg h

theorem readX_writeX (r rd : Reg) (v : Word) (s : State) :
    readX r (writeX rd v s) = if r = rd ∧ r ≠ 0 then truncX s.cfg.xlen v else readX r s := by
  by_cases hr : r = 0
  · subst hr
    exact (if_neg (fun e => e.2 rfl)).symm
  · by_cases hd : rd = 0
    · subst hd
      rw [writeX_zero_reg, if_neg (fun e => hr e.1)]
    · rw [readX_of_ne hr, readX_of_ne hr]
      simp only [writeX_xregs hd, writeX_cfg]
      by_cases h : r = rd
      · subst h
        rw [if_pos ⟨rfl, hr⟩, Vector.getElem_set_self, truncX_truncX]
      · rw [if_neg (fun e => h e.1),
          Vector.getElem_set_ne _ _ (fun e => h (BitVec.eq_of_toNat_eq e.symm))]

theorem readX_congr {s t : State} (hx : t.xregs = s.xregs) (hc : t.cfg = s.cfg) (r : Reg) : readX r t = readX r s := by
  simp only [readX, hx, hc]

theorem readX_lt (r : Reg) (s : State) : ux r s < 2 ^ s.cfg.xlen.bits := by
  unfold ux readX
  split
  · exact Nat.two_pow_pos _
  · exact truncX_lt _ _

theorem ux_writeX (r rd : Reg) (v : Word) (s : State) :
    ux r (writeX rd v s) = if r = rd ∧ r ≠ 0 then (truncX s.cfg.xlen v).toNat else ux r s := by
  unfold ux; rw [readX_writeX]; split <;> rfl

theorem sx_eq (r : Reg) (s : State) : (signX s.cfg.xlen (readX r s)).toInt = sx r s := by
  rw [signX_toInt]; rfl

theorem truncX_readX (r : Reg) (s : State) : truncX s.cfg.xlen (readX r s) = readX r s :=
  truncX_of_lt (readX_lt r s)

theorem readX_eq_ofInt (r : Reg) (s : State) : readX r s = BitVec.ofInt 64 (ux r s) := by
  apply BitVec.eq_of_toNat_eq
  rw [BitVec.toNat_ofInt, ux]
  have := (readX r s).isLt
  omega

theorem advancePc_movedOn (s : State) : (truncX s.cfg.xlen (s.pc + 4)).toNat = (s.pc.toNat + 4) % 2 ^ s.cfg.xlen.bits := by
  rw [truncX_toNat, BitVec.toNat_add]
  have h := two_pow_bits_le s.cfg.xlen
  have : (4 : Word).toNat = 4 := rfl
  rw [this, Nat.mod_mod_of_dvd _ h]

/-- An instruction that ends by writing `x[rd]`. -/
theorem writesReg_of_finishRd {i : Instr} {rd : Reg} {v : Word} {n : Nat} {s : State} (h : exec i s = finishRd rd v s)
    (hv : (truncX s.cfg.xlen v).toNat = n) : writesReg i rd n s := by
  refine ⟨_, h, ?_, ?_, ?_, fun _ => rfl, rfl⟩
  · intro r
    have : ux r (retire (advancePc (writeX rd v s))) = ux r (writeX rd v s) := rfl
    rw [this, ux_writeX, hv]
  · exact advancePc_movedOn s
  · rfl

/-- An instruction that only moves on. -/
theorem onlyMoves_of_finishPlain {i : Instr} {s : State} (h : exec i s = finishPlain s) : onlyMoves i s :=
  ⟨_, h, fun _ => rfl, advancePc_movedOn s, rfl, fun _ => rfl, rfl⟩

/-- A transfer of control to an aligned target. -/
theorem transferTo_aligned {target : Word} (commit s : State) (h : target.toNat % 4 = 0) :
    transferTo target commit s = .next (retire { commit with pc := target }) := by
  unfold transferTo
  rw [if_pos ((low2_eq_zero target).mpr h)]

/-- A transfer of control to a misaligned target. -/
theorem transferTo_misaligned {target : Word} (commit s : State) (h : target.toNat % 4 ≠ 0) :
    transferTo target commit s = raise { exc := .instrAddrMisaligned, tval := target } s := by
  unfold transferTo
  rw [if_neg (fun e => h ((low2_eq_zero target).mp e))]

theorem jumpsTo_of_jumpLink {i : Instr} {rd : Reg} {target : Word} {n : Nat} {s : State}
    (h : exec i s = jumpLink rd target s) (ht : target.toNat = n) (ha : n % 4 = 0) :
    jumpsTo i n rd (wrapX s.cfg.xlen (s.pc.toNat + 4)) s := by
  subst ht
  refine ⟨_, h.trans (transferTo_aligned _ s ha), ?_, rfl, rfl, fun _ => rfl, rfl⟩
  intro r
  have : ux r (retire { writeX rd (s.pc + 4) s with pc := target }) = ux r (writeX rd (s.pc + 4) s) := rfl
  rw [this, ux_writeX, truncX_eq_wrapX _ _ ((s.pc.toNat : Int) + 4)]
  apply BitVec.eq_of_toNat_eq
  rw [BitVec.toNat_ofInt, BitVec.toNat_add]
  have : (4 : Word).toNat = 4 := rfl
  rw [this]
  omega

/-- A conditional branch, taken or not, that meets no misaligned target. -/
theorem branchesTo_of_branch {i : Instr} {b : Bool} {imm : BitVec 12} {s : State} {target : Word} {dest next : Nat}
    (h : exec i s = branch b imm s) (ht : target = truncX s.cfg.xlen (s.pc + immB imm)) (hd : target.toNat = dest)
    (hn : next = (s.pc.toNat + 4) % 2 ^ s.cfg.xlen.bits) (ha : b = true → dest % 4 = 0) :
    branchesTo i (if b then dest else next) s := by
  subst ht hd hn
  cases b with
  | false => exact ⟨_, h, fun _ => rfl, advancePc_movedOn s, rfl, fun _ => rfl, rfl⟩
  | true => exact ⟨_, h.trans (transferTo_aligned _ s (ha rfl)), fun _ => rfl, rfl, rfl, fun _ => rfl, rfl⟩

end Sys2Proof.Machine
end

