-- ==== Sys2Proof/Laws/Operands.lean ====
section
/-! SUPPORT. The operand forms, the comparisons and the shifts as operations on numbers. -/

namespace Sys2Proof.Machine

/-! ### Words as numbers modulo 2^64 -/

theorem ofInt_toNat (v : Word) : v = BitVec.ofInt 64 (v.toNat : Int) := by
  apply BitVec.eq_of_toNat_eq
  rw [BitVec.toNat_ofInt]
  have := v.isLt
  omega

theorem add_eq_ofInt {a b : Word} {m n : Int} (ha : a = BitVec.ofInt 64 m) (hb : b = BitVec.ofInt 64 n) :
    a + b = BitVec.ofInt 64 (m + n) := by
  rw [ha, hb, BitVec.ofInt_add]

theorem sub_eq_ofInt {a b : Word} {m n : Int} (ha : a = BitVec.ofInt 64 m) (hb : b = BitVec.ofInt 64 n) :
    a - b = BitVec.ofInt 64 (m - n) := by
  rw [ha, hb, BitVec.sub_eq_add_neg, ← BitVec.ofInt_neg, ← BitVec.ofInt_add, Int.sub_eq_add_neg]

theorem wrapX_truncX_sum (xl : Xlen) {a b : Word} {m n : Int} (ha : a = BitVec.ofInt 64 m) (hb : b = BitVec.ofInt 64 n) :
    (truncX xl (a + b)).toNat = wrapX xl (m + n) :=
  truncX_eq_wrapX xl _ _ (add_eq_ofInt ha hb)

/-! ### Immediates (R282) -/

theorem signExtend_eq_ofInt {w : Nat} (v : BitVec w) : v.signExtend 64 = BitVec.ofInt 64 v.toInt := rfl

theorem append_zero_toInt {w n : Nat} (hw : 0 < w) (v : BitVec w) : (v ++ (0 : BitVec n)).toInt = v.toInt * 2 ^ n := by
  rw [BitVec.toInt_eq_msb_cond, BitVec.toInt_eq_msb_cond]
  have hn : (v ++ (0 : BitVec n)).toNat = v.toNat * 2 ^ n := by
    rw [BitVec.toNat_append, Nat.shiftLeft_eq]; simp
  have hm : (v ++ (0 : BitVec n)).msb = v.msb := by
    rw [BitVec.msb_append]; simp [Nat.pos_iff_ne_zero.mp hw]
  rw [hn, hm]
  split
  · push_cast
    rw [sub_mul, ← pow_add]
  · push_cast; rfl

theorem imm12_eq (imm : BitVec 12) : imm12 imm = BitVec.ofInt 64 imm.toInt := rfl

theorem immB_eq (imm : BitVec 12) : immB imm = BitVec.ofInt 64 (2 * imm.toInt) := by
  rw [immB, signExtend_eq_ofInt]
  have := append_zero_toInt (n := 1) (by norm_num) imm
  rw [show (0b0#1 : BitVec 1) = 0 from rfl, this, mul_comm]
  rfl

theorem immJ_eq (imm : BitVec 20) : immJ imm = BitVec.ofInt 64 (2 * imm.toInt) := by
  rw [immJ, signExtend_eq_ofInt]
  have := append_zero_toInt (n := 1) (by norm_num) imm
  rw [show (0b0#1 : BitVec 1) = 0 from rfl, this, mul_comm]
  rfl

theorem immU_eq (imm : BitVec 20) : immU imm = BitVec.ofInt 64 (imm.toInt * 4096) := by
  rw [immU, signExtend_eq_ofInt]
  have := append_zero_toInt (n := 12) (by norm_num) imm
  rw [show (0x000#12 : BitVec 12) = 0 from rfl, this]
  rfl

theorem effAddr_toNat (rs1 : Reg) (imm : BitVec 12) (s : State) :
    (effAddr rs1 imm s).toNat = wrapX s.cfg.xlen (ux rs1 s + imm.toInt) :=
  wrapX_truncX_sum _ (readX_eq_ofInt rs1 s) (imm12_eq imm)

theorem branchTarget_toNat (imm : BitVec 12) (s : State) :
    (truncX s.cfg.xlen (s.pc + immB imm)).toNat = wrapX s.cfg.xlen (s.pc.toNat + 2 * imm.toInt) :=
  wrapX_truncX_sum _ (ofInt_toNat s.pc) (immB_eq imm)

theorem jalTarget_toNat (imm : BitVec 20) (s : State) :
    (truncX s.cfg.xlen (s.pc + immJ imm)).toNat = wrapX s.cfg.xlen (s.pc.toNat + 2 * imm.toInt) :=
  wrapX_truncX_sum _ (ofInt_toNat s.pc) (immJ_eq imm)

theorem clearBit0_toNat (v : Word) : (v &&& ~~~(1 : Word)).toNat = v.toNat / 2 * 2 := by
  have : v &&& ~~~(1 : Word) = (v >>> 1) <<< 1 := by
    apply BitVec.eq_of_getLsbD_eq
    intro i hi
    by_cases h : i = 0
    · subst h; simp
    · have h1 : 1 + (i - 1) = i := by omega
      have h2 : (1 : Word).getLsbD i = false := by
        rw [show (1 : Word) = 1#64 from rfl, BitVec.getLsbD_one]
        simp [h]
      have h3 : ¬ i < 1 := by omega
      simp only [BitVec.getLsbD_and, BitVec.getLsbD_not, BitVec.getLsbD_shiftLeft, BitVec.getLsbD_ushiftRight, h2, h3, hi,
        h1, decide_true, decide_false, Bool.not_false, Bool.and_true, Bool.true_and]
  rw [this, BitVec.toNat_shiftLeft, BitVec.toNat_ushiftRight, Nat.shiftLeft_eq, Nat.shiftRight_eq_div_pow]
  have := v.isLt
  omega

theorem jalrTarget_toNat (rs1 : Reg) (imm : BitVec 12) (s : State) :
    (truncX s.cfg.xlen (readX rs1 s + imm12 imm) &&& ~~~(1 : Word)).toNat =
      wrapX s.cfg.xlen (ux rs1 s + imm.toInt) / 2 * 2 := by
  rw [clearBit0_toNat]
  exact congrArg (· / 2 * 2) (effAddr_toNat rs1 imm s)

/-! ### Comparisons (R401) -/

theorem cmpEq_iff (xl : Xlen) (a b : Word) : cmpEq xl a b = true ↔ (truncX xl a).toNat = (truncX xl b).toNat := by
  rw [cmpEq, beq_iff_eq]
  exact ⟨fun h => by rw [h], BitVec.eq_of_toNat_eq⟩

theorem cmpLt_iff (xl : Xlen) (a b : Word) :
    cmpLt xl a b = true ↔ Int.bmod a.toNat (2 ^ xl.bits) < Int.bmod b.toNat (2 ^ xl.bits) := by
  rw [cmpLt, BitVec.slt, decide_eq_true_eq, signX_toInt, signX_toInt]

theorem cmpLtu_iff (xl : Xlen) (a b : Word) : cmpLtu xl a b = true ↔ (truncX xl a).toNat < (truncX xl b).toNat := by
  rw [cmpLtu, BitVec.ult, decide_eq_true_eq]

theorem cmpEq_regs (r q : Reg) (s : State) : cmpEq s.cfg.xlen (readX r s) (readX q s) = true ↔ ux r s = ux q s := by
  rw [cmpEq_iff, truncX_readX, truncX_readX]; rfl

theorem cmpLt_regs (r q : Reg) (s : State) : cmpLt s.cfg.xlen (readX r s) (readX q s) = true ↔ sx r s < sx q s :=
  cmpLt_iff _ _ _

theorem cmpLtu_regs (r q : Reg) (s : State) : cmpLtu s.cfg.xlen (readX r s) (readX q s) = true ↔ ux r s < ux q s := by
  rw [cmpLtu_iff, truncX_readX, truncX_readX]; rfl

theorem bmod_wrapX (xl : Xlen) (n : Int) : Int.bmod (wrapX xl n : Int) (2 ^ xl.bits) = Int.bmod n (2 ^ xl.bits) := by
  have h : (wrapX xl n : Int) = n % ((2 ^ xl.bits : Nat) : Int) := by
    rw [wrapX, Int.toNat_of_nonneg (Int.emod_nonneg _ (by positivity))]
    push_cast; rfl
  rw [h, Int.emod_bmod]

theorem bmod_of_small (xl : Xlen) {n : Int} (h1 : -2 ^ 31 ≤ n) (h2 : n < 2 ^ 31) : Int.bmod n (2 ^ xl.bits) = n := by
  cases xl
  · exact Int.bmod_eq_of_le (by norm_num [Xlen.bits]; omega) (by norm_num [Xlen.bits]; omega)
  · exact Int.bmod_eq_of_le (by norm_num [Xlen.bits]; omega) (by norm_num [Xlen.bits]; omega)

theorem bmod_word (xl : Xlen) (v : Word) (n : Int) (h : v = BitVec.ofInt 64 n) :
    Int.bmod v.toNat (2 ^ xl.bits) = Int.bmod n (2 ^ xl.bits) := by
  rw [← bmod_wrapX xl n, ← truncX_eq_wrapX xl v n h, truncX_toNat, Int.natCast_mod, Int.emod_bmod]

theorem boolWord_toNat (xl : Xlen) (b : Bool) : (truncX xl (boolWord b)).toNat = if b then 1 else 0 := by
  cases xl <;> cases b <;> rfl

/-! ### Shifts (R401) -/

theorem ofInt_shiftLeft {a : Word} {m : Int} (ha : a = BitVec.ofInt 64 m) (n : Nat) :
    a <<< n = BitVec.ofInt 64 (m * 2 ^ n) := by
  subst ha
  rw [BitVec.shiftLeft_eq_mul_twoPow, BitVec.ofInt_mul]
  congr 1
  apply BitVec.eq_of_toNat_eq
  rw [BitVec.toNat_twoPow, BitVec.toNat_ofInt]
  have : ((2 : Int) ^ n) = ((2 ^ n : Nat) : Int) := by push_cast; rfl
  rw [this, ← Int.natCast_mod, Int.toNat_natCast]

theorem shiftRightU_toNat (xl : Xlen) (a : Word) (n : Nat) :
    (shiftRightU xl a n).toNat = (truncX xl a).toNat / 2 ^ n := by
  rw [shiftRightU, BitVec.toNat_ushiftRight, Nat.shiftRight_eq_div_pow]

theorem sshiftRight_eq_ofInt (v : Word) (n : Nat) : v.sshiftRight n = BitVec.ofInt 64 (v.toInt / 2 ^ n) := by
  rw [BitVec.sshiftRight, Int.shiftRight_eq_div_pow]
  push_cast; rfl

theorem shiftRightS_eq (xl : Xlen) (a : Word) (n : Nat) :
    shiftRightS xl a n = BitVec.ofInt 64 (Int.bmod a.toNat (2 ^ xl.bits) / 2 ^ n) := by
  rw [shiftRightS, sshiftRight_eq_ofInt, signX_toInt]

theorem shiftAmount_eq (r : Reg) (s : State) : shiftAmount s.cfg.xlen (readX r s) = ux r s % s.cfg.xlen.bits := by
  unfold shiftAmount ux
  cases s.cfg.xlen <;> simp [Xlen.bits, BitVec.toNat_setWidth]

theorem shiftAmountW_eq (r : Reg) (s : State) : shiftAmountW (readX r s) = ux r s % 32 := by
  simp [shiftAmountW, ux, BitVec.toNat_setWidth]

theorem truncX_and (xl : Xlen) (a b : Word) : truncX xl (a &&& b) = truncX xl a &&& truncX xl b := by
  apply BitVec.eq_of_getLsbD_eq
  intro i hi
  simp only [truncX_getLsbD, BitVec.getLsbD_and]
  cases decide (i < xl.bits) <;> simp

theorem truncX_or (xl : Xlen) (a b : Word) : truncX xl (a ||| b) = truncX xl a ||| truncX xl b := by
  apply BitVec.eq_of_getLsbD_eq
  intro i hi
  simp only [truncX_getLsbD, BitVec.getLsbD_or]
  cases decide (i < xl.bits) <;> simp

theorem truncX_xor (xl : Xlen) (a b : Word) : truncX xl (a ^^^ b) = truncX xl a ^^^ truncX xl b := by
  apply BitVec.eq_of_getLsbD_eq
  intro i hi
  simp only [truncX_getLsbD, BitVec.getLsbD_xor]
  cases decide (i < xl.bits) <;> simp

/-! ### The word instructions of RV64 -/

theorem signed32_ofInt {v : Word} {n : Int} (h : v = BitVec.ofInt 64 n) : signed32 v.toNat = signed32 n := by
  subst h
  unfold signed32
  rw [BitVec.toNat_ofInt, Int.toNat_of_nonneg (Int.emod_nonneg _ (by norm_num))]
  have : ((2 ^ 32 : Nat) : Int) ∣ ((2 ^ 64 : Nat) : Int) := by norm_num
  rw [← Int.emod_bmod, Int.emod_emod_of_dvd _ this, Int.emod_bmod]

theorem signed32_bounds (n : Int) : -2 ^ 31 ≤ signed32 n ∧ signed32 n < 2 ^ 31 := by
  unfold signed32
  have h1 := Int.le_bmod (x := n) (m := 2 ^ 32) (by norm_num)
  have h2 := Int.bmod_lt (x := n) (m := 2 ^ 32) (by norm_num)
  norm_num at h1 h2 ⊢
  omega

theorem sext32_toInt (v : Word) : (sext32 v).toInt = signed32 v.toNat := by
  unfold sext32 signed32
  rw [BitVec.toInt_signExtend_of_le (by omega), BitVec.toInt_eq_toNat_bmod, BitVec.toNat_setWidth, Int.natCast_mod,
    Int.emod_bmod]

theorem shiftRightSW_eq (a : Word) (n : Nat) : shiftRightSW a n = BitVec.ofInt 64 (signed32 a.toNat / 2 ^ n) := by
  rw [shiftRightSW, sext32_eq, signed32_ofInt (sshiftRight_eq_ofInt _ _), sext32_toInt]
  refine congrArg (BitVec.ofInt 64) ?_
  have hb := signed32_bounds a.toNat
  have hp : (1 : Int) ≤ 2 ^ n := by
    have : (0 : Int) < 2 ^ n := by positivity
    omega
  have hd : -2 ^ 31 ≤ signed32 a.toNat / 2 ^ n ∧ signed32 a.toNat / 2 ^ n < 2 ^ 31 := by
    constructor
    · rw [Int.le_ediv_iff_mul_le (by omega)]
      nlinarith [hb.1]
    · rw [Int.ediv_lt_iff_lt_mul (by omega)]
      nlinarith [hb.2]
  unfold signed32 at *
  exact Int.bmod_eq_of_le (by norm_num at hd ⊢; omega) (by norm_num at hd ⊢; omega)

/-! ### Instructions that write a register -/

theorem writesReg_of_ofInt {i : Instr} {rd : Reg} {v : Word} {n : Nat} {m : Int} {s : State}
    (h : exec i s = finishRd rd v s) (hv : v = BitVec.ofInt 64 m) (hn : n = wrapX s.cfg.xlen m) : writesReg i rd n s :=
  writesReg_of_finishRd h (hn ▸ truncX_eq_wrapX _ _ _ hv)

theorem writesReg_of_bool {i : Instr} {rd : Reg} {b : Bool} {P : Prop} [Decidable P] {s : State}
    (h : exec i s = finishRd rd (boolWord b) s) (hb : b = true ↔ P) : writesReg i rd (if P then 1 else 0) s := by
  refine writesReg_of_finishRd h ?_
  rw [boolWord_toNat]
  simp [hb]

theorem writesReg_of_toNat {i : Instr} {rd : Reg} {v : Word} {n : Nat} {s : State} (h : exec i s = finishRd rd v s)
    (hv : v.toNat = n) (hn : n < 2 ^ s.cfg.xlen.bits) : writesReg i rd n s := by
  refine writesReg_of_finishRd h ?_
  rw [truncX_of_lt (by omega), hv]

theorem shiftImm_of_lt {i : Instr} {shamt : BitVec 6} {rd : Reg} {v : Word} {s : State}
    (h : shamt.toNat < s.cfg.xlen.bits) : shiftImm i shamt rd v s = finishRd rd v s := by
  unfold shiftImm
  rw [if_pos]
  cases hx : s.cfg.xlen <;> simp [hx, Xlen.bits] at h ⊢
  exact h

theorem onRv64_rv64 {i : Instr} {s : State} {o : Host.Outcome State Fault Refusal} (h : s.cfg.xlen = .rv64) :
    onRv64 i s o = o := if_pos h

end Sys2Proof.Machine
end

