-- ==== Sys2Proof/Laws/Access.lean ====
section
/-! SUPPORT. One memory access: what the checks answer, and what a load, a store and a fetch do once they have passed. -/

namespace Sys2Proof.Machine

theorem regionContains_iff (r : Region) (pa n : Nat) :
    regionContains r pa n = true ↔ r.base ≤ pa ∧ pa + n ≤ r.base + r.size := by
  simp [regionContains]

/-- What each kind of region permits of an access that starts inside it. -/
theorem regionPermits_iff {r : Region} {pa : Nat} (h : r.base ≤ pa) (t : AccessType) (n : Nat) :
    regionPermits r t pa n = true ↔
      match r.kind with
      | .ram => True
      | .rom => t ≠ .W
      | .dev .msip => t ≠ .X ∧ n = 4 ∧ pa = r.base
      | .dev _ => t ≠ .X ∧ ((n = 4 ∧ (pa = r.base ∨ pa = r.base + 4)) ∨ (n = 8 ∧ pa = r.base)) := by
  have h0 : pa - r.base = 0 ↔ pa = r.base := by omega
  have h4 : pa - r.base = 4 ↔ pa = r.base + 4 := by omega
  unfold regionPermits
  rcases r.kind with _ | _ | d
  · simp
  · simp
  · cases d <;> simp [deviceAccepts, h0, h4]

theorem regionServes_iff (r : Region) (t : AccessType) (pa n : Nat) :
    regionServes r t pa n ↔ regionContains r pa n = true ∧ regionPermits r t pa n = true := by
  rw [regionContains_iff]
  exact ⟨fun h => ⟨⟨h.1, h.2.1⟩, (regionPermits_iff h.1 t n).mpr h.2.2⟩,
    fun h => ⟨h.1.1, h.1.2, (regionPermits_iff h.1.1 t n).mp h.2⟩⟩

/-- The region an access is served by is in the map, holds it and permits it. -/
theorem findRegion_some {t : AccessType} {pa n : Nat} {s : State} {r : Region} (h : findRegion t pa n s = some r) :
    r ∈ s.cfg.memMap ∧ regionServes r t pa n := by
  unfold findRegion at h
  split at h
  · rename_i q hq
    split at h
    · rename_i hp
      cases h
      have hf : regionContains r pa n = true := List.find?_some (p := fun r => regionContains r pa n) hq
      exact ⟨List.mem_of_find?_eq_some hq, (regionServes_iff _ _ _ _).mpr ⟨hf, hp⟩⟩
    · cases h
  · cases h

/-- In a list of disjoint regions at most one holds an access of at least one byte. -/
theorem region_unique {l : List Region} (hd : l.Pairwise (fun r q => r.base + r.size ≤ q.base ∨ q.base + q.size ≤ r.base))
    {pa n : Nat} (hn : 0 < n) {r q : Region} (hr : r ∈ l) (hq : q ∈ l) (h1 : regionContains r pa n = true)
    (h2 : regionContains q pa n = true) : r = q := by
  rw [regionContains_iff] at h1 h2
  induction l with
  | nil => cases hr
  | cons x l ih =>
    rw [List.pairwise_cons] at hd
    rcases List.mem_cons.mp hr with rfl | hr' <;> rcases List.mem_cons.mp hq with rfl | hq'
    · rfl
    · have := hd.1 q hq'
      omega
    · have := hd.1 r hr'
      omega
    · exact ih hd.2 hr' hq'

/-- Where the regions are disjoint, a region that serves an access is the one found. -/
theorem findRegion_of_serves {t : AccessType} {pa n : Nat} {s : State} {r : Region} (hd : mapDisjoint s.cfg) (hn : 0 < n)
    (hr : r ∈ s.cfg.memMap) (h : regionServes r t pa n) : findRegion t pa n s = some r := by
  obtain ⟨hc, hp⟩ := (regionServes_iff _ _ _ _).mp h
  unfold findRegion
  cases hf : s.cfg.memMap.find? (fun r => regionContains r pa n) with
  | none => exact absurd hc (List.find?_eq_none.mp hf r hr)
  | some q =>
    have hq : regionContains q pa n = true := List.find?_some (p := fun r => regionContains r pa n) hf
    obtain rfl := region_unique hd hn hr (List.mem_of_find?_eq_some hf) hc hq
    exact if_pos hp

theorem checkAccess_ok {t : AccessType} {ea : Word} {n : Nat} {s : State} {r : Region} (h : checkAccess t ea n s = .ok r) :
    (t ≠ .X → ea.toNat % n = 0) ∧ ea.toNat < 2 ^ s.cfg.palen ∧ pmpCheck ea.toNat n t (effPriv t s) s = true ∧
      r ∈ s.cfg.memMap ∧ regionServes r t ea.toNat n := by
  unfold checkAccess at h
  split at h
  · cases h
  · rename_i h1
    split at h
    · cases h
    · rename_i h2
      split at h
      · cases h
      · rename_i h3
        split at h
        · rename_i q hq
          cases h
          exact ⟨fun ht => by_contra fun e => h1 ⟨ht, e⟩, by omega, by simpa using h3, findRegion_some hq⟩
        · cases h

/-- A failed check names the exception of the access's kind, with the address as trap value. -/
theorem checkAccess_error {t : AccessType} {ea : Word} {n : Nat} {s : State} {e : Raised}
    (h : checkAccess t ea n s = .error e) :
    e = { exc := accessFaultExc t, tval := ea } ∨ (t ≠ .X ∧ ea.toNat % n ≠ 0 ∧ e = { exc := misalignedExc t, tval := ea }) := by
  unfold checkAccess at h
  split at h
  · rename_i h1
    cases h
    exact .inr ⟨h1.1, h1.2, rfl⟩
  · split at h
    · cases h; exact .inl rfl
    · split at h
      · cases h; exact .inl rfl
      · split at h
        · cases h
        · cases h; exact .inl rfl

/-! ### Loads and stores -/

theorem loadInstr_ok {sz : MemSize} {ext : Word → Word} {rd rs1 : Reg} {imm : BitVec 12} {s : State} {r : Region}
    (h : checkAccess .R (effAddr rs1 imm s) sz.bytes s = .ok r) :
    loadInstr sz ext rd rs1 imm s = finishRd rd (ext (regionRead r (effAddr rs1 imm s).toNat sz.bytes s)) s := by
  simp only [loadInstr, load, h]

theorem loadInstr_error {sz : MemSize} {ext : Word → Word} {rd rs1 : Reg} {imm : BitVec 12} {s : State} {e : Raised}
    (h : checkAccess .R (effAddr rs1 imm s) sz.bytes s = .error e) : loadInstr sz ext rd rs1 imm s = raise e s := by
  simp only [loadInstr, load, h]

theorem storeInstr_ok {sz : MemSize} {rs2 rs1 : Reg} {imm : BitVec 12} {s : State} {r : Region}
    (h : checkAccess .W (effAddr rs1 imm s) sz.bytes s = .ok r) :
    storeInstr sz rs2 rs1 imm s =
      finishPlain (regionWrite r (effAddr rs1 imm s).toNat sz.bytes (readX rs2 s) s) := by
  simp only [storeInstr, store, h]

theorem storeInstr_error {sz : MemSize} {rs2 rs1 : Reg} {imm : BitVec 12} {s : State} {e : Raised}
    (h : checkAccess .W (effAddr rs1 imm s) sz.bytes s = .error e) : storeInstr sz rs2 rs1 imm s = raise e s := by
  simp only [storeInstr, store, h]

theorem regionRead_memory {r : Region} (h : isMemory r) (pa n : Nat) (s : State) :
    regionRead r pa n s = readLE s.mem pa n := by
  unfold regionRead
  rcases h with h | h <;> rw [h]

theorem regionWrite_memory {r : Region} (h : isMemory r) (pa n : Nat) (v : Word) (s : State) :
    regionWrite r pa n v s = { s with mem := writeLE s.mem pa n v } := by
  unfold regionWrite
  rcases h with h | h <;> rw [h]

theorem regionRead_device {r : Region} {d : Device} (h : r.kind = .dev d) (pa n : Nat) (s : State) :
    regionRead r pa n s = deviceRead d (pa - r.base) n s := by
  unfold regionRead
  rw [h]

theorem regionWrite_device {r : Region} {d : Device} (h : r.kind = .dev d) (pa n : Nat) (v : Word) (s : State) :
    regionWrite r pa n v s = deviceWrite d (pa - r.base) n v s := by
  unfold regionWrite
  rw [h]

end Sys2Proof.Machine
end

