-- ==== Sys2Proof/Laws/Csr.lean ====
section
/-! SUPPORT. A completed CSR access, and the CSR values bit by bit. -/

namespace Sys2Proof.Machine

/-! ### A completed access (R320) -/

/-- The state after the write of a completed access, before the instruction moves on. -/
def csrWritten (c : Csr) (w : Bool) (f : Word → Word) (s : State) : State :=
  if w then csrWrite c (f (csrRmwBase c s)) s else s

/-- A completed access changes what the write of the register changes, and the destination, `pc` and `minstret`. -/
theorem csrComplete_frame (c : Csr) (w : Bool) (rd : Reg) (f : Word → Word) (s : State) :
    csrComplete c w rd f s =
      { csrWritten c w f s with
        xregs := (csrComplete c w rd f s).xregs
        pc := (csrComplete c w rd f s).pc
        minstret := (csrComplete c w rd f s).minstret } := by
  unfold csrComplete retireCsr
  simp only []
  split <;> rfl

theorem csrWritten_cases {P : State → Prop} (c : Csr) (w : Bool) (f : Word → Word) (s : State) (h0 : P s)
    (h1 : ∀ v, P (csrWrite c v s)) : P (csrWritten c w f s) := by
  cases w
  · exact h0
  · exact h1 _

@[simp] theorem csrComplete_cfg (c : Csr) (w : Bool) (rd : Reg) (f : Word → Word) (s : State) :
    (csrComplete c w rd f s).cfg = s.cfg := by
  rw [csrComplete_frame]
  exact csrWritten_cases (P := fun t => t.cfg = s.cfg) c w f s rfl (fun v => csrWrite_cfg c v s)

@[simp] theorem csrComplete_priv (c : Csr) (w : Bool) (rd : Reg) (f : Word → Word) (s : State) :
    (csrComplete c w rd f s).priv = s.priv := by
  rw [csrComplete_frame]
  exact csrWritten_cases (P := fun t => t.priv = s.priv) c w f s rfl (fun v => csrWrite_priv c v s)

@[simp] theorem csrComplete_mem (c : Csr) (w : Bool) (rd : Reg) (f : Word → Word) (s : State) :
    (csrComplete c w rd f s).mem = s.mem := by
  rw [csrComplete_frame]
  exact csrWritten_cases (P := fun t => t.mem = s.mem) c w f s rfl (fun v => csrWrite_mem c v s)

theorem csrComplete_xregs (c : Csr) (w : Bool) (rd : Reg) (f : Word → Word) (s : State) :
    (csrComplete c w rd f s).xregs = (writeX rd (csrRead c s) s).xregs := by
  unfold csrComplete retireCsr
  simp only []
  cases w
  · rfl
  · simp only [if_true, Bool.true_and]
    split <;> simp [writeX]

theorem csrComplete_pc (c : Csr) (w : Bool) (rd : Reg) (f : Word → Word) (s : State) :
    (csrComplete c w rd f s).pc = truncX s.cfg.xlen (s.pc + 4) := by
  unfold csrComplete retireCsr
  simp only []
  cases w
  · rfl
  · simp only [if_true, Bool.true_and]
    split <;> simp

/-! ### Values (R107, R331) -/

theorem csrRead_getLsbD (c : Csr) (s : State) (k : Nat) :
    (csrRead c s).getLsbD k = (decide (k < s.cfg.xlen.bits) && (csrValue c s).getLsbD k) := truncX_getLsbD _ _ _

theorem getLsbD_of_small (w : Word) (hw : w.toNat < 2 ^ 32) {k : Nat} (h : 32 ≤ k) : w.getLsbD k = false := by
  rw [BitVec.getLsbD, Nat.testBit_lt_two_pow (lt_of_lt_of_le hw (Nat.pow_le_pow_right (by norm_num) h))]

theorem lt_bits_of_lt (xl : Xlen) {k : Nat} (h : k < 32) : k < xl.bits := by
  cases xl <;> simp [Xlen.bits] <;> omega

theorem truncX_low (xl : Xlen) (v : Word) {k : Nat} (hk : k < 32) : (truncX xl v).getLsbD k = v.getLsbD k := by
  rw [truncX_getLsbD]
  simp [lt_bits_of_lt xl hk]

theorem mppField_getLsbD (p : Priv) (k : Nat) :
    (mppField p).getLsbD k =
      ((decide (k = 11) && decide (p.level % 2 = 1)) || (decide (k = 12) && decide (p.level / 2 = 1))) := by
  by_cases h : k < 64
  · cases p <;> interval_cases k <;> rfl
  · rw [BitVec.getLsbD_of_ge _ _ (by omega)]
    have h1 : k ≠ 11 := by omega
    have h2 : k ≠ 12 := by omega
    simp [h1, h2]

theorem xlFields_getLsbD (c : Config) (k : Nat) :
    (xlFields c).getLsbD k =
      (c.xlen == .rv64 && ((c.hasU && decide (k = 33)) || (c.hasS && decide (k = 35)))) := by
  unfold xlFields
  cases h : c.xlen
  · simp
  · rw [BitVec.getLsbD_or, bitAt_getLsbD _ _ _ (by norm_num), bitAt_getLsbD _ _ _ (by norm_num)]
    rfl

/-- The fields of `mstatus` in their places (R84, R85). -/
theorem mstatusWord_getLsbD (c : Config) (m : Mstatus) (k : Nat) :
    (mstatusWord c m).getLsbD k =
      match k with
      | 0 => m.uie
      | 1 => m.sie
      | 3 => m.mie
      | 4 => m.upie
      | 5 => m.spie
      | 7 => m.mpie
      | 8 => m.spp
      | 11 => decide (m.mpp.level % 2 = 1)
      | 12 => decide (m.mpp.level / 2 = 1)
      | 17 => m.mprv
      | 18 => m.sum
      | 19 => m.mxr
      | 20 => m.tvm
      | 21 => m.tw
      | 22 => m.tsr
      | 33 => c.xlen == .rv64 && c.hasU
      | 35 => c.xlen == .rv64 && c.hasS
      | _ => false := by
  simp only [mstatusWord, BitVec.getLsbD_or, mppField_getLsbD, xlFields_getLsbD]
  repeat rw [bitAt_getLsbD _ _ _ (by norm_num)]
  by_cases h : k < 36
  · interval_cases k <;> simp
  · obtain ⟨j, rfl⟩ : ∃ j, k = j + 36 := ⟨k - 36, by omega⟩
    simp

theorem mipWord_getLsbD (f : Nat → Bool) (hf : ∀ k, k ∉ [0, 1, 3, 4, 5, 7, 8, 9, 11] → f k = false) (k : Nat) :
    (mipWord f).getLsbD k = f k := by
  unfold mipWord
  simp only [BitVec.getLsbD_or]
  repeat rw [bitAt_getLsbD _ _ _ (by norm_num)]
  by_cases h : k < 12
  · interval_cases k <;> first | (simp; done) | (simp; exact hf _ (by decide))
  · rw [hf k (by simp; omega)]
    have e : ∀ n, n < 12 → decide (k = n) = false := fun n hn => decide_eq_false (by omega)
    simp only [e 0 (by norm_num), e 1 (by norm_num), e 3 (by norm_num), e 4 (by norm_num), e 5 (by norm_num),
      e 7 (by norm_num), e 8 (by norm_num), e 9 (by norm_num), e 11 (by norm_num), Bool.and_false, Bool.or_false]

theorem mipBit_of_not_mem (s : State) (k : Nat) (hk : k ∉ [0, 1, 3, 4, 5, 7, 8, 9, 11]) : mipBit s k = false := by
  unfold mipBit
  split <;> first | rfl | (exfalso; revert hk; decide)

theorem mipSwBit_of_not_mem (s : State) (k : Nat) (hk : k ∉ [0, 1, 3, 4, 5, 7, 8, 9, 11]) : mipSwBit s k = false := by
  unfold mipSwBit
  split
  · exfalso; revert hk; decide
  · exfalso; revert hk; decide
  · exact mipBit_of_not_mem s k hk

theorem mipValue_getLsbD (s : State) (k : Nat) : (mipValue s).getLsbD k = mipBit s k :=
  mipWord_getLsbD _ (mipBit_of_not_mem s) k

theorem mipSwValue_getLsbD (s : State) (k : Nat) : (mipSwValue s).getLsbD k = mipSwBit s k :=
  mipWord_getLsbD _ (mipSwBit_of_not_mem s) k

theorem lowerIntMask_getLsbD (c : Config) (k : Nat) :
    (lowerIntMask c).getLsbD k = ((c.hasS && (0x222 : Word).getLsbD k) || (c.hasN && (0x111 : Word).getLsbD k)) := by
  unfold lowerIntMask
  rw [BitVec.getLsbD_or]
  cases c.hasS <;> cases c.hasN <;> simp

theorem uDelegated_getLsbD (s : State) (k : Nat) :
    (uDelegated s).getLsbD k = (s.mideleg.getLsbD k && (!s.cfg.hasS || s.sideleg.getLsbD k)) := by
  unfold uDelegated
  cases s.cfg.hasS <;> simp

theorem legalTvec_toNat (old v : Word) :
    (legalTvec old v).toNat = v.toNat / 4 * 4 + (if v.toNat % 4 < 2 then v.toNat % 4 else old.toNat % 4) := by
  unfold legalTvec
  rw [low2_eq]
  split
  · omega
  · have h3 : (old &&& 3).toNat = old.toNat % 4 := by
      rw [BitVec.toNat_and]
      exact Nat.and_two_pow_sub_one_eq_mod old.toNat 2
    have hd : alignWord v &&& (old &&& 3) = 0 := by
      unfold alignWord
      apply BitVec.eq_of_getLsbD_eq
      intro i hi
      simp only [BitVec.getLsbD_and, BitVec.getLsbD_not]
      cases (3 : Word).getLsbD i <;> simp
    rw [← BitVec.add_eq_or_of_and_eq_zero _ _ hd, BitVec.toNat_add, alignWord_toNat, h3]
    have := v.isLt
    omega

/-! ### What a CSR write can do (R330) -/

/-- The trap registers a CSR write may leave at one level: each as before, or written with an XLEN-bit value made legal. -/
structure TrapRegsWritten (xl : Xlen) (old new : TrapRegs) : Prop where
  tvec : new.tvec = old.tvec ∨ ∃ v : Word, v.toNat < 2 ^ xl.bits ∧ new.tvec = legalTvec old.tvec v
  scratch : new.scratch = old.scratch ∨ new.scratch.toNat < 2 ^ xl.bits
  epc : new.epc = old.epc ∨ ∃ v : Word, v.toNat < 2 ^ xl.bits ∧ new.epc = alignWord v
  cause : new.cause = old.cause ∨ new.cause.toNat < 2 ^ xl.bits
  tval : new.tval = old.tval ∨ new.tval.toNat < 2 ^ xl.bits

theorem TrapRegsWritten.of_tvec {xl : Xlen} (old : TrapRegs) {v : Word} (h : v.toNat < 2 ^ xl.bits) :
    TrapRegsWritten xl old { old with tvec := legalTvec old.tvec v } :=
  ⟨.inr ⟨v, h, rfl⟩, .inl rfl, .inl rfl, .inl rfl, .inl rfl⟩

theorem TrapRegsWritten.of_scratch {xl : Xlen} (old : TrapRegs) {v : Word} (h : v.toNat < 2 ^ xl.bits) :
    TrapRegsWritten xl old { old with scratch := v } := ⟨.inl rfl, .inr h, .inl rfl, .inl rfl, .inl rfl⟩

theorem TrapRegsWritten.of_epc {xl : Xlen} (old : TrapRegs) {v : Word} (h : v.toNat < 2 ^ xl.bits) :
    TrapRegsWritten xl old { old with epc := alignWord v } := ⟨.inl rfl, .inl rfl, .inr ⟨v, h, rfl⟩, .inl rfl, .inl rfl⟩

theorem TrapRegsWritten.of_cause {xl : Xlen} (old : TrapRegs) {v : Word} (h : v.toNat < 2 ^ xl.bits) :
    TrapRegsWritten xl old { old with cause := v } := ⟨.inl rfl, .inl rfl, .inl rfl, .inr h, .inl rfl⟩

theorem TrapRegsWritten.of_tval {xl : Xlen} (old : TrapRegs) {v : Word} (h : v.toNat < 2 ^ xl.bits) :
    TrapRegsWritten xl old { old with tval := v } := ⟨.inl rfl, .inl rfl, .inl rfl, .inl rfl, .inr h⟩

/-- What writing the CSR `c` may leave: the registers that share a field are one case. -/
inductive CsrEffect (c : Csr) (s : State) : State → Prop
  | same : CsrEffect c s s
  | trapRegs (x : Priv) (t : TrapRegs)
      (hc : (x = .U ∧ csrExists s.cfg c = s.cfg.hasN) ∨ (x = .S ∧ csrExists s.cfg c = s.cfg.hasS) ∨ x = .M)
      (h : TrapRegsWritten s.cfg.xlen (trapRegs x s) t) : CsrEffect c s (setTrapRegs x t s)
  | mstatus (v : Word) : CsrEffect c s { s with mstatus := mstatusWrite s.cfg v s.mstatus }
  | mip (mask v : Word)
      (hm : ∀ k, mask.getLsbD k = true → (lowerIntMask s.cfg).getLsbD k = true ∨ (k = 0 ∧ csrExists s.cfg c = s.cfg.hasN)) :
      CsrEffect c s { s with mip := mipWrite mask v s.mip }
  | mie (v : Word) (hv : v = s.mie ∨ (∃ w, v = w &&& mieMask s.cfg) ∨
      ∃ mask w, (∀ k, mask.getLsbD k = true → s.mideleg.getLsbD k = true) ∧ v = mergeUnder mask s.mie w) :
      CsrEffect c s { s with mie := v }
  | medeleg (v : Word) : CsrEffect c s { s with medeleg := v &&& medelegMask }
  | mideleg (v : Word) : CsrEffect c s { s with mideleg := v &&& lowerIntMask s.cfg }
  | sedeleg (v : Word) : CsrEffect c s { s with sedeleg := v &&& sedelegMask }
  | sideleg (v : Word) : CsrEffect c s { s with sideleg := v &&& sidelegMask }
  | mcounteren (v : BitVec 32) : CsrEffect c s { s with mcounteren := v &&& 0x7 }
  | scounteren (v : BitVec 32) : CsrEffect c s { s with scounteren := v &&& 0x7 }
  | mcountinhibit (v : BitVec 32) : CsrEffect c s { s with mcountinhibit := v &&& 0x5 }
  | mcycle (v : BitVec 64) : CsrEffect c s { s with mcycle := v, mcycleWritten := true }
  | minstret (v : BitVec 64) : CsrEffect c s { s with minstret := v }
  | pmpcfg (n : Fin 4) (v : Word) : CsrEffect c s { s with pmpcfg := pmpcfgAfter n v s }
  | pmpaddr (n : Fin 16) (v : Word) : CsrEffect c s { s with pmpaddr := pmpaddrAfter n v s }

theorem getLsbD_and_left {a b : Word} {k : Nat} (h : (a &&& b).getLsbD k = true) : a.getLsbD k = true := by
  rw [BitVec.getLsbD_and, Bool.and_eq_true] at h
  exact h.1

theorem uDelegated_le {s : State} {k : Nat} (h : (uDelegated s).getLsbD k = true) : s.mideleg.getLsbD k = true := by
  rw [uDelegated_getLsbD, Bool.and_eq_true] at h
  exact h.1

theorem uip_mask {s : State} {k : Nat} (h : (uDelegated s &&& 0x1).getLsbD k = true) : k = 0 := by
  rw [BitVec.getLsbD_and, Bool.and_eq_true, show (0x1 : Word) = 1#64 from rfl, BitVec.getLsbD_one] at h
  simpa using h.2

theorem csrWrite_effect (c : Csr) (v : Word) (s : State) : CsrEffect c s (csrWrite c v s) := by
  have hv := truncX_lt s.cfg.xlen v
  cases c with
  | ustatus => exact .mstatus _
  | uie =>
    exact .mie _ (.inr (.inr ⟨uDelegated s &&& 0x111, _, fun k h => uDelegated_le (getLsbD_and_left h), rfl⟩))
  | utvec => exact .trapRegs .U _ (.inl ⟨rfl, rfl⟩) (.of_tvec _ hv)
  | uscratch => exact .trapRegs .U _ (.inl ⟨rfl, rfl⟩) (.of_scratch _ hv)
  | uepc => exact .trapRegs .U _ (.inl ⟨rfl, rfl⟩) (.of_epc _ hv)
  | ucause => exact .trapRegs .U _ (.inl ⟨rfl, rfl⟩) (.of_cause _ hv)
  | utval => exact .trapRegs .U _ (.inl ⟨rfl, rfl⟩) (.of_tval _ hv)
  | uip => exact .mip _ _ (fun k h => .inr ⟨uip_mask h, rfl⟩)
  | sstatus => exact .mstatus _
  | sedeleg => exact .sedeleg _
  | sideleg => exact .sideleg _
  | sie => exact .mie _ (.inr (.inr ⟨s.mideleg &&& 0x333, _, fun k h => getLsbD_and_left h, rfl⟩))
  | stvec => exact .trapRegs .S _ (.inr (.inl ⟨rfl, rfl⟩)) (.of_tvec _ hv)
  | scounteren => exact .scounteren _
  | sscratch => exact .trapRegs .S _ (.inr (.inl ⟨rfl, rfl⟩)) (.of_scratch _ hv)
  | sepc => exact .trapRegs .S _ (.inr (.inl ⟨rfl, rfl⟩)) (.of_epc _ hv)
  | scause => exact .trapRegs .S _ (.inr (.inl ⟨rfl, rfl⟩)) (.of_cause _ hv)
  | stval => exact .trapRegs .S _ (.inr (.inl ⟨rfl, rfl⟩)) (.of_tval _ hv)
  | sip =>
    refine .mip _ _ (fun k h => .inl ?_)
    have := getLsbD_and_left h
    rw [BitVec.getLsbD_and, Bool.and_eq_true] at this
    exact this.2
  | mstatus => exact .mstatus _
  | medeleg => exact .medeleg _
  | mideleg => exact .mideleg _
  | mie => exact .mie _ (.inr (.inl ⟨_, rfl⟩))
  | mtvec => exact .trapRegs .M _ (.inr (.inr rfl)) (.of_tvec _ hv)
  | mcounteren => exact .mcounteren _
  | mcountinhibit => exact .mcountinhibit _
  | mscratch => exact .trapRegs .M _ (.inr (.inr rfl)) (.of_scratch _ hv)
  | mepc => exact .trapRegs .M _ (.inr (.inr rfl)) (.of_epc _ hv)
  | mcause => exact .trapRegs .M _ (.inr (.inr rfl)) (.of_cause _ hv)
  | mtval => exact .trapRegs .M _ (.inr (.inr rfl)) (.of_tval _ hv)
  | mip => exact .mip _ _ (fun k h => .inl h)
  | pmpcfg n => exact .pmpcfg n _
  | pmpaddr n => exact .pmpaddr n _
  | mcycle => exact .mcycle _
  | minstret => exact .minstret _
  | mcycleh => exact .mcycle _
  | minstreth => exact .minstret _
  | cycle | time | instret | hpmcounter _ | cycleh | timeh | instreth | hpmcounterh _ => exact .same
  | satp | mvendorid | marchid | mimpid | mhartid | misa | mhpmevent _ | mhpmcounter _ | mhpmcounterh _ => exact .same

theorem csrAccess_exists {a : CsrAddr} {w : Bool} {s : State} {c : Csr} (h : csrAccess a w s = some c) :
    csrOfAddr a = some c ∧ csrExists s.cfg c = true ∧ csrLevel a ≤ s.priv.level := by
  unfold csrAccess at h
  split at h
  · cases h
  · rename_i d hd
    split at h
    · rename_i hx
      cases h
      simp only [Bool.and_eq_true, decide_eq_true_eq] at hx
      exact ⟨hd, hx.1.1.1.1, hx.1.1.1.2⟩
    · cases h

end Sys2Proof.Machine
end

