-- ==== Sys2Proof/Laws/Decode.lean ====
section
/-! SUPPORT. The table of R293: no word fits two of its rows, so a row that fits is the row decoded; and the fields of an
encoded word are the operands it was encoded from. -/

namespace Sys2Proof

/-- Two rows differ in a bit that both masks fix, on either width. -/
def Row.clash (r q : Row) : Bool :=
  (r.pattern ^^^ q.pattern) &&& r.mask32 &&& q.mask32 != 0 && (r.pattern ^^^ q.pattern) &&& r.mask64 &&& q.mask64 != 0

theorem rows_clash : rows.Pairwise (fun r q => r.clash q = true) := by
  decide +kernel

theorem Row.clash_mask {r q : Row} (h : r.clash q = true) (xl : Xlen) :
    (r.pattern ^^^ q.pattern) &&& r.mask xl &&& q.mask xl ≠ 0 := by
  simp only [Row.clash, Bool.and_eq_true, bne_iff_ne, ne_eq] at h
  cases xl
  · exact h.1
  · exact h.2

theorem Row.not_fits_both {r q : Row} (h : r.clash q = true) (xl : Xlen) (w : InstWord) (hr : r.fits xl w = true)
    (hq : q.fits xl w = true) : False := by
  simp only [Row.fits, beq_iff_eq] at hr hq
  apply Row.clash_mask h xl
  rw [← hr, ← hq]
  apply BitVec.eq_of_getLsbD_eq
  intro i hi
  simp only [BitVec.getLsbD_and, BitVec.getLsbD_xor]
  cases w.getLsbD i <;> cases (r.mask xl).getLsbD i <;> cases (q.mask xl).getLsbD i <;> simp

/-- In a list of clashing rows the first that is available and fits is the only one. -/
theorem find_of_fits (xl : Xlen) (w : InstWord) (l : List Row) (hp : l.Pairwise (fun r q => r.clash q = true)) {r : Row}
    (hm : r ∈ l) (ha : r.available xl = true) (hf : r.fits xl w = true) :
    l.find? (fun q => q.available xl && q.fits xl w) = some r := by
  induction l with
  | nil => cases hm
  | cons q l ih =>
    rw [List.pairwise_cons] at hp
    rcases List.mem_cons.mp hm with rfl | hm'
    · simp [ha, hf]
    · have hq : q.fits xl w = false := by
        by_contra hne
        exact Row.not_fits_both (hp.1 r hm') xl w (by simpa using hne) hf
      rw [List.find?_cons_of_neg (by simp [hq])]
      exact ih hp.2 hm'

theorem decodeWord_of_fits {xl : Xlen} {w : InstWord} {r : Row} (hm : r ∈ rows) (ha : r.available xl = true)
    (hf : r.fits xl w = true) : decodeWord xl w = .ok (r.build w) := by
  unfold decodeWord
  rw [find_of_fits xl w rows rows_clash hm ha hf]

theorem decodeWord_ok_inv {xl : Xlen} {w : InstWord} {i : Instr} (h : decodeWord xl w = .ok i) :
    ∃ r ∈ rows, r.available xl = true ∧ r.fits xl w = true ∧ i = r.build w := by
  unfold decodeWord at h
  split at h
  · rename_i r hr
    refine ⟨r, List.mem_of_find?_eq_some hr, ?_⟩
    have := List.find?_some hr
    simp only [Bool.and_eq_true] at this
    exact ⟨this.1, this.2, by cases h; rfl⟩
  · cases h

theorem decodeWord_error_iff {xl : Xlen} {w : InstWord} :
    (∃ e, decodeWord xl w = .error e) ↔ ∀ r ∈ rows, r.available xl = true → r.fits xl w = false := by
  unfold decodeWord
  constructor
  · rintro ⟨e, h⟩ r hr ha
    split at h
    · cases h
    · rename_i hn
      have := List.find?_eq_none.mp hn r hr
      simpa [ha] using this
  · intro h
    have : rows.find? (fun r => r.available xl && r.fits xl w) = none := by
      rw [List.find?_eq_none]
      intro r hr
      cases ha : r.available xl
      · simp
      · simp [h r hr ha]
    rw [this]
    exact ⟨_, rfl⟩

/-! ### Fields of an encoded word -/

@[simp] theorem fRd_encR (f7 : BitVec 7) (rs2 rs1 : Reg) (f3 : BitVec 3) (rd : Reg) (op : BitVec 7) :
    fRd (encR f7 rs2 rs1 f3 rd op) = rd := by
  apply BitVec.eq_of_getLsbD_eq
  intro i hi
  simp only [fRd, encR, BitVec.getLsbD_extractLsb', BitVec.getLsbD_append]
  interval_cases i <;> simp

@[simp] theorem fRs1_encR (f7 : BitVec 7) (rs2 rs1 : Reg) (f3 : BitVec 3) (rd : Reg) (op : BitVec 7) :
    fRs1 (encR f7 rs2 rs1 f3 rd op) = rs1 := by
  apply BitVec.eq_of_getLsbD_eq
  intro i hi
  simp only [fRs1, encR, BitVec.getLsbD_extractLsb', BitVec.getLsbD_append]
  interval_cases i <;> simp

@[simp] theorem fRs2_encR (f7 : BitVec 7) (rs2 rs1 : Reg) (f3 : BitVec 3) (rd : Reg) (op : BitVec 7) :
    fRs2 (encR f7 rs2 rs1 f3 rd op) = rs2 := by
  apply BitVec.eq_of_getLsbD_eq
  intro i hi
  simp only [fRs2, encR, BitVec.getLsbD_extractLsb', BitVec.getLsbD_append]
  interval_cases i <;> simp

theorem encR_mask (f7 : BitVec 7) (rs2 rs1 : Reg) (f3 : BitVec 3) (rd : Reg) (op : BitVec 7) :
    encR f7 rs2 rs1 f3 rd op &&& 0xfe00707f = encR f7 0 0 f3 0 op := by
  apply BitVec.eq_of_getLsbD_eq
  intro i hi
  simp only [encR, BitVec.getLsbD_and, BitVec.getLsbD_append]
  interval_cases i <;> simp

theorem encR_mask1 (f7 : BitVec 7) (rs2 rs1 : Reg) (f3 : BitVec 3) (rd : Reg) (op : BitVec 7) :
    encR f7 rs2 rs1 f3 rd op &&& 0xfe007fff = encR f7 0 0 f3 rd op := by
  apply BitVec.eq_of_getLsbD_eq
  intro i hi
  simp only [encR, BitVec.getLsbD_and, BitVec.getLsbD_append]
  interval_cases i <;> simp

@[simp] theorem fRd_encI (imm : BitVec 12) (rs1 : Reg) (f3 : BitVec 3) (rd : Reg) (op : BitVec 7) :
    fRd (encI imm rs1 f3 rd op) = rd := by
  apply BitVec.eq_of_getLsbD_eq
  intro i hi
  simp only [fRd, encI, BitVec.getLsbD_extractLsb', BitVec.getLsbD_append]
  interval_cases i <;> simp

@[simp] theorem fRs1_encI (imm : BitVec 12) (rs1 : Reg) (f3 : BitVec 3) (rd : Reg) (op : BitVec 7) :
    fRs1 (encI imm rs1 f3 rd op) = rs1 := by
  apply BitVec.eq_of_getLsbD_eq
  intro i hi
  simp only [fRs1, encI, BitVec.getLsbD_extractLsb', BitVec.getLsbD_append]
  interval_cases i <;> simp

@[simp] theorem fImmI_encI (imm : BitVec 12) (rs1 : Reg) (f3 : BitVec 3) (rd : Reg) (op : BitVec 7) :
    fImmI (encI imm rs1 f3 rd op) = imm := by
  apply BitVec.eq_of_getLsbD_eq
  intro i hi
  simp only [fImmI, encI, BitVec.getLsbD_extractLsb', BitVec.getLsbD_append]
  interval_cases i <;> simp

@[simp] theorem fCsr_encI (imm : BitVec 12) (rs1 : Reg) (f3 : BitVec 3) (rd : Reg) (op : BitVec 7) :
    fCsr (encI imm rs1 f3 rd op) = imm := by
  apply BitVec.eq_of_getLsbD_eq
  intro i hi
  simp only [fCsr, encI, BitVec.getLsbD_extractLsb', BitVec.getLsbD_append]
  interval_cases i <;> simp

theorem encI_mask (imm : BitVec 12) (rs1 : Reg) (f3 : BitVec 3) (rd : Reg) (op : BitVec 7) :
    encI imm rs1 f3 rd op &&& 0x0000707f = encI 0 0 f3 0 op := by
  apply BitVec.eq_of_getLsbD_eq
  intro i hi
  simp only [encI, BitVec.getLsbD_and, BitVec.getLsbD_append]
  interval_cases i <;> simp

@[simp] theorem fRs1_encS (imm : BitVec 12) (rs2 rs1 : Reg) (f3 : BitVec 3) (op : BitVec 7) :
    fRs1 (encS imm rs2 rs1 f3 op) = rs1 := by
  apply BitVec.eq_of_getLsbD_eq
  intro i hi
  simp only [fRs1, encS, BitVec.getLsbD_extractLsb', BitVec.getLsbD_append]
  interval_cases i <;> simp

@[simp] theorem fRs2_encS (imm : BitVec 12) (rs2 rs1 : Reg) (f3 : BitVec 3) (op : BitVec 7) :
    fRs2 (encS imm rs2 rs1 f3 op) = rs2 := by
  apply BitVec.eq_of_getLsbD_eq
  intro i hi
  simp only [fRs2, encS, BitVec.getLsbD_extractLsb', BitVec.getLsbD_append]
  interval_cases i <;> simp

@[simp] theorem fImmS_encS (imm : BitVec 12) (rs2 rs1 : Reg) (f3 : BitVec 3) (op : BitVec 7) :
    fImmS (encS imm rs2 rs1 f3 op) = imm := by
  apply BitVec.eq_of_getLsbD_eq
  intro i hi
  simp only [fImmS, encS, BitVec.getLsbD_extractLsb', BitVec.getLsbD_append]
  interval_cases i <;> simp

theorem encS_mask (imm : BitVec 12) (rs2 rs1 : Reg) (f3 : BitVec 3) (op : BitVec 7) :
    encS imm rs2 rs1 f3 op &&& 0x0000707f = encS 0 0 0 f3 op := by
  apply BitVec.eq_of_getLsbD_eq
  intro i hi
  simp only [encS, BitVec.getLsbD_and, BitVec.getLsbD_extractLsb', BitVec.getLsbD_append]
  interval_cases i <;> simp

@[simp] theorem fRs1_encB (imm : BitVec 12) (rs2 rs1 : Reg) (f3 : BitVec 3) (op : BitVec 7) :
    fRs1 (encB imm rs2 rs1 f3 op) = rs1 := by
  apply BitVec.eq_of_getLsbD_eq
  intro i hi
  simp only [fRs1, encB, BitVec.getLsbD_extractLsb', BitVec.getLsbD_append]
  interval_cases i <;> simp

@[simp] theorem fRs2_encB (imm : BitVec 12) (rs2 rs1 : Reg) (f3 : BitVec 3) (op : BitVec 7) :
    fRs2 (encB imm rs2 rs1 f3 op) = rs2 := by
  apply BitVec.eq_of_getLsbD_eq
  intro i hi
  simp only [fRs2, encB, BitVec.getLsbD_extractLsb', BitVec.getLsbD_append]
  interval_cases i <;> simp

@[simp] theorem fImmB_encB (imm : BitVec 12) (rs2 rs1 : Reg) (f3 : BitVec 3) (op : BitVec 7) :
    fImmB (encB imm rs2 rs1 f3 op) = imm := by
  apply BitVec.eq_of_getLsbD_eq
  intro i hi
  simp only [fImmB, encB, BitVec.getLsbD_extractLsb', BitVec.getLsbD_append]
  interval_cases i <;> simp

theorem encB_mask (imm : BitVec 12) (rs2 rs1 : Reg) (f3 : BitVec 3) (op : BitVec 7) :
    encB imm rs2 rs1 f3 op &&& 0x0000707f = encB 0 0 0 f3 op := by
  apply BitVec.eq_of_getLsbD_eq
  intro i hi
  simp only [encB, BitVec.getLsbD_and, BitVec.getLsbD_extractLsb', BitVec.getLsbD_append]
  interval_cases i <;> simp

@[simp] theorem fRd_encU (imm : BitVec 20) (rd : Reg) (op : BitVec 7) :
    fRd (encU imm rd op) = rd := by
  apply BitVec.eq_of_getLsbD_eq
  intro i hi
  simp only [fRd, encU, BitVec.getLsbD_extractLsb', BitVec.getLsbD_append]
  interval_cases i <;> simp

@[simp] theorem fImmU_encU (imm : BitVec 20) (rd : Reg) (op : BitVec 7) :
    fImmU (encU imm rd op) = imm := by
  apply BitVec.eq_of_getLsbD_eq
  intro i hi
  simp only [fImmU, encU, BitVec.getLsbD_extractLsb', BitVec.getLsbD_append]
  interval_cases i <;> simp

theorem encU_mask (imm : BitVec 20) (rd : Reg) (op : BitVec 7) :
    encU imm rd op &&& 0x0000007f = encU 0 0 op := by
  apply BitVec.eq_of_getLsbD_eq
  intro i hi
  simp only [encU, BitVec.getLsbD_and, BitVec.getLsbD_append]
  interval_cases i <;> simp

@[simp] theorem fRd_encJ (imm : BitVec 20) (rd : Reg) (op : BitVec 7) :
    fRd (encJ imm rd op) = rd := by
  apply BitVec.eq_of_getLsbD_eq
  intro i hi
  simp only [fRd, encJ, BitVec.getLsbD_extractLsb', BitVec.getLsbD_append]
  interval_cases i <;> simp

@[simp] theorem fImmJ_encJ (imm : BitVec 20) (rd : Reg) (op : BitVec 7) :
    fImmJ (encJ imm rd op) = imm := by
  apply BitVec.eq_of_getLsbD_eq
  intro i hi
  simp only [fImmJ, encJ, BitVec.getLsbD_extractLsb', BitVec.getLsbD_append]
  interval_cases i <;> simp

theorem encJ_mask (imm : BitVec 20) (rd : Reg) (op : BitVec 7) :
    encJ imm rd op &&& 0x0000007f = encJ 0 0 op := by
  apply BitVec.eq_of_getLsbD_eq
  intro i hi
  simp only [encJ, BitVec.getLsbD_and, BitVec.getLsbD_extractLsb', BitVec.getLsbD_append]
  interval_cases i <;> simp

@[simp] theorem fRd_encShift (f6 shamt : BitVec 6) (rs1 : Reg) (f3 : BitVec 3) (rd : Reg) (op : BitVec 7) :
    fRd (encShift f6 shamt rs1 f3 rd op) = rd := by
  apply BitVec.eq_of_getLsbD_eq
  intro i hi
  simp only [fRd, encShift, BitVec.getLsbD_extractLsb', BitVec.getLsbD_append]
  interval_cases i <;> simp

@[simp] theorem fRs1_encShift (f6 shamt : BitVec 6) (rs1 : Reg) (f3 : BitVec 3) (rd : Reg) (op : BitVec 7) :
    fRs1 (encShift f6 shamt rs1 f3 rd op) = rs1 := by
  apply BitVec.eq_of_getLsbD_eq
  intro i hi
  simp only [fRs1, encShift, BitVec.getLsbD_extractLsb', BitVec.getLsbD_append]
  interval_cases i <;> simp

@[simp] theorem fShamt_encShift (f6 shamt : BitVec 6) (rs1 : Reg) (f3 : BitVec 3) (rd : Reg) (op : BitVec 7) :
    fShamt (encShift f6 shamt rs1 f3 rd op) = shamt := by
  apply BitVec.eq_of_getLsbD_eq
  intro i hi
  simp only [fShamt, encShift, BitVec.getLsbD_extractLsb', BitVec.getLsbD_append]
  interval_cases i <;> simp

theorem encShift_mask (f6 shamt : BitVec 6) (rs1 : Reg) (f3 : BitVec 3) (rd : Reg) (op : BitVec 7) :
    encShift f6 shamt rs1 f3 rd op &&& 0xfc00707f = encShift f6 0 0 f3 0 op := by
  apply BitVec.eq_of_getLsbD_eq
  intro i hi
  simp only [encShift, BitVec.getLsbD_and, BitVec.getLsbD_append]
  interval_cases i <;> simp


/-- On MXLEN = 32 the shift rows also fix the top bit of the shift amount (R283). -/
theorem encShift_mask32 (f6 shamt : BitVec 6) (rs1 : Reg) (f3 : BitVec 3) (rd : Reg) (op : BitVec 7)
    (h : shamt.toNat < 32) :
    encShift f6 shamt rs1 f3 rd op &&& 0xfe00707f = encShift f6 0 0 f3 0 op := by
  have h5 : shamt[5] = false := by
    rw [← BitVec.getLsbD_eq_getElem, BitVec.getLsbD, Nat.testBit_lt_two_pow h]
  apply BitVec.eq_of_getLsbD_eq
  intro i hi
  simp only [encShift, BitVec.getLsbD_and, BitVec.getLsbD_append]
  interval_cases i <;> simp [h5]

theorem fFm_encI (fm pred succ : BitVec 4) (rs1 : Reg) (f3 : BitVec 3) (rd : Reg) (op : BitVec 7) :
    fFm (encI (fm ++ pred ++ succ) rs1 f3 rd op) = fm := by
  apply BitVec.eq_of_getLsbD_eq
  intro i hi
  simp only [fFm, encI, BitVec.getLsbD_extractLsb', BitVec.getLsbD_append]
  interval_cases i <;> simp

theorem fPred_encI (fm pred succ : BitVec 4) (rs1 : Reg) (f3 : BitVec 3) (rd : Reg) (op : BitVec 7) :
    fPred (encI (fm ++ pred ++ succ) rs1 f3 rd op) = pred := by
  apply BitVec.eq_of_getLsbD_eq
  intro i hi
  simp only [fPred, encI, BitVec.getLsbD_extractLsb', BitVec.getLsbD_append]
  interval_cases i <;> simp

theorem fSucc_encI (fm pred succ : BitVec 4) (rs1 : Reg) (f3 : BitVec 3) (rd : Reg) (op : BitVec 7) :
    fSucc (encI (fm ++ pred ++ succ) rs1 f3 rd op) = succ := by
  apply BitVec.eq_of_getLsbD_eq
  intro i hi
  simp only [fSucc, encI, BitVec.getLsbD_extractLsb', BitVec.getLsbD_append]
  interval_cases i <;> simp

theorem wordOfBytes_bytesOfWord (w : InstWord) :
    wordOfBytes (w.extractLsb' 0 8) (w.extractLsb' 8 8) (w.extractLsb' 16 8) (w.extractLsb' 24 8) = w := by
  apply BitVec.eq_of_getLsbD_eq
  intro i hi
  simp only [wordOfBytes, BitVec.getLsbD_extractLsb', BitVec.getLsbD_append]
  interval_cases i <;> simp

end Sys2Proof
end

