-- ==== Sys2Proof/Laws/PerInstr.lean ====
section
/-! SUPPORT. One lemma per constructor of `Instr`: its encoding is decoded to it, with every operand. -/

namespace Sys2Proof.Laws.RoundTrip

/-- The word of a well-formed instruction decodes to it. -/
def Statement (i : Instr) : Prop := ∀ xl, i.wellFormed xl = true → decodeWord xl (encode i) = .ok i

theorem of_row {i : Instr} (n : Nat) {pattern mask : InstWord} {build : InstWord → Instr}
    (hr : rows[n]? = some (row pattern mask build)) (hf : encode i &&& mask = pattern) (hb : build (encode i) = i) :
    Statement i := by
  intro xl _
  have := decodeWord_of_fits (xl := xl) (w := encode i) (List.mem_of_getElem? hr) rfl
    (by cases xl <;> exact beq_iff_eq.mpr hf)
  rw [this]
  exact congrArg _ hb

theorem of_row64 {i : Instr} (n : Nat) {pattern mask : InstWord} {build : InstWord → Instr}
    (hr : rows[n]? = some (row64 pattern mask build)) (h64 : i.rv64Only = true) (hf : encode i &&& mask = pattern)
    (hb : build (encode i) = i) : Statement i := by
  intro xl h
  cases xl with
  | rv32 => simp [Instr.wellFormed, h64] at h
  | rv64 =>
    have := decodeWord_of_fits (xl := .rv64) (w := encode i) (List.mem_of_getElem? hr) rfl (beq_iff_eq.mpr hf)
    rw [this]
    exact congrArg _ hb

theorem of_rowShift {i : Instr} (n : Nat) {pattern : InstWord} {build : InstWord → Instr} {shamt : BitVec 6}
    (hr : rows[n]? = some (rowShift pattern build)) (hf : encode i &&& 0xfc00707f = pattern)
    (hf32 : shamt.toNat < 32 → encode i &&& 0xfe00707f = pattern)
    (hw : i.wellFormed .rv32 = true → shamt.toNat < 32) (hb : build (encode i) = i) : Statement i := by
  intro xl h
  cases xl with
  | rv32 =>
    have := decodeWord_of_fits (xl := .rv32) (w := encode i) (List.mem_of_getElem? hr) rfl (beq_iff_eq.mpr (hf32 (hw h)))
    rw [this]
    exact congrArg _ hb
  | rv64 =>
    have := decodeWord_of_fits (xl := .rv64) (w := encode i) (List.mem_of_getElem? hr) rfl (beq_iff_eq.mpr hf)
    rw [this]
    exact congrArg _ hb

theorem csrrw (rd : Reg) (csr : CsrAddr) (rs1 : Reg) : Statement (.csrrw rd csr rs1) :=
  of_row 0 rfl (encI_mask _ _ _ _ _) (by simp [encode])

theorem csrrs (rd : Reg) (csr : CsrAddr) (rs1 : Reg) : Statement (.csrrs rd csr rs1) :=
  of_row 1 rfl (encI_mask _ _ _ _ _) (by simp [encode])

theorem csrrc (rd : Reg) (csr : CsrAddr) (rs1 : Reg) : Statement (.csrrc rd csr rs1) :=
  of_row 2 rfl (encI_mask _ _ _ _ _) (by simp [encode])

theorem csrrwi (rd : Reg) (csr : CsrAddr) (uimm : BitVec 5) : Statement (.csrrwi rd csr uimm) :=
  of_row 3 rfl (encI_mask _ _ _ _ _) (by simp [encode])

theorem csrrsi (rd : Reg) (csr : CsrAddr) (uimm : BitVec 5) : Statement (.csrrsi rd csr uimm) :=
  of_row 4 rfl (encI_mask _ _ _ _ _) (by simp [encode])

theorem csrrci (rd : Reg) (csr : CsrAddr) (uimm : BitVec 5) : Statement (.csrrci rd csr uimm) :=
  of_row 5 rfl (encI_mask _ _ _ _ _) (by simp [encode])

theorem ecall : Statement .ecall :=
  of_row 6 rfl rfl rfl

theorem ebreak : Statement .ebreak :=
  of_row 7 rfl rfl rfl

theorem mret : Statement .mret :=
  of_row 8 rfl rfl rfl

theorem sret : Statement .sret :=
  of_row 9 rfl rfl rfl

theorem uret : Statement .uret :=
  of_row 10 rfl rfl rfl

theorem wfi : Statement .wfi :=
  of_row 11 rfl rfl rfl

theorem sfenceVma (rs1 rs2 : Reg) : Statement (.sfenceVma rs1 rs2) :=
  of_row 12 rfl (encR_mask1 _ _ _ _ _ _) (by simp [encode])

theorem lui (rd : Reg) (imm : BitVec 20) : Statement (.lui rd imm) :=
  of_row 13 rfl (encU_mask _ _ _) (by simp [encode])

theorem auipc (rd : Reg) (imm : BitVec 20) : Statement (.auipc rd imm) :=
  of_row 14 rfl (encU_mask _ _ _) (by simp [encode])

theorem jal (rd : Reg) (imm : BitVec 20) : Statement (.jal rd imm) :=
  of_row 15 rfl (encJ_mask _ _ _) (by simp [encode])

theorem jalr (rd rs1 : Reg) (imm : BitVec 12) : Statement (.jalr rd rs1 imm) :=
  of_row 16 rfl (encI_mask _ _ _ _ _) (by simp [encode])

theorem beq (rs1 rs2 : Reg) (imm : BitVec 12) : Statement (.beq rs1 rs2 imm) :=
  of_row 17 rfl (encB_mask _ _ _ _ _) (by simp [encode])

theorem bne (rs1 rs2 : Reg) (imm : BitVec 12) : Statement (.bne rs1 rs2 imm) :=
  of_row 18 rfl (encB_mask _ _ _ _ _) (by simp [encode])

theorem blt (rs1 rs2 : Reg) (imm : BitVec 12) : Statement (.blt rs1 rs2 imm) :=
  of_row 19 rfl (encB_mask _ _ _ _ _) (by simp [encode])

theorem bge (rs1 rs2 : Reg) (imm : BitVec 12) : Statement (.bge rs1 rs2 imm) :=
  of_row 20 rfl (encB_mask _ _ _ _ _) (by simp [encode])

theorem bltu (rs1 rs2 : Reg) (imm : BitVec 12) : Statement (.bltu rs1 rs2 imm) :=
  of_row 21 rfl (encB_mask _ _ _ _ _) (by simp [encode])

theorem bgeu (rs1 rs2 : Reg) (imm : BitVec 12) : Statement (.bgeu rs1 rs2 imm) :=
  of_row 22 rfl (encB_mask _ _ _ _ _) (by simp [encode])

theorem lb (rd rs1 : Reg) (imm : BitVec 12) : Statement (.lb rd rs1 imm) :=
  of_row 23 rfl (encI_mask _ _ _ _ _) (by simp [encode])

theorem lh (rd rs1 : Reg) (imm : BitVec 12) : Statement (.lh rd rs1 imm) :=
  of_row 24 rfl (encI_mask _ _ _ _ _) (by simp [encode])

theorem lw (rd rs1 : Reg) (imm : BitVec 12) : Statement (.lw rd rs1 imm) :=
  of_row 25 rfl (encI_mask _ _ _ _ _) (by simp [encode])

theorem lbu (rd rs1 : Reg) (imm : BitVec 12) : Statement (.lbu rd rs1 imm) :=
  of_row 26 rfl (encI_mask _ _ _ _ _) (by simp [encode])

theorem lhu (rd rs1 : Reg) (imm : BitVec 12) : Statement (.lhu rd rs1 imm) :=
  of_row 27 rfl (encI_mask _ _ _ _ _) (by simp [encode])

theorem sb (rs2 rs1 : Reg) (imm : BitVec 12) : Statement (.sb rs2 rs1 imm) :=
  of_row 28 rfl (encS_mask _ _ _ _ _) (by simp [encode])

theorem sh (rs2 rs1 : Reg) (imm : BitVec 12) : Statement (.sh rs2 rs1 imm) :=
  of_row 29 rfl (encS_mask _ _ _ _ _) (by simp [encode])

theorem sw (rs2 rs1 : Reg) (imm : BitVec 12) : Statement (.sw rs2 rs1 imm) :=
  of_row 30 rfl (encS_mask _ _ _ _ _) (by simp [encode])

theorem addi (rd rs1 : Reg) (imm : BitVec 12) : Statement (.addi rd rs1 imm) :=
  of_row 31 rfl (encI_mask _ _ _ _ _) (by simp [encode])

theorem slti (rd rs1 : Reg) (imm : BitVec 12) : Statement (.slti rd rs1 imm) :=
  of_row 32 rfl (encI_mask _ _ _ _ _) (by simp [encode])

theorem sltiu (rd rs1 : Reg) (imm : BitVec 12) : Statement (.sltiu rd rs1 imm) :=
  of_row 33 rfl (encI_mask _ _ _ _ _) (by simp [encode])

theorem xori (rd rs1 : Reg) (imm : BitVec 12) : Statement (.xori rd rs1 imm) :=
  of_row 34 rfl (encI_mask _ _ _ _ _) (by simp [encode])

theorem ori (rd rs1 : Reg) (imm : BitVec 12) : Statement (.ori rd rs1 imm) :=
  of_row 35 rfl (encI_mask _ _ _ _ _) (by simp [encode])

theorem andi (rd rs1 : Reg) (imm : BitVec 12) : Statement (.andi rd rs1 imm) :=
  of_row 36 rfl (encI_mask _ _ _ _ _) (by simp [encode])

theorem slli (rd rs1 : Reg) (shamt : BitVec 6) : Statement (.slli rd rs1 shamt) :=
  of_rowShift 37 rfl (encShift_mask _ _ _ _ _ _) (encShift_mask32 _ _ _ _ _ _) (by simp [Instr.wellFormed, Instr.shamtFits]) (by simp [encode])

theorem srli (rd rs1 : Reg) (shamt : BitVec 6) : Statement (.srli rd rs1 shamt) :=
  of_rowShift 38 rfl (encShift_mask _ _ _ _ _ _) (encShift_mask32 _ _ _ _ _ _) (by simp [Instr.wellFormed, Instr.shamtFits]) (by simp [encode])

theorem srai (rd rs1 : Reg) (shamt : BitVec 6) : Statement (.srai rd rs1 shamt) :=
  of_rowShift 39 rfl (encShift_mask _ _ _ _ _ _) (encShift_mask32 _ _ _ _ _ _) (by simp [Instr.wellFormed, Instr.shamtFits]) (by simp [encode])

theorem add (rd rs1 rs2 : Reg) : Statement (.add rd rs1 rs2) :=
  of_row 40 rfl (encR_mask _ _ _ _ _ _) (by simp [encode])

theorem sub (rd rs1 rs2 : Reg) : Statement (.sub rd rs1 rs2) :=
  of_row 41 rfl (encR_mask _ _ _ _ _ _) (by simp [encode])

theorem sll (rd rs1 rs2 : Reg) : Statement (.sll rd rs1 rs2) :=
  of_row 42 rfl (encR_mask _ _ _ _ _ _) (by simp [encode])

theorem slt (rd rs1 rs2 : Reg) : Statement (.slt rd rs1 rs2) :=
  of_row 43 rfl (encR_mask _ _ _ _ _ _) (by simp [encode])

theorem sltu (rd rs1 rs2 : Reg) : Statement (.sltu rd rs1 rs2) :=
  of_row 44 rfl (encR_mask _ _ _ _ _ _) (by simp [encode])

theorem xor (rd rs1 rs2 : Reg) : Statement (.xor rd rs1 rs2) :=
  of_row 45 rfl (encR_mask _ _ _ _ _ _) (by simp [encode])

theorem srl (rd rs1 rs2 : Reg) : Statement (.srl rd rs1 rs2) :=
  of_row 46 rfl (encR_mask _ _ _ _ _ _) (by simp [encode])

theorem sra (rd rs1 rs2 : Reg) : Statement (.sra rd rs1 rs2) :=
  of_row 47 rfl (encR_mask _ _ _ _ _ _) (by simp [encode])

theorem or (rd rs1 rs2 : Reg) : Statement (.or rd rs1 rs2) :=
  of_row 48 rfl (encR_mask _ _ _ _ _ _) (by simp [encode])

theorem and (rd rs1 rs2 : Reg) : Statement (.and rd rs1 rs2) :=
  of_row 49 rfl (encR_mask _ _ _ _ _ _) (by simp [encode])

theorem fence (rd rs1 : Reg) (fm pred succ : BitVec 4) : Statement (.fence rd rs1 fm pred succ) :=
  of_row 50 rfl (encI_mask _ _ _ _ _) (by simp only [encode, fRd_encI, fRs1_encI, fFm_encI, fPred_encI, fSucc_encI])

theorem fenceI (rd rs1 : Reg) (imm : BitVec 12) : Statement (.fenceI rd rs1 imm) :=
  of_row 51 rfl (encI_mask _ _ _ _ _) (by simp [encode])

theorem lwu (rd rs1 : Reg) (imm : BitVec 12) : Statement (.lwu rd rs1 imm) :=
  of_row64 52 rfl rfl (encI_mask _ _ _ _ _) (by simp [encode])

theorem ld (rd rs1 : Reg) (imm : BitVec 12) : Statement (.ld rd rs1 imm) :=
  of_row64 53 rfl rfl (encI_mask _ _ _ _ _) (by simp [encode])

theorem sd (rs2 rs1 : Reg) (imm : BitVec 12) : Statement (.sd rs2 rs1 imm) :=
  of_row64 54 rfl rfl (encS_mask _ _ _ _ _) (by simp [encode])

theorem addiw (rd rs1 : Reg) (imm : BitVec 12) : Statement (.addiw rd rs1 imm) :=
  of_row64 55 rfl rfl (encI_mask _ _ _ _ _) (by simp [encode])

theorem slliw (rd rs1 : Reg) (shamt : BitVec 5) : Statement (.slliw rd rs1 shamt) :=
  of_row64 56 rfl rfl (encR_mask _ _ _ _ _ _) (by simp [encode])

theorem srliw (rd rs1 : Reg) (shamt : BitVec 5) : Statement (.srliw rd rs1 shamt) :=
  of_row64 57 rfl rfl (encR_mask _ _ _ _ _ _) (by simp [encode])

theorem sraiw (rd rs1 : Reg) (shamt : BitVec 5) : Statement (.sraiw rd rs1 shamt) :=
  of_row64 58 rfl rfl (encR_mask _ _ _ _ _ _) (by simp [encode])

theorem addw (rd rs1 rs2 : Reg) : Statement (.addw rd rs1 rs2) :=
  of_row64 59 rfl rfl (encR_mask _ _ _ _ _ _) (by simp [encode])

theorem subw (rd rs1 rs2 : Reg) : Statement (.subw rd rs1 rs2) :=
  of_row64 60 rfl rfl (encR_mask _ _ _ _ _ _) (by simp [encode])

theorem sllw (rd rs1 rs2 : Reg) : Statement (.sllw rd rs1 rs2) :=
  of_row64 61 rfl rfl (encR_mask _ _ _ _ _ _) (by simp [encode])

theorem srlw (rd rs1 rs2 : Reg) : Statement (.srlw rd rs1 rs2) :=
  of_row64 62 rfl rfl (encR_mask _ _ _ _ _ _) (by simp [encode])

theorem sraw (rd rs1 rs2 : Reg) : Statement (.sraw rd rs1 rs2) :=
  of_row64 63 rfl rfl (encR_mask _ _ _ _ _ _) (by simp [encode])

end Sys2Proof.Laws.RoundTrip
end

