-- ==== Sys2Proof/Laws/Pmp.lean ====
section
/-! SUPPORT. Physical memory protection: matching, the scan over the entries, and the legal values of its registers. -/

namespace Sys2Proof.Machine

theorem lowOnes_getLsbD (n k : Nat) : (lowOnes n).getLsbD k = (decide (k < 64) && decide (k < n)) := by
  unfold lowOnes
  rw [BitVec.getLsbD_ofNat, Nat.testBit_two_pow_sub_one]

/-- Clearing the low `g` bits rounds down to a multiple of `2^g`. -/
theorem clearLow_toNat (w : Word) (g : Nat) : (w &&& ~~~(lowOnes g)).toNat = w.toNat / 2 ^ g * 2 ^ g := by
  apply Nat.eq_of_testBit_eq
  intro i
  rw [← Nat.shiftRight_eq_div_pow, ← Nat.shiftLeft_eq, Nat.testBit_shiftLeft, Nat.testBit_shiftRight]
  show (w &&& ~~~(lowOnes g)).getLsbD i = _
  rw [BitVec.getLsbD_and, BitVec.getLsbD_not, lowOnes_getLsbD]
  show (w.toNat.testBit i && _) = _
  by_cases h64 : i < 64
  · by_cases h : g ≤ i
    · have : g + (i - g) = i := by omega
      have h2 : ¬ i < g := by omega
      simp [h, h64, this, h2]
    · have h2 : i < g := by omega
      simp [h, h2]
  · have : w.toNat.testBit i = false :=
      Nat.testBit_lt_two_pow (lt_of_lt_of_le w.isLt (Nat.pow_le_pow_right (by norm_num) (by omega)))
    rw [this]
    by_cases h : g ≤ i
    · have h3 : g + (i - g) = i := by omega
      rw [h3, this]; simp
    · simp [h]

/-- Setting the low `k` bits. -/
theorem setLow_toNat (w : Word) (k : Nat) (hk : k ≤ 54) :
    (w ||| lowOnes k).toNat = w.toNat / 2 ^ k * 2 ^ k + (2 ^ k - 1) := by
  have hlow : (lowOnes k).toNat = 2 ^ k - 1 := by
    unfold lowOnes
    rw [BitVec.toNat_ofNat]
    apply Nat.mod_eq_of_lt
    have : 2 ^ k ≤ 2 ^ 54 := Nat.pow_le_pow_right (by norm_num) hk
    omega
  rw [BitVec.toNat_or, hlow]
  have hlt : 2 ^ k - 1 < 2 ^ k := by have := Nat.two_pow_pos k; omega
  rw [← Nat.shiftLeft_eq, Nat.shiftLeft_add_eq_or_of_lt hlt]
  apply Nat.eq_of_testBit_eq
  intro i
  rw [Nat.testBit_or, Nat.testBit_or, Nat.testBit_shiftLeft, ← Nat.shiftRight_eq_div_pow, Nat.testBit_shiftRight,
    Nat.testBit_two_pow_sub_one]
  by_cases h : k ≤ i
  · have h3 : k + (i - k) = i := by omega
    simp [h, h3]
  · have : i < k := by omega
    simp [this]

theorem pmpMode_getLsbD (b : Byte) (i : Nat) (hi : i < 2) : (pmpMode b).getLsbD i = b.getLsbD (3 + i) := by
  unfold pmpMode
  rw [BitVec.getLsbD_extractLsb']; simp [hi]

theorem pmpMode_toNat (b : Byte) : (pmpMode b).toNat = b.toNat / 8 % 4 := by
    unfold pmpMode
    rw [BitVec.extractLsb'_toNat, Nat.shiftRight_eq_div_pow]

theorem pmpMode_napot_or_na4 (b : Byte) : (pmpMode b).getLsbD 1 = decide (2 ≤ b.toNat / 8 % 4) := by
  rw [← pmpMode_toNat]
  have := (pmpMode b).isLt
  rw [BitVec.getLsbD, Nat.testBit_eq_decide_div_mod_eq]
  apply decide_eq_decide.mpr
  omega

theorem pmpMode_tor (b : Byte) : (pmpMode b == 1#2) = decide (b.toNat / 8 % 4 = 1) := by
  have e2 : (pmpMode b).toNat = b.toNat / 8 % 4 := by
    unfold pmpMode
    rw [BitVec.extractLsb'_toNat, Nat.shiftRight_eq_div_pow]
  rw [← e2]
  by_cases h : pmpMode b = 1#2
  · rw [h]; rfl
  · have : (pmpMode b).toNat ≠ 1 := fun h' => h (BitVec.eq_of_toNat_eq h')
    simp [h, this]

/-- NAPOT matching (R222): an address with `t` trailing ones covers the aligned `2^(t+3)` bytes around it. -/
theorem napotMatches_iff (v : Word) (t y : Nat) (hv : v.toNat < 2 ^ 54) (ht : v.toNat % 2 ^ (t + 1) = 2 ^ t - 1)
    (hy : y < 2 ^ 56) :
    napotMatches v y = true ↔
      v.toNat / 2 ^ (t + 1) * 2 ^ (t + 3) ≤ y ∧ y < v.toNat / 2 ^ (t + 1) * 2 ^ (t + 3) + 2 ^ (t + 3) := by
  have ht54 : t ≤ 54 := by
    by_contra h
    have h1 : 2 ^ t - 1 ≤ v.toNat := by rw [← ht]; exact Nat.mod_le _ _
    have : 2 ^ 55 ≤ 2 ^ t := Nat.pow_le_pow_right (by norm_num) (by omega)
    omega
  have hm : v ^^^ (v + 1) = lowOnes (t + 1) := by
    apply BitVec.eq_of_toNat_eq
    have h1 : (v + 1).toNat = v.toNat + 1 := by
      rw [BitVec.toNat_add]; show (v.toNat + 1) % _ = _
      omega
    have hl : (lowOnes (t + 1)).toNat = 2 ^ (t + 1) - 1 := by
      unfold lowOnes
      rw [BitVec.toNat_ofNat]
      apply Nat.mod_eq_of_lt
      have : 2 ^ (t + 1) ≤ 2 ^ 55 := Nat.pow_le_pow_right (by norm_num) (by omega)
      omega
    rw [BitVec.toNat_xor, h1, hl]
    obtain ⟨q, hq⟩ : ∃ q, q = v.toNat / 2 ^ (t + 1) := ⟨_, rfl⟩
    have e1 : v.toNat = q * 2 ^ (t + 1) + (2 ^ t - 1) := by
      rw [← ht, hq]; exact (Nat.div_add_mod' _ _).symm
    have hp := Nat.two_pow_pos t
    have e2 : v.toNat + 1 = q * 2 ^ (t + 1) + 2 ^ t := by omega
    have l1 : 2 ^ t - 1 < 2 ^ (t + 1) := by rw [pow_succ]; omega
    have l2 : 2 ^ t < 2 ^ (t + 1) := by rw [pow_succ]; omega
    rw [e2, e1, ← Nat.shiftLeft_eq, Nat.shiftLeft_add_eq_or_of_lt l1, Nat.shiftLeft_add_eq_or_of_lt l2]
    apply Nat.eq_of_testBit_eq
    intro i
    simp only [Nat.testBit_xor, Nat.testBit_or, Nat.testBit_shiftLeft, Nat.testBit_two_pow_sub_one, Nat.testBit_two_pow]
    by_cases h : t + 1 ≤ i
    · have a1 : ¬ i < t := by omega
      have a2 : ¬ t = i := by omega
      have a3 : ¬ i < t + 1 := by omega
      simp [a1, a2, a3]
    · have a3 : i < t + 1 := by omega
      have a4 : ¬ i ≥ t + 1 := by omega
      by_cases h2 : i = t
      · subst h2; simp
      · have a1 : i < t := by omega
        have a2 : ¬ t = i := by omega
        simp [a1, a2, a3, a4]
  unfold napotMatches
  rw [hm, beq_iff_eq]
  have hy4 : (BitVec.ofNat 64 (y / 4)).toNat = y / 4 := by
    rw [BitVec.toNat_ofNat]; apply Nat.mod_eq_of_lt; omega
  have : (BitVec.ofNat 64 (y / 4) &&& ~~~(lowOnes (t + 1)) = v &&& ~~~(lowOnes (t + 1))) ↔
      (y / 4) / 2 ^ (t + 1) = v.toNat / 2 ^ (t + 1) := by
    constructor
    · intro h
      have := congrArg BitVec.toNat h
      rw [clearLow_toNat, clearLow_toNat, hy4] at this
      exact Nat.eq_of_mul_eq_mul_right (Nat.two_pow_pos _) this
    · intro h
      apply BitVec.eq_of_toNat_eq
      rw [clearLow_toNat, clearLow_toNat, hy4, h]
  rw [this, Nat.div_div_eq_div_mul]
  have e : 4 * 2 ^ (t + 1) = 2 ^ (t + 3) := by
    rw [show t + 3 = (t + 1) + 2 by omega, pow_add _ (t + 1) 2]; norm_num [mul_comm]
  rw [e]
  generalize v.toNat / 2 ^ (t + 1) = q
  have hp := Nat.two_pow_pos (t + 3)
  rw [Nat.div_eq_iff hp]
  omega

theorem mem_accessBytes (addr n y : Nat) : y ∈ accessBytes addr n ↔ addr ≤ y ∧ y < addr + n := by
  unfold accessBytes
  simp only [List.mem_map, List.mem_range]
  constructor
  · rintro ⟨a, h, rfl⟩; omega
  · rintro ⟨h1, h2⟩; exact ⟨y - addr, by omega, by omega⟩

theorem pmpIndices_getElem (k : Nat) (h : k < 16) : pmpIndices[k]? = some ⟨k, h⟩ := by
  interval_cases k <;> rfl

theorem mem_pmpImplemented (c : Config) (hc : c.pmpEntries ≤ 16) (i : Fin 16) :
    i ∈ pmpImplemented c ↔ i.val < c.pmpEntries := by
  unfold pmpImplemented
  rw [List.mem_take_iff_getElem]
  constructor
  · rintro ⟨k, hk, rfl⟩
    have h16 : k < 16 := by simp [pmpIndices] at hk; omega
    have := pmpIndices_getElem k h16
    have h2 : pmpIndices[k]'(by simp [pmpIndices]; omega) = ⟨k, h16⟩ := by
      rw [List.getElem?_eq_getElem (by simp [pmpIndices]; omega)] at this
      exact Option.some.inj this
    rw [h2]; simp at hk ⊢; omega
  · intro h
    have hl : pmpIndices.length = 16 := rfl
    refine ⟨i.val, by rw [hl]; have := i.isLt; omega, ?_⟩
    have := pmpIndices_getElem i.val i.isLt
    rw [List.getElem?_eq_getElem (by rw [hl]; exact i.isLt)] at this
    exact Option.some.inj this

theorem pmpImplemented_sorted (c : Config) : (pmpImplemented c).Pairwise (· < ·) :=
  List.Pairwise.sublist (List.take_sublist _ _) (by decide)

/-- The scan of R230 over a rising list of entries: the first that matches any byte decides. -/
theorem pmpScan_iff (addr n : Nat) (t : AccessType) (p : Priv) (s : State) (hn : 0 < n) (l : List (Fin 16))
    (hl : l.Pairwise (· < ·)) :
    pmpScan addr n t p s l = true ↔
     ((∀ i ∈ l, ∀ y, addr ≤ y → y < addr + n → pmpMatches i s y = false) ∧ (p = .M ∨ s.cfg.pmpEntries = 0)) ∨
     ∃ i ∈ l, (∀ j ∈ l, j < i → ∀ y, addr ≤ y → y < addr + n → pmpMatches j s y = false) ∧
        (∀ y, addr ≤ y → y < addr + n → pmpMatches i s y = true) ∧ pmpGrants s.pmpcfg[i] t p = true := by
  induction l with
  | nil => simp [pmpScan]
  | cons a l ih =>
    rw [List.pairwise_cons] at hl
    have hany : (accessBytes addr n).any (pmpMatches a s) = true ↔
        ∃ y, addr ≤ y ∧ y < addr + n ∧ pmpMatches a s y = true := by
      rw [List.any_eq_true]
      simp only [mem_accessBytes, and_assoc]
    have hall : (accessBytes addr n).all (pmpMatches a s) = true ↔
        ∀ y, addr ≤ y → y < addr + n → pmpMatches a s y = true := by
      rw [List.all_eq_true]
      simp only [mem_accessBytes, and_imp]
    rw [pmpScan]
    by_cases h : (accessBytes addr n).any (pmpMatches a s) = true
    · rw [if_pos h, Bool.and_eq_true, hall]
      obtain ⟨y, h1, h2, h3⟩ := hany.mp h
      constructor
      · rintro ⟨ha, hg⟩
        refine .inr ⟨a, List.mem_cons_self .., ?_, ha, hg⟩
        intro j hj hja
        rcases List.mem_cons.mp hj with rfl | hj
        · exact absurd hja (lt_irrefl _)
        · exact absurd (hl.1 j hj) (not_lt.mpr hja.le)
      · rintro (⟨h4, -⟩ | ⟨i, hi, hb, ha, hg⟩)
        · rw [h4 a (List.mem_cons_self ..) y h1 h2] at h3; cases h3
        · rcases List.mem_cons.mp hi with rfl | hi
          · exact ⟨ha, hg⟩
          · rw [hb a (List.mem_cons_self ..) (hl.1 i hi) y h1 h2] at h3; cases h3
    · rw [if_neg h, ih hl.2]
      have hno : ∀ y, addr ≤ y → y < addr + n → pmpMatches a s y = false := by
        intro y h1 h2
        by_contra h3
        exact h (hany.mpr ⟨y, h1, h2, by simpa using h3⟩)
      refine or_congr (and_congr ⟨fun h => ?_, fun h i hi => h i (List.mem_cons_of_mem _ hi)⟩ Iff.rfl) ⟨?_, ?_⟩
      · intro i hi
        rcases List.mem_cons.mp hi with rfl | hi
        · exact hno
        · exact h i hi
      · rintro ⟨i, hi, hb, ha, hg⟩
        refine ⟨i, List.mem_cons_of_mem _ hi, ?_, ha, hg⟩
        intro j hj hji
        rcases List.mem_cons.mp hj with rfl | hj
        · exact hno
        · exact hb j hj hji
      · rintro ⟨i, hi, hb, ha, hg⟩
        rcases List.mem_cons.mp hi with rfl | hi
        · have := hno addr (le_refl _) (by omega)
          rw [ha addr (le_refl _) (by omega)] at this; cases this
        · exact ⟨i, hi, fun j hj => hb j (List.mem_cons_of_mem _ hj), ha, hg⟩

theorem extractByte_eq (v : Word) (j : Nat) : v.extractLsb' (8 * j) 8 = BitVec.ofNat 8 (v.toNat / 256 ^ j) := by
  apply BitVec.eq_of_toNat_eq
  rw [BitVec.extractLsb'_toNat, BitVec.toNat_ofNat, Nat.shiftRight_eq_div_pow, pow_mul]; norm_num

theorem pmpcfgWord_lt (s : State) : ∀ k i, k ≤ 8 → (pmpcfgWord s i k).toNat < 256 ^ k := by
  intro k
  induction k with
  | zero => intro i _; exact Nat.one_pos
  | succ k ih =>
    intro i hk
    have h1 := ih (i + 1) (by omega)
    have h2 := (pmpByte i s).isLt
    have h3 : 256 ^ k * 256 ≤ 2 ^ 64 := by
      rw [← pow_succ]
      calc 256 ^ (k + 1) ≤ 256 ^ 8 := Nat.pow_le_pow_right (by norm_num) hk
        _ = 2 ^ 64 := by norm_num
    rw [pmpcfgWord, BitVec.toNat_or, BitVec.toNat_shiftLeft, Nat.shiftLeft_eq, BitVec.toNat_setWidth]
    rw [Nat.mod_eq_of_lt (by omega : (pmpByte i s).toNat < 2 ^ 64),
      Nat.mod_eq_of_lt (by omega : (pmpcfgWord s (i + 1) k).toNat * 2 ^ 8 < 2 ^ 64)]
    rw [Nat.or_comm, ← Nat.shiftLeft_eq, ← Nat.shiftLeft_add_eq_or_of_lt h2, Nat.shiftLeft_eq, pow_succ]
    omega

/-- The configuration bytes of a `pmpcfg` CSR (R147, R148). -/
theorem pmpcfgWord_byte (s : State) (i k : Nat) (hk : k ≤ 8) :
    ∀ j, j < k → (pmpcfgWord s i k).toNat / 256 ^ j % 256 = (pmpByte (i + j) s).toNat := by
  have lt := pmpcfgWord_lt s
  induction k generalizing i with
  | zero => intro j hj; omega
  | succ k ih =>
    intro j hj
    have h1 := lt k (i + 1) (by omega)
    have h2 := (pmpByte i s).isLt
    have h3 : 256 ^ k * 256 ≤ 2 ^ 64 := by
      rw [← pow_succ]
      calc 256 ^ (k + 1) ≤ 256 ^ 8 := Nat.pow_le_pow_right (by norm_num) hk
        _ = 2 ^ 64 := by norm_num
    have e : (pmpcfgWord s i (k + 1)).toNat = (pmpcfgWord s (i + 1) k).toNat * 256 + (pmpByte i s).toNat := by
      rw [pmpcfgWord, BitVec.toNat_or, BitVec.toNat_shiftLeft, Nat.shiftLeft_eq, BitVec.toNat_setWidth]
      rw [Nat.mod_eq_of_lt (by omega : (pmpByte i s).toNat < 2 ^ 64),
        Nat.mod_eq_of_lt (by omega : (pmpcfgWord s (i + 1) k).toNat * 2 ^ 8 < 2 ^ 64)]
      rw [Nat.or_comm, ← Nat.shiftLeft_eq, ← Nat.shiftLeft_add_eq_or_of_lt h2, Nat.shiftLeft_eq]
    rw [e]
    cases j with
    | zero => rw [pow_zero, Nat.div_one]; show _ = (pmpByte i s).toNat; omega
    | succ j =>
      have := ih (i + 1) (by omega) j (by omega)
      rw [pow_succ, mul_comm (256 ^ j), ← Nat.div_div_eq_div_mul, show i + (j + 1) = i + 1 + j by omega, ← this]
      congr 2
      rw [mul_comm, Nat.mul_add_div (by norm_num), Nat.div_eq_of_lt h2]; rfl

theorem pmpPerCsr_eq (xl : Xlen) : pmpPerCsr xl = xl.bits / 8 := by cases xl <;> rfl

/-- The legal value of a configuration byte, bit by bit (R149, R332). -/
theorem legalPmpcfg_getLsbD (g : Nat) (old b : Byte) (k : Nat) : (legalPmpcfg g old b).getLsbD k =
   match k with
          | 0 => b.getLsbD 0
          | 1 => b.getLsbD 1 && b.getLsbD 0
          | 2 => b.getLsbD 2
          | 3 => if 1 ≤ g ∧ b.toNat / 8 % 4 = 2 then old.getLsbD 3 else b.getLsbD 3
          | 4 => if 1 ≤ g ∧ b.toNat / 8 % 4 = 2 then old.getLsbD 4 else b.getLsbD 4
          | 7 => b.getLsbD 7
          | _ => false := by
  have hA : ∀ c : Byte, (∀ i, i = 3 ∨ i = 4 → c.getLsbD i = b.getLsbD i) →
      ((pmpMode c == 2#2) = decide (b.toNat / 8 % 4 = 2)) := by
    intro c hc
    have e : pmpMode c = pmpMode b := by
      unfold pmpMode
      apply BitVec.eq_of_getLsbD_eq
      intro i hi
      rw [BitVec.getLsbD_extractLsb', BitVec.getLsbD_extractLsb', hc _ (by omega)]
    have e2 : (pmpMode b).toNat = b.toNat / 8 % 4 := by
      unfold pmpMode
      rw [BitVec.extractLsb'_toNat, Nat.shiftRight_eq_div_pow]
    rw [e, ← e2]
    by_cases h : pmpMode b = 2#2
    · rw [h]; rfl
    · have : (pmpMode b).toNat ≠ 2 := fun h' => h (BitVec.eq_of_toNat_eq h')
      simp [h, this]
  have h9 : ∀ i, (b &&& 0x9F).getLsbD i = (b.getLsbD i && (0x9F : Byte).getLsbD i) := fun i => BitVec.getLsbD_and
  obtain ⟨c, hcdef⟩ : ∃ c, c =
      (if !(b &&& 0x9F).getLsbD 0 && (b &&& 0x9F).getLsbD 1 then (b &&& 0x9F) &&& 0xFD else b &&& 0x9F) := ⟨_, rfl⟩
  have hcb : ∀ i, c.getLsbD i =
      (b.getLsbD i && (0x9F : Byte).getLsbD i && ((0xFD : Byte).getLsbD i || !(!b.getLsbD 0 && b.getLsbD 1))) := by
    intro i
    rw [hcdef, h9, h9, show (0x9F : Byte).getLsbD 0 = true from rfl, show (0x9F : Byte).getLsbD 1 = true from rfl,
      Bool.and_true, Bool.and_true]
    cases (!b.getLsbD 0 && b.getLsbD 1)
    · simp only [Bool.false_eq_true, if_false, h9]; simp
    · simp only [if_true, BitVec.getLsbD_and]; simp
  have hl : legalPmpcfg g old b = if 1 ≤ g && pmpMode c == 2#2 then (c &&& 0xE7) ||| (old &&& 0x18) else c := by
    rw [hcdef]; rfl
  have hm := hA c (by
    intro i hi
    rw [hcb]
    rcases hi with rfl | rfl
    · rw [show (0x9F : Byte).getLsbD 3 = true from rfl, show (0xFD : Byte).getLsbD 3 = true from rfl]; simp
    · rw [show (0x9F : Byte).getLsbD 4 = true from rfl, show (0xFD : Byte).getLsbD 4 = true from rfl]; simp)
  rw [hl, hm]
  have hbit : ∀ q : Bool, (if q then (c &&& 0xE7) ||| (old &&& 0x18) else c).getLsbD k =
      if q then (c.getLsbD k && (0xE7 : Byte).getLsbD k) || (old.getLsbD k && (0x18 : Byte).getLsbD k) else c.getLsbD k := by
    intro q; cases q
    · rfl
    · simp only [if_true, BitVec.getLsbD_or, BitVec.getLsbD_and]
  rw [hbit, hcb]
  have hq : (decide (1 ≤ g) && decide (b.toNat / 8 % 4 = 2)) = decide (1 ≤ g ∧ b.toNat / 8 % 4 = 2) := by simp
  rw [hq]
  by_cases hk : k < 8
  · by_cases hc : 1 ≤ g ∧ b.toNat / 8 % 4 = 2
    · rw [decide_eq_true hc]
      simp only [if_true, if_pos hc]
      clear hA h9 hcdef hcb hl hm hbit hq
      interval_cases k <;> simp
      all_goals (cases b[0] <;> cases b[1] <;> simp)
    · rw [decide_eq_false hc]
      simp only [Bool.false_eq_true, if_false, if_neg hc]
      clear hA h9 hcdef hcb hl hm hbit hq
      interval_cases k <;> simp
      all_goals (cases b[0] <;> cases b[1] <;> simp)
  · obtain ⟨j, rfl⟩ : ∃ j, k = j + 8 := ⟨k - 8, by omega⟩
    rw [BitVec.getLsbD_of_ge b _ (by omega), BitVec.getLsbD_of_ge old _ (by omega)]
    simp

/-- When a write of `pmpaddrN` is ignored (R153). -/
theorem pmpaddrHeld_iff (n : Fin 16) (s : State) :
    pmpaddrHeld n s = true ↔ (s.cfg.pmpEntries ≤ n.val ∨ s.pmpcfg[n].getLsbD 7 = true ∨
        (∃ m : Fin 16, m.val = n.val + 1 ∧ s.pmpcfg[m].getLsbD 7 = true ∧ s.pmpcfg[m].toNat / 8 % 4 = 1)) := by
  unfold pmpaddrHeld pmpLocked
  simp only [Bool.or_eq_true, Bool.and_eq_true, decide_eq_true_eq, pmpMode_tor, or_assoc, and_assoc]
  refine or_congr Iff.rfl (or_congr Iff.rfl ?_)
  constructor
  · rintro ⟨h1, h2, h3⟩
    have e : pmpByte (n.val + 1) s = s.pmpcfg[(⟨n.val + 1, by omega⟩ : Fin 16)] := by
      unfold pmpByte; rw [dif_pos (by omega)]; rfl
    rw [e] at h2 h3
    exact ⟨⟨n.val + 1, by omega⟩, rfl, h2, h3⟩
  · rintro ⟨m, h1, h2, h3⟩
    have e : pmpByte (n.val + 1) s = s.pmpcfg[m] := by
      unfold pmpByte; rw [dif_pos (by omega)]; simp only [← h1]; rfl
    rw [e]
    exact ⟨by omega, h2, h3⟩

end Sys2Proof.Machine
end

