-- ==== Sys2Proof/Laws/Reset.lean ====
section
/-! SUPPORT. Reset: each legalising function answers a legal value, and answers a legal value with itself (D24). -/

namespace Sys2Proof.Machine

/-! ### `mstatus` and `mip` -/

theorem legalMstatus_hasMode (c : Config) (m : Mstatus) : c.hasMode (legalMstatus c m).mpp = true := by
  show c.hasMode (if c.hasMode m.mpp then m.mpp else .M) = true
  split
  · assumption
  · rfl

theorem legalMstatus_of_legal {s : State} (hm : legalModes s) (ha : absentZero s) :
    legalMstatus s.cfg s.mstatus = s.mstatus := by
  obtain ⟨-, hp, -⟩ := hm
  obtain ⟨hS, hN, hU⟩ := ha
  unfold legalMstatus
  rw [if_pos hp]
  cases h1 : s.cfg.hasS <;> cases h2 : s.cfg.hasN <;> cases h3 : s.cfg.hasU <;>
    cases hx : s.mstatus <;> simp_all

theorem legalMip_of_legal {s : State} (ha : absentZero s) : legalMip s.cfg s.mip = s.mip := by
  obtain ⟨hS, hN, -⟩ := ha
  unfold legalMip
  cases h1 : s.cfg.hasS <;> cases h2 : s.cfg.hasN <;> cases hx : s.mip <;> simp_all

/-! ### The trap registers -/

theorem legalTvec_mode (v : Word) : (legalTvec 0 v).toNat % 4 < 2 := by
  rw [legalTvec_toNat, show (0 : Word).toNat = 0 from rfl]
  split <;> omega

theorem legalTvec_le (v : Word) : (legalTvec 0 v).toNat ≤ v.toNat := by
  rw [legalTvec_toNat, show (0 : Word).toNat = 0 from rfl]
  split <;> omega

theorem legalTrapRegs_fit (xl : Xlen) (t : TrapRegs) : trapRegsFit xl (legalTrapRegs xl t) := by
  have h := truncX_lt xl
  refine ⟨lt_of_le_of_lt (legalTvec_le _) (h _), h _, lt_of_le_of_lt ?_ (h t.epc), h _, h _⟩
  rw [show (legalTrapRegs xl t).epc = alignWord (truncX xl t.epc) from rfl, alignWord_toNat]
  omega

theorem legalTrapRegs_aligned (xl : Xlen) (t : TrapRegs) : (legalTrapRegs xl t).epc.toNat % 4 = 0 := by
  rw [show (legalTrapRegs xl t).epc = alignWord (truncX xl t.epc) from rfl, alignWord_toNat]
  omega

theorem legalTrapRegs_of_legal {xl : Xlen} {t : TrapRegs} (hf : trapRegsFit xl t) (ht : t.tvec.toNat % 4 < 2)
    (he : t.epc.toNat % 4 = 0) : legalTrapRegs xl t = t := by
  obtain ⟨h1, h2, h3, h4, h5⟩ := hf
  have hv : legalTvec 0 t.tvec = t.tvec := by
    apply BitVec.eq_of_toNat_eq
    rw [legalTvec_toNat, if_pos ht]
    omega
  have ha : alignWord t.epc = t.epc := by
    apply BitVec.eq_of_toNat_eq
    rw [alignWord_toNat]
    omega
  unfold legalTrapRegs
  rw [truncX_of_lt h1, truncX_of_lt h2, truncX_of_lt h3, truncX_of_lt h4, truncX_of_lt h5, hv, ha]

/-! ### Masks -/

theorem within_and (m v : Word) : within m (v &&& m) := by
  apply BitVec.eq_of_getLsbD_eq
  intro k hk
  simp only [BitVec.getLsbD_and, BitVec.getLsbD_not]
  cases m.getLsbD k <;> simp

theorem and_of_clear {n : Nat} {m v : BitVec n} (h : v &&& ~~~m = 0) : v &&& m = v := by
  apply BitVec.eq_of_getLsbD_eq
  intro k hk
  have hb := congrArg (fun w => w.getLsbD k) h
  simp only [BitVec.getLsbD_and, BitVec.getLsbD_not, hk] at hb ⊢
  cases hv : v.getLsbD k <;> cases hm : m.getLsbD k <;> simp_all

theorem and_and_not {n : Nat} (m v : BitVec n) : v &&& m &&& ~~~m = 0 := by
  apply BitVec.eq_of_getLsbD_eq
  intro k hk
  simp only [BitVec.getLsbD_and, BitVec.getLsbD_not]
  cases m.getLsbD k <;> simp

/-! ### Memory -/

theorem canonicalMemory_wf (m : Memory) : Memory.wf (canonicalMemory m) = true := by
  induction m with
  | nil => rfl
  | cons c m ih => exact memWrite_wf ih c.1 c.2

theorem memRead_canonicalMemory (m : Memory) (a : Nat) : memRead (canonicalMemory m) a = memRead m a := by
  induction m with
  | nil => rfl
  | cons c m ih =>
    rw [show canonicalMemory (c :: m) = memWrite (canonicalMemory m) c.1 c.2 from rfl,
      memRead_memWrite (canonicalMemory_wf m), memRead, ih]
    exact if_congr eq_comm rfl rfl

theorem canonicalMemory_of_wf {m : Memory} (h : Memory.wf m = true) : canonicalMemory m = m :=
  memory_ext (canonicalMemory_wf m) h (memRead_canonicalMemory m)

/-! ### PMP -/

/-- The configuration bytes after reset, bit by bit: A and L are zero, so are bits 6:5, and W needs R. -/
theorem resetPmpcfg_getLsbD (c : Config) (i : Nat) (b : Byte) (k : Nat) :
    (resetPmpcfg c i b).getLsbD k =
      (decide (i < c.pmpEntries) &&
        match k with
        | 0 => b.getLsbD 0
        | 1 => b.getLsbD 1 && b.getLsbD 0
        | 2 => b.getLsbD 2
        | _ => false) := by
  unfold resetPmpcfg
  split
  · rename_i h
    rw [legalPmpcfg_getLsbD]
    by_cases hk : k < 8
    · interval_cases k <;> simp [h]
    · obtain ⟨j, rfl⟩ : ∃ j, k = j + 8 := ⟨k - 8, by omega⟩
      simp
  · rename_i h
    simp [h]

theorem hartReset_pmpcfg (u s : State) (i : Fin 16) :
    (hartReset u s).pmpcfg[i] = resetPmpcfg s.cfg i.val u.pmpcfg[i] := by
  simp [hartReset]

theorem hartReset_pmpaddr (u s : State) (i : Fin 16) :
    (hartReset u s).pmpaddr[i] = resetPmpaddr s.cfg i.val u.pmpaddr[i] := by
  simp [hartReset]

theorem resetPmpaddr_within (c : Config) (i : Nat) (a : Word) : within (pmpaddrMask c) (resetPmpaddr c i a) := by
  unfold resetPmpaddr
  split
  · exact within_and _ _
  · simp [within]

/-- Every entry is OFF after reset. -/
theorem hartReset_pmpMode (u s : State) (i : Fin 16) : pmpMode (hartReset u s).pmpcfg[i] = 0#2 := by
  apply BitVec.eq_of_getLsbD_eq
  intro k hk
  rw [pmpMode_getLsbD _ _ hk, hartReset_pmpcfg, resetPmpcfg_getLsbD]
  interval_cases k <;> simp

end Sys2Proof.Machine
end

