-- ==== Sys2Proof/Laws/Step.lean ====
section
/-! SUPPORT. Everything an instruction and a step can do, said once: later proofs take these cases and never unfold `exec`
or `step`. -/

namespace Sys2Proof.Machine

/-- The store instruction of a size. -/
def storeOf (sz : MemSize) (rs2 rs1 : Reg) (imm : BitVec 12) : Instr :=
  match sz with
  | .byte => .sb rs2 rs1 imm
  | .half => .sh rs2 rs1 imm
  | .word => .sw rs2 rs1 imm
  | .dword => .sd rs2 rs1 imm

/-- What executing `i` in `s` may leave. -/
inductive Effect (i : Instr) (s : State) : State → Prop
  /-- The instruction takes an exception. -/
  | trap (r : Raised) : Effect i s (takeException r s)
  /-- It only moves on. -/
  | move : Effect i s (retire (advancePc s))
  /-- It writes a register and moves on. -/
  | write (rd : Reg) (v : Word) : Effect i s (retire (advancePc (writeX rd v s)))
  /-- It transfers control, and may write a register. -/
  | jump (rd : Reg) (v target : Word) (ha : target.toNat % 4 = 0) (hw : target.toNat < 2 ^ s.cfg.xlen.bits) :
      Effect i s (retire { writeX rd v s with pc := target })
  /-- It is a store of `sz` at its effective address, and moves on. -/
  | store (sz : MemSize) (ea v : Word) (r : Region) (h : checkAccess .W ea sz.bytes s = .ok r)
      (hi : ∃ rs2 rs1 imm, i = storeOf sz rs2 rs1 imm ∧ ea = effAddr rs1 imm s) :
      Effect i s (retire (advancePc (regionWrite r ea.toNat sz.bytes v s)))
  /-- It accesses a CSR. -/
  | csr (a : CsrAddr) (c : Csr) (w : Bool) (rd : Reg) (f : Word → Word) (h : csrAccess a w s = some c) :
      Effect i s (csrComplete c w rd f s)
  /-- MRET. -/
  | mret (hi : i = .mret) (h : s.priv = .M) : Effect i s (retire (returnFromTrap .M s))
  /-- SRET. -/
  | sret (hi : i = .sret) (hS : s.cfg.hasS = true) (h : s.priv = .M ∨ s.priv = .S) :
      Effect i s (retire (returnFromTrap .S s))
  /-- URET. -/
  | uret (hi : i = .uret) (h : s.cfg.hasN = true) : Effect i s (retire (returnFromTrap .U s))
  /-- WFI. -/
  | wfi : Effect i s (retire (advancePc { s with wfiStalled := true }))

theorem raise_effect (i : Instr) (r : Raised) (s : State) : ∃ t, raise r s = .next t ∧ Effect i s t := ⟨_, rfl, .trap r⟩

theorem finishPlain_effect (i : Instr) (s : State) : ∃ t, finishPlain s = .next t ∧ Effect i s t := ⟨_, rfl, .move⟩

theorem finishRd_effect (i : Instr) (rd : Reg) (v : Word) (s : State) : ∃ t, finishRd rd v s = .next t ∧ Effect i s t :=
  ⟨_, rfl, .write rd v⟩

theorem onRv64_effect {i : Instr} {s : State} {o : Host.Outcome State Fault Refusal} (h : ∃ t, o = .next t ∧ Effect i s t) :
    ∃ t, onRv64 i s o = .next t ∧ Effect i s t := by
  unfold onRv64
  split
  · exact h
  · exact raise_effect i _ s

theorem shiftImm_effect (i : Instr) (shamt : BitVec 6) (rd : Reg) (v : Word) (s : State) :
    ∃ t, shiftImm i shamt rd v s = .next t ∧ Effect i s t := by
  unfold shiftImm
  split
  · exact finishRd_effect i rd v s
  · exact raise_effect i _ s

theorem jumpLink_effect (i : Instr) (rd : Reg) (target : Word) (s : State) (hw : target.toNat < 2 ^ s.cfg.xlen.bits) :
    ∃ t, jumpLink rd target s = .next t ∧ Effect i s t := by
  unfold jumpLink
  by_cases ha : target.toNat % 4 = 0
  · exact ⟨_, transferTo_aligned _ s ha, .jump rd _ target ha hw⟩
  · exact ⟨_, transferTo_misaligned _ s ha, .trap _⟩

theorem branch_effect (i : Instr) (taken : Bool) (imm : BitVec 12) (s : State) :
    ∃ t, branch taken imm s = .next t ∧ Effect i s t := by
  unfold branch
  split
  · by_cases ha : (truncX s.cfg.xlen (s.pc + immB imm)).toNat % 4 = 0
    · exact ⟨_, transferTo_aligned _ s ha, .jump 0 0 _ ha (truncX_lt _ _)⟩
    · exact ⟨_, transferTo_misaligned _ s ha, .trap _⟩
  · exact finishPlain_effect i s

theorem loadInstr_effect (i : Instr) (sz : MemSize) (ext : Word → Word) (rd rs1 : Reg) (imm : BitVec 12) (s : State) :
    ∃ t, loadInstr sz ext rd rs1 imm s = .next t ∧ Effect i s t := by
  cases h : checkAccess .R (effAddr rs1 imm s) sz.bytes s with
  | ok r => exact ⟨_, loadInstr_ok h, .write rd _⟩
  | error e => exact ⟨_, loadInstr_error h, .trap e⟩

theorem storeInstr_effect (sz : MemSize) (rs2 rs1 : Reg) (imm : BitVec 12) (s : State) :
    ∃ t, storeInstr sz rs2 rs1 imm s = .next t ∧ Effect (storeOf sz rs2 rs1 imm) s t := by
  cases h : checkAccess .W (effAddr rs1 imm s) sz.bytes s with
  | ok r => exact ⟨_, storeInstr_ok h, .store sz _ _ r h ⟨rs2, rs1, imm, rfl, rfl⟩⟩
  | error e => exact ⟨_, storeInstr_error h, .trap e⟩

theorem csrInstr_effect (i : Instr) (a : CsrAddr) (w : Bool) (rd : Reg) (f : Word → Word) (s : State) :
    ∃ t, csrInstr i a w rd f s = .next t ∧ Effect i s t := by
  unfold csrInstr
  cases h : csrAccess a w s with
  | some c => exact ⟨_, rfl, .csr a c w rd f h⟩
  | none => exact raise_effect i _ s

theorem mret_effect (s : State) : ∃ t, execMret s = .next t ∧ Effect .mret s t := by
  unfold execMret execReturn
  split
  · rename_i h
    exact ⟨_, rfl, .mret rfl (by simpa [mretLegal] using h)⟩
  · exact raise_effect _ _ s

theorem sret_effect (s : State) : ∃ t, execSret s = .next t ∧ Effect .sret s t := by
  unfold execSret execReturn
  split
  · rename_i h
    simp only [sretLegal, Bool.and_eq_true, Bool.or_eq_true, beq_iff_eq] at h
    exact ⟨_, rfl, .sret rfl h.1 (h.2.imp id And.left)⟩
  · exact raise_effect _ _ s

theorem uret_effect (s : State) : ∃ t, execUret s = .next t ∧ Effect .uret s t := by
  unfold execUret execReturn
  split
  · rename_i h
    exact ⟨_, rfl, .uret rfl h⟩
  · exact raise_effect _ _ s

theorem wfi_effect (s : State) : ∃ t, execWfi s = .next t ∧ Effect .wfi s t := by
  unfold execWfi
  split
  · exact ⟨_, rfl, .wfi⟩
  · exact raise_effect _ _ s

theorem sfenceVma_effect (rs1 rs2 : Reg) (s : State) :
    ∃ t, execSfenceVma rs1 rs2 s = .next t ∧ Effect (.sfenceVma rs1 rs2) s t := by
  unfold execSfenceVma
  split
  · exact finishPlain_effect _ s
  · exact raise_effect _ _ s

/-- Every instruction answers a next state, and it is one of the effects above. -/
theorem exec_effect (i : Instr) (s : State) : ∃ t, exec i s = .next t ∧ Effect i s t := by
  cases i with
  | csrrw rd a rs1 => exact csrInstr_effect _ _ _ _ _ s
  | csrrs rd a rs1 => exact csrInstr_effect _ _ _ _ _ s
  | csrrc rd a rs1 => exact csrInstr_effect _ _ _ _ _ s
  | csrrwi rd a uimm => exact csrInstr_effect _ _ _ _ _ s
  | csrrsi rd a uimm => exact csrInstr_effect _ _ _ _ _ s
  | csrrci rd a uimm => exact csrInstr_effect _ _ _ _ _ s
  | ecall => exact raise_effect _ _ s
  | ebreak => exact raise_effect _ _ s
  | mret => exact mret_effect s
  | sret => exact sret_effect s
  | uret => exact uret_effect s
  | wfi => exact wfi_effect s
  | sfenceVma rs1 rs2 => exact sfenceVma_effect rs1 rs2 s
  | lui rd imm => exact finishRd_effect _ _ _ s
  | auipc rd imm => exact finishRd_effect _ _ _ s
  | jal rd imm => exact jumpLink_effect _ _ _ s (truncX_lt _ _)
  | jalr rd rs1 imm =>
    refine jumpLink_effect _ _ _ s (lt_of_le_of_lt ?_ (truncX_lt s.cfg.xlen (readX rs1 s + imm12 imm)))
    rw [clearBit0_toNat]
    omega
  | beq rs1 rs2 imm => exact branch_effect _ _ _ s
  | bne rs1 rs2 imm => exact branch_effect _ _ _ s
  | blt rs1 rs2 imm => exact branch_effect _ _ _ s
  | bge rs1 rs2 imm => exact branch_effect _ _ _ s
  | bltu rs1 rs2 imm => exact branch_effect _ _ _ s
  | bgeu rs1 rs2 imm => exact branch_effect _ _ _ s
  | lb rd rs1 imm => exact loadInstr_effect _ _ _ _ _ _ s
  | lh rd rs1 imm => exact loadInstr_effect _ _ _ _ _ _ s
  | lw rd rs1 imm => exact loadInstr_effect _ _ _ _ _ _ s
  | lbu rd rs1 imm => exact loadInstr_effect _ _ _ _ _ _ s
  | lhu rd rs1 imm => exact loadInstr_effect _ _ _ _ _ _ s
  | sb rs2 rs1 imm => exact storeInstr_effect .byte _ _ _ s
  | sh rs2 rs1 imm => exact storeInstr_effect .half _ _ _ s
  | sw rs2 rs1 imm => exact storeInstr_effect .word _ _ _ s
  | addi rd rs1 imm => exact finishRd_effect _ _ _ s
  | slti rd rs1 imm => exact finishRd_effect _ _ _ s
  | sltiu rd rs1 imm => exact finishRd_effect _ _ _ s
  | xori rd rs1 imm => exact finishRd_effect _ _ _ s
  | ori rd rs1 imm => exact finishRd_effect _ _ _ s
  | andi rd rs1 imm => exact finishRd_effect _ _ _ s
  | slli rd rs1 shamt => exact shiftImm_effect _ _ _ _ s
  | srli rd rs1 shamt => exact shiftImm_effect _ _ _ _ s
  | srai rd rs1 shamt => exact shiftImm_effect _ _ _ _ s
  | add rd rs1 rs2 => exact finishRd_effect _ _ _ s
  | sub rd rs1 rs2 => exact finishRd_effect _ _ _ s
  | sll rd rs1 rs2 => exact finishRd_effect _ _ _ s
  | slt rd rs1 rs2 => exact finishRd_effect _ _ _ s
  | sltu rd rs1 rs2 => exact finishRd_effect _ _ _ s
  | xor rd rs1 rs2 => exact finishRd_effect _ _ _ s
  | srl rd rs1 rs2 => exact finishRd_effect _ _ _ s
  | sra rd rs1 rs2 => exact finishRd_effect _ _ _ s
  | or rd rs1 rs2 => exact finishRd_effect _ _ _ s
  | and rd rs1 rs2 => exact finishRd_effect _ _ _ s
  | fence rd rs1 fm pred succ => exact finishPlain_effect _ s
  | fenceI rd rs1 imm => exact finishPlain_effect _ s
  | lwu rd rs1 imm => exact onRv64_effect (loadInstr_effect _ _ _ _ _ _ s)
  | ld rd rs1 imm => exact onRv64_effect (loadInstr_effect _ _ _ _ _ _ s)
  | sd rs2 rs1 imm => exact onRv64_effect (storeInstr_effect .dword _ _ _ s)
  | addiw rd rs1 imm => exact onRv64_effect (finishRd_effect _ _ _ s)
  | slliw rd rs1 shamt => exact onRv64_effect (finishRd_effect _ _ _ s)
  | srliw rd rs1 shamt => exact onRv64_effect (finishRd_effect _ _ _ s)
  | sraiw rd rs1 shamt => exact onRv64_effect (finishRd_effect _ _ _ s)
  | addw rd rs1 rs2 => exact onRv64_effect (finishRd_effect _ _ _ s)
  | subw rd rs1 rs2 => exact onRv64_effect (finishRd_effect _ _ _ s)
  | sllw rd rs1 rs2 => exact onRv64_effect (finishRd_effect _ _ _ s)
  | srlw rd rs1 rs2 => exact onRv64_effect (finishRd_effect _ _ _ s)
  | sraw rd rs1 rs2 => exact onRv64_effect (finishRd_effect _ _ _ s)

theorem effect_of_exec {i : Instr} {s t : State} (h : exec i s = .next t) : Effect i s t := by
  obtain ⟨u, hu, he⟩ := exec_effect i s
  rw [h] at hu
  cases hu
  exact he

/-- What one step may do. -/
inductive StepEffect (s : State) : State → Prop
  /-- The hart is stalled and stays so. -/
  | stalled (h : s.wfiStalled = true) (hw : wakes s = false) : StepEffect s (passTime s)
  /-- An interrupt is taken. -/
  | interrupt (k : Nat) (h : nextInterrupt (awaken s) = some k) : StepEffect s (passTime (takeInterrupt k (awaken s)))
  /-- The fetch or the decoding raises an exception. -/
  | raised (r : Raised) : StepEffect s (passTime (takeException r (awaken s)))
  /-- An instruction is executed. -/
  | executed (w : InstWord) (i : Instr) (t : State) (hf : fetch (awaken s) = .ok w)
      (hd : decodeWord s.cfg.xlen w = .ok i) (hx : exec i (awaken s) = .next t) (he : Effect i (awaken s) t) :
      StepEffect s (passTime t)

/-- Every step answers a next state, and it is one of the effects above. -/
theorem step_effect (s : State) : ∃ t, step s = .next t ∧ StepEffect s t := by
  unfold step runBoundary
  split
  · rename_i h
    simp only [Bool.and_eq_true, Bool.not_eq_true'] at h
    exact ⟨_, rfl, .stalled h.1 h.2⟩
  · unfold runAwake
    split
    · rename_i k hk
      exact ⟨_, rfl, .interrupt k hk⟩
    · unfold execAtPc
      split
      · rename_i w hf
        unfold execWord
        split
        · rename_i i hd
          obtain ⟨t, hx, he⟩ := exec_effect i (awaken s)
          rw [hx]
          exact ⟨_, rfl, .executed w i t hf hd hx he⟩
        · exact ⟨_, rfl, .raised _⟩
      · exact ⟨_, rfl, .raised _⟩

theorem effect_of_step {s t : State} (h : step s = .next t) : StepEffect s t := by
  obtain ⟨u, hu, he⟩ := step_effect s
  rw [h] at hu
  cases hu
  exact he

end Sys2Proof.Machine
end

