-- ==== Sys2Proof/Tests/Slice0.lean ====
section
/-! SUPPORT. The tests: ill-formed terms refused, words of the spec decoded, single steps against the vectors of
`95_test_vectors.md`, and, for every obligation with hypotheses, states and operands that meet them. -/

namespace Sys2Proof.Tests

open Sys2Proof.Machine

/-! ### Building small states -/

/-- A platform that lets no time pass and raises no line. -/
def quiet : PlatformInput where
  lines := { meip := false, seip := false, ueip := false, wake := false }
  mtimeTicks := 0
  cycles := 0

/-- The start state of the vectors (`95_test_vectors.md`, conventions), with one quiet platform input. -/
def hart (xl : Xlen) (modes : Modes) (extN : Bool := false) : State :=
  { State.reset with
    cfg := { Config.default with xlen := xl, modes := modes, extN := extN, palen := if xl = .rv32 then 34 else 56 }
    mstatus := { Mstatus.reset with mpp := if modes = .m then .M else .U }
    mtrap := { TrapRegs.zero with tvec := 0x80000100 }
    strap := { TrapRegs.zero with tvec := 0x80000200 }
    inputs := [quiet] }

/-- The RV32 hart with M, S and U. -/
def h32 : State := hart .rv32 .msu

/-- The RV64 hart with M, S and U. -/
def h64 : State := hart .rv64 .msu

/-- Registers set. -/
def withX (l : List (Reg × Word)) (s : State) : State := l.foldl (fun s p => writeX p.1 p.2 s) s

/-- A CSR set. -/
def withCsr (c : Csr) (v : Word) (s : State) : State := csrWrite c v s

/-- The hart in mode `p`, PMP entry 0 opening the whole RV32 address space (B.10). -/
def inMode (p : Priv) (s : State) : State :=
  { s with priv := p, pmpcfg := s.pmpcfg.set 0 0x1F, pmpaddr := s.pmpaddr.set 0 0xFFFFFFFF }

/-- The memory of B.4: bytes 80 FF 7F 00 78 56 34 92 at 0x80001000, and `x6` at their start. -/
def atData (s : State) : State := withX [(6, 0x80001000)] { s with mem := writeLE s.mem 0x80001000 8 0x92345678007FFF80 }

/-- One step of the hart on the word `w`, seen through `f`. -/
def after {α : Type} (w : Nat) (s : State) (f : State → α) : Option α :=
  match step (s.withFetchWord 32 w) with
  | .next t => some (f t)
  | _ => none

/-- `x5` and `pc`. -/
def x5pc (t : State) : Word × Word := (readX 5 t, t.pc)

/-- `x1` and `pc`. -/
def x1pc (t : State) : Word × Word := (readX 1 t, t.pc)

/-- What a trap into M-mode leaves: `mcause`, `mepc`, `mtval`, `pc`. -/
def trapM (t : State) : List Word := [t.mtrap.cause, t.mtrap.epc, t.mtrap.tval, t.pc]

/-- What a trap into S-mode leaves: `scause`, `sepc`, `stval`, `pc`. -/
def trapS (t : State) : List Word := [t.strap.cause, t.strap.epc, t.strap.tval, t.pc]

/-- The eight bytes at 0x80001000. -/
def data (t : State) : Word := readLE t.mem 0x80001000 8

/-! ### Ill-formed terms are refused (R283, R287) -/

theorem test_wf_refuses_rv64_row_on_rv32 :
    (Instr.ld 5 6 0).wellFormed .rv32 = false ∧ (Instr.addw 5 6 7).wellFormed .rv32 = false := by decide

theorem test_wf_refuses_wide_shamt_on_rv32 :
    (Instr.slli 5 6 32).wellFormed .rv32 = false ∧ (Instr.srai 5 6 63).wellFormed .rv32 = false := by decide

theorem test_wf_accepts :
    (Instr.slli 5 6 31).wellFormed .rv32 = true ∧ (Instr.slli 5 6 63).wellFormed .rv64 = true ∧
      (Instr.ld 5 6 0).wellFormed .rv64 = true := by decide

/-! ### Decoding: words written out in `40_csr_instructions.md`, `41_privileged_instructions.md` and
`45_base_integer_companion.md` -/

/-- The word decodes to `i` on a hart of width `xl`, and `i` encodes back to it. -/
def reads (xl : Xlen) (l : List (InstWord × Instr)) : Bool :=
  l.all (fun p => (match decodeWord xl p.1 with | .ok i => i == p.2 | .error _ => false) && encode p.2 == p.1)

theorem test_decode_system :
    reads .rv32 [
      (0x340110F3, .csrrw 1 0x340 2),
      (0x3002A073, .csrrs 0 0x300 5),
      (0x3002B373, .csrrc 6 0x300 5),
      (0x3402D073, .csrrwi 0 0x340 5),
      (0x30046073, .csrrsi 0 0x300 8),
      (0x300473F3, .csrrci 7 0x300 8)] = true := by decide

theorem test_decode_privileged :
    reads .rv32 [
      (0x00000073, .ecall),
      (0x00100073, .ebreak),
      (0x30200073, .mret),
      (0x10200073, .sret),
      (0x00200073, .uret),
      (0x10500073, .wfi),
      (0x12418073, .sfenceVma 3 4)] = true := by decide

theorem test_decode_control :
    reads .rv32 [
      (0x123452B7, .lui 5 0x12345),
      (0x00001317, .auipc 6 1),
      (0x001000EF, .jal 1 1024),
      (0x004100E7, .jalr 1 2 4),
      (0xFE208CE3, .beq 1 2 0xFFC),
      (0xFE209CE3, .bne 1 2 0xFFC),
      (0xFE20CCE3, .blt 1 2 0xFFC),
      (0xFE20DCE3, .bge 1 2 0xFFC),
      (0xFE20ECE3, .bltu 1 2 0xFFC),
      (0xFE20FCE3, .bgeu 1 2 0xFFC)] = true := by decide

theorem test_decode_memory :
    reads .rv32 [
      (0xFFF10283, .lb 5 2 0xFFF),
      (0xFFF11283, .lh 5 2 0xFFF),
      (0xFFF12283, .lw 5 2 0xFFF),
      (0xFFF14283, .lbu 5 2 0xFFF),
      (0xFFF15283, .lhu 5 2 0xFFF),
      (0x00510223, .sb 5 2 4),
      (0x00511223, .sh 5 2 4),
      (0x00512223, .sw 5 2 4)] = true := by decide

theorem test_decode_immediate :
    reads .rv32 [
      (0xFFF30293, .addi 5 6 0xFFF),
      (0x00132293, .slti 5 6 1),
      (0xFFF33293, .sltiu 5 6 0xFFF),
      (0xFFF34293, .xori 5 6 0xFFF),
      (0x70036293, .ori 5 6 0x700),
      (0x0FF37293, .andi 5 6 0xFF),
      (0x00431293, .slli 5 6 4),
      (0x00435293, .srli 5 6 4),
      (0x40435293, .srai 5 6 4)] = true := by decide

theorem test_decode_register :
    reads .rv32 [
      (0x007302B3, .add 5 6 7),
      (0x407302B3, .sub 5 6 7),
      (0x007312B3, .sll 5 6 7),
      (0x007322B3, .slt 5 6 7),
      (0x007332B3, .sltu 5 6 7),
      (0x007342B3, .xor 5 6 7),
      (0x007352B3, .srl 5 6 7),
      (0x407352B3, .sra 5 6 7),
      (0x007362B3, .or 5 6 7),
      (0x007372B3, .and 5 6 7)] = true := by decide

theorem test_decode_fence :
    reads .rv32 [
      (0x0330000F, .fence 0 0 0 3 3),
      (0x0000100F, .fenceI 0 0 0)] = true := by decide

theorem test_decode_rv64 :
    reads .rv64 [
      (0xFFF16283, .lwu 5 2 0xFFF),
      (0xFFF13283, .ld 5 2 0xFFF),
      (0x00513223, .sd 5 2 4),
      (0x0013029B, .addiw 5 6 1),
      (0x0013129B, .slliw 5 6 1),
      (0x0013529B, .srliw 5 6 1),
      (0x4013529B, .sraiw 5 6 1),
      (0x007302BB, .addw 5 6 7),
      (0x407302BB, .subw 5 6 7),
      (0x007312BB, .sllw 5 6 7),
      (0x007352BB, .srlw 5 6 7),
      (0x407352BB, .sraw 5 6 7)] = true := by decide

/-! ### One step against the vectors of `95_test_vectors.md` (B.1 to B.9) -/

theorem test_lui_sign_extends : after 0x800002B7 h64 x5pc = some (0xFFFFFFFF80000000, 0x80000004) := by decide

theorem test_auipc_wraps : after 0xFFFFF297 h32 x5pc = some (0x7FFFF000, 0x80000004) := by decide

theorem test_jal_links : after 0x008000EF h32 x1pc = some (0x80000004, 0x80000008) := by decide

theorem test_jal_misaligned :
    after 0x002000EF h32 (fun t => (readX 1 t, trapM t)) =
      some (0, [0, 0x80000000, 0x80000002, 0x80000100]) := by decide

theorem test_jalr_reads_base_first :
    after 0x000282E7 (withX [(5, 0x80000020)] h32) x5pc = some (0x80000004, 0x80000020) := by decide

theorem test_jalr_clears_bit0 :
    after 0x005300E7 (withX [(6, 0x80000010)] h32) x1pc = some (0x80000004, 0x80000014) := by decide

theorem test_beq_taken : after 0x00628863 (withX [(5, 7), (6, 7)] h32) (·.pc) = some 0x80000010 := by decide

theorem test_beq_misaligned : after 0x00000363 h32 trapM = some [0, 0x80000000, 0x80000006, 0x80000100] := by decide

theorem test_bne_taken_backward : after 0xFE629CE3 (withX [(5, 7), (6, 8)] h32) (·.pc) = some 0x7FFFFFF8 := by decide

theorem test_bne_not_taken : after 0x00001363 h32 (·.pc) = some 0x80000004 := by decide

theorem test_blt_signed : after 0x0062C863 (withX [(5, 0xFFFFFFFF), (6, 1)] h32) (·.pc) = some 0x80000010 := by decide

theorem test_blt_rv64 : after 0x0062C863 (withX [(5, 0xFFFFFFFF), (6, 1)] h64) (·.pc) = some 0x80000004 := by decide

theorem test_bge_signed :
    after 0x0062D863 (withX [(5, 0x80000000), (6, 0x7FFFFFFF)] h32) (·.pc) = some 0x80000004 := by decide

theorem test_bge_equal : after 0x0062D863 (withX [(5, 3), (6, 3)] h32) (·.pc) = some 0x80000010 := by decide

theorem test_bltu_unsigned :
    after 0x0062E863 (withX [(5, 0xFFFFFFFF), (6, 1)] h32) (·.pc) = some 0x80000004 := by decide

theorem test_bgeu_unsigned :
    after 0x0062F863 (withX [(5, 0x80000000), (6, 0x7FFFFFFF)] h32) (·.pc) = some 0x80000010 := by decide

theorem test_lb : after 0x00030283 (atData h32) x5pc = some (0xFFFFFF80, 0x80000004) := by decide

theorem test_lbu : after 0x00034283 (atData h32) x5pc = some (0x80, 0x80000004) := by decide

theorem test_lh : after 0x00031283 (atData h32) x5pc = some (0xFFFFFF80, 0x80000004) := by decide

theorem test_lh_misaligned :
    after 0x00131283 (atData h32) trapM = some [4, 0x80000000, 0x80001001, 0x80000100] := by decide

theorem test_lhu : after 0x00235283 (atData h32) x5pc = some (0x7F, 0x80000004) := by decide

theorem test_lw_rv64 : after 0x00432283 (atData h64) x5pc = some (0xFFFFFFFF92345678, 0x80000004) := by decide

theorem test_lw_vacant :
    after 0x00032283 (withX [(6, 0x1000)] h32) trapM = some [5, 0x80000000, 0x1000, 0x80000100] := by decide

theorem test_lwu : after 0x00436283 (atData h64) x5pc = some (0x92345678, 0x80000004) := by decide

theorem test_ld : after 0x00033283 (atData h64) x5pc = some (0x92345678007FFF80, 0x80000004) := by decide

theorem test_ld_rv32 : after 0x00033283 (atData h32) trapM = some [2, 0x80000000, 0x00033283, 0x80000100] := by decide

theorem test_sb : after 0x005300A3 (withX [(5, 0x12345678), (6, 0x80001000)] h32) data = some 0x7800 := by decide

theorem test_sh : after 0x00531123 (withX [(5, 0x12345678), (6, 0x80001000)] h32) data = some 0x56780000 := by decide

theorem test_sw_rv64 :
    after 0x00532023 (withX [(5, 0x1122334455667788), (6, 0x80001000)] h64) data = some 0x55667788 := by decide

theorem test_sw_misaligned :
    after 0x00532123 (withX [(5, 0x12345678), (6, 0x80001000)] h32) (fun t => (data t, trapM t)) =
      some (0, [6, 0x80000000, 0x80001002, 0x80000100]) := by decide

theorem test_sd :
    after 0x00533023 (withX [(5, 0x1122334455667788), (6, 0x80001000)] h64) data = some 0x1122334455667788 := by decide

theorem test_sd_rv32 :
    after 0x00533023 (withX [(5, 0x12345678), (6, 0x80001000)] h32) trapM = some [2, 0x80000000, 0x00533023, 0x80000100] := by
  decide

theorem test_addi_wraps :
    after 0x00130293 (withX [(6, 0x7FFFFFFF)] h32) x5pc = some (0x80000000, 0x80000004) := by decide

theorem test_addi_rv64 : after 0x80030293 (withX [(6, 0x800)] h64) x5pc = some (0, 0x80000004) := by decide

theorem test_slti_signed : after 0x00032293 (withX [(6, 0xFFFFFFFF)] h32) x5pc = some (1, 0x80000004) := by decide

theorem test_sltiu_extends : after 0xFFF33293 (withX [(6, 5)] h32) x5pc = some (1, 0x80000004) := by decide

theorem test_xori_not : after 0xFFF34293 (withX [(6, 0x0F0F0F0F)] h32) x5pc = some (0xF0F0F0F0, 0x80000004) := by decide

theorem test_ori : after 0x70036293 (withX [(6, 0xF)] h32) x5pc = some (0x70F, 0x80000004) := by decide

theorem test_andi : after 0xFF037293 (withX [(6, 0x12345678)] h32) x5pc = some (0x12345670, 0x80000004) := by decide

theorem test_slli_31 : after 0x01F31293 (withX [(6, 3)] h32) x5pc = some (0x80000000, 0x80000004) := by decide

theorem test_slli_63 : after 0x03F31293 (withX [(6, 3)] h64) x5pc = some (0x8000000000000000, 0x80000004) := by decide

theorem test_srli_31 : after 0x01F35293 (withX [(6, 0x80000000)] h32) x5pc = some (1, 0x80000004) := by decide

theorem test_srli_32 :
    after 0x02035293 (withX [(6, 0x8000000000000000)] h64) x5pc = some (0x80000000, 0x80000004) := by decide

theorem test_srai_31 : after 0x41F35293 (withX [(6, 0x80000000)] h32) x5pc = some (0xFFFFFFFF, 0x80000004) := by decide

theorem test_srai_32 :
    after 0x42035293 (withX [(6, 0x8000000000000000)] h64) x5pc = some (0xFFFFFFFF80000000, 0x80000004) := by decide

theorem test_add_wraps : after 0x007302B3 (withX [(6, 0xFFFFFFFF), (7, 1)] h32) x5pc = some (0, 0x80000004) := by decide

theorem test_add_same_register :
    after 0x005282B3 (withX [(5, 0x40000000)] h32) x5pc = some (0x80000000, 0x80000004) := by decide

theorem test_sub : after 0x407302B3 (withX [(6, 0), (7, 1)] h32) x5pc = some (0xFFFFFFFF, 0x80000004) := by decide

theorem test_sll_low5 : after 0x007312B3 (withX [(6, 1), (7, 0x21)] h32) x5pc = some (2, 0x80000004) := by decide

theorem test_sll_low6 :
    after 0x007312B3 (withX [(6, 1), (7, 0x21)] h64) x5pc = some (0x200000000, 0x80000004) := by decide

theorem test_slt :
    after 0x007322B3 (withX [(6, 0x80000000), (7, 0x7FFFFFFF)] h32) x5pc = some (1, 0x80000004) := by decide

theorem test_sltu :
    after 0x007332B3 (withX [(6, 0x80000000), (7, 0x7FFFFFFF)] h32) x5pc = some (0, 0x80000004) := by decide

theorem test_xor :
    after 0x007342B3 (withX [(6, 0xFF00FF00), (7, 0x0FF00FF0)] h32) x5pc = some (0xF0F0F0F0, 0x80000004) := by decide

theorem test_srl :
    after 0x007352B3 (withX [(6, 0x80000000), (7, 4)] h32) x5pc = some (0x08000000, 0x80000004) := by decide

theorem test_sra :
    after 0x407352B3 (withX [(6, 0x80000000), (7, 4)] h32) x5pc = some (0xF8000000, 0x80000004) := by decide

theorem test_or : after 0x007362B3 (withX [(6, 0xF0), (7, 0xF)] h32) x5pc = some (0xFF, 0x80000004) := by decide

theorem test_and : after 0x007372B3 (withX [(6, 0xFF), (7, 0x3C)] h32) x5pc = some (0x3C, 0x80000004) := by decide

theorem test_addiw :
    after 0x0013029B (withX [(6, 0x7FFFFFFF)] h64) x5pc = some (0xFFFFFFFF80000000, 0x80000004) := by decide

theorem test_slliw : after 0x01F3129B (withX [(6, 1)] h64) x5pc = some (0xFFFFFFFF80000000, 0x80000004) := by decide

theorem test_srliw : after 0x01F3529B (withX [(6, 0xFFFFFFFF80000000)] h64) x5pc = some (1, 0x80000004) := by decide

theorem test_sraiw :
    after 0x41F3529B (withX [(6, 0x80000000)] h64) x5pc = some (0xFFFFFFFFFFFFFFFF, 0x80000004) := by decide

theorem test_addw : after 0x007302BB (withX [(6, 0xFFFFFFFF), (7, 1)] h64) x5pc = some (0, 0x80000004) := by decide

theorem test_subw :
    after 0x407302BB (withX [(6, 0), (7, 1)] h64) x5pc = some (0xFFFFFFFFFFFFFFFF, 0x80000004) := by decide

theorem test_sllw_low5 : after 0x007312BB (withX [(6, 1), (7, 0x20)] h64) x5pc = some (1, 0x80000004) := by decide

theorem test_srlw :
    after 0x007352BB (withX [(6, 0xFFFFFFFF00000010), (7, 4)] h64) x5pc = some (1, 0x80000004) := by decide

theorem test_sraw :
    after 0x407352BB (withX [(6, 0x80000000), (7, 4)] h64) x5pc = some (0xFFFFFFFFF8000000, 0x80000004) := by decide

theorem test_fence : after 0x0FF0000F h32 (fun t => (t.pc, t.minstret)) = some (0x80000004, 1) := by decide

theorem test_fenceI : after 0x0000100F h32 (fun t => (t.pc, t.minstret)) = some (0x80000004, 1) := by decide

theorem test_reserved_words_trap :
    after 0 h32 trapM = some [2, 0x80000000, 0, 0x80000100] ∧
      after 0xFFFFFFFF h32 trapM = some [2, 0x80000000, 0xFFFFFFFF, 0x80000100] ∧
      after 0x02A30333 h32 trapM = some [2, 0x80000000, 0x02A30333, 0x80000100] ∧
      after 0x0203129B h64 trapM = some [2, 0x80000000, 0x0203129B, 0x80000100] := by decide

/-! ### CSR instructions (B.10, B.11) -/

theorem test_csrrw_swaps :
    after 0x34011173 (withCsr .mscratch 0xAAAA (withX [(2, 0x5555)] h32))
      (fun t => (readX 2 t, t.mtrap.scratch)) = some (0xAAAA, 0x5555) := by decide

theorem test_csrrs_x0_reads : after 0xF14020F3 h32 x1pc = some (0, 0x80000004) := by decide

theorem test_csrrs_read_only_traps :
    after 0xF142A0F3 h32 trapM = some [2, 0x80000000, 0xF142A0F3, 0x80000100] := by decide

theorem test_csrrc :
    after 0x3002B373 (withCsr .mstatus 0x88 (withX [(5, 8)] h32))
      (fun t => (readX 6 t, csrRead .mstatus t)) = some (0x88, 0x80) := by decide

theorem test_csrrwi : after 0x3402D073 h32 (·.mtrap.scratch) = some 5 := by decide

theorem test_csrrsi : after 0x30046073 h32 (csrRead .mstatus) = some 8 := by decide

theorem test_csrrci :
    after 0x300473F3 (withCsr .mstatus 0x88 h32) (fun t => (readX 7 t, csrRead .mstatus t)) = some (0x88, 0x80) := by
  decide

theorem test_csrrci_zero_reads : after 0xF11070F3 h32 x1pc = some (0, 0x80000004) := by decide

/-! The registers behind the addresses: what a register holds after all ones (or the value given) are written. -/

theorem test_mstatus_fields :
    csrRead .mstatus (withCsr .mstatus 0xFFFFFFFF h32) = 0x007E19AA ∧
      csrRead .mstatus (withCsr .mstatus 0xFFFFFFFFFFFFFFFF h64) = 0xA007E19AA ∧
      csrRead .mstatus (withCsr .mstatus 0xFFFFFFFF (hart .rv32 .m)) = 0x1888 ∧
      csrRead .mstatus (withCsr .mstatus 0xFFFFFFFF (hart .rv32 .mu)) = 0x221888 := by decide

theorem test_mpp_keeps_legal :
    csrRead .mstatus (withCsr .mstatus 0x1000 (withCsr .mstatus 0x1800 h32)) = 0x1800 ∧
      csrRead .mstatus (withCsr .mstatus 0x800 (withCsr .mstatus 0x1800 (hart .rv32 .mu))) = 0x1800 := by decide

theorem test_misa : csrRead .misa h32 = 0x40140100 ∧ csrRead .misa (hart .rv64 .m) = 0x8000000000000100 := by decide

theorem test_mtvec_mode :
    csrRead .mtvec (withCsr .mtvec 0x80000401 h32) = 0x80000401 ∧
      csrRead .mtvec (withCsr .mtvec 0x80000403 h32) = 0x80000400 := by decide

theorem test_mepc_aligned : csrRead .mepc (withCsr .mepc 0x80000007 h32) = 0x80000004 := by decide

theorem test_masks :
    csrRead .medeleg (withCsr .medeleg 0xFFFFFFFF h32) = 0xB3FF ∧
      csrRead .mideleg (withCsr .mideleg 0xFFFFFFFF h32) = 0x222 ∧
      csrRead .mideleg (withCsr .mideleg 0xFFFFFFFF (hart .rv32 .msu true)) = 0x333 ∧
      csrRead .mie (withCsr .mie 0xFFFFFFFF h32) = 0xAAA ∧
      csrRead .mie (withCsr .mie 0xFFFFFFFF (hart .rv32 .m)) = 0x888 ∧
      csrRead .mip (withCsr .mip 0xFFFFFFFF h32) = 0x222 ∧
      csrRead .mcountinhibit (withCsr .mcountinhibit 0xFFFFFFFF h32) = 5 ∧
      csrRead .mcounteren (withCsr .mcounteren 0xFFFFFFFF h32) = 7 := by decide

theorem test_medeleg_absent :
    after 0x30211073 (hart .rv32 .mu) trapM = some [2, 0x80000000, 0x30211073, 0x80000100] := by decide

/-- B.10: SEIP driven from outside is read, and a set of another bit does not copy it into the stored bit. -/
theorem test_mip_rmw :
    (after 0x3442A0F3 (withX [(5, 2)] { h32 with lines := { h32.lines with seip := true } })
        (fun t => (readX 1 t, csrRead .mip t))) = some (0x200, 2) := by decide

theorem test_mip_sources :
    csrRead .mip { h32 with mtime := 100, mtimecmp := 100, msip := true, lines := { quiet.lines with meip := true } } =
      0x888 := by decide

theorem test_sip_view :
    csrRead .sip (withCsr .mideleg 0x222 (withCsr .mip 0x22 h32)) = 0x22 ∧
      csrRead .sip (withCsr .mideleg 0x2 (withCsr .mip 0x22 h32)) = 2 ∧
      csrRead .mip (withCsr .sip 0xFFFFFFFF (withCsr .mideleg 0x222 h32)) = 2 ∧
      csrRead .mie (withCsr .sie 0xFFFFFFFF (withCsr .mie 0x888 (withCsr .mideleg 0x22 h32))) = 0x8AA := by decide

theorem test_sstatus_view :
    csrRead .sstatus (withCsr .mstatus 0xC19AA h32) = 0xC0122 ∧
      csrRead .mstatus (withCsr .sstatus 0xFFFFFFFF (withCsr .mstatus 0x1888 h32)) = 0xC19AA := by decide

theorem test_counter_enables :
    after 0xC00020F3 (inMode .U (withCsr .mcounteren 1 h32)) trapM = some [2, 0x80000000, 0xC00020F3, 0x80000100] ∧
      after 0xC00020F3 (inMode .U (withCsr .mcounteren 1 (withCsr .scounteren 1 { h32 with mcycle := 0x1234 }))) x1pc =
        some (0x1234, 0x80000004) ∧
      after 0xC81020F3 (inMode .S (withCsr .mcounteren 2 { h32 with mtime := 0x100000005 })) x1pc = some (1, 0x80000004) := by
  decide

theorem test_satp_tvm :
    after 0x18011073 (inMode .S (withCsr .mstatus 0x100000 h32)) trapM = some [2, 0x80000000, 0x18011073, 0x80000100] ∧
      after 0x18011073 (withCsr .mstatus 0x100000 h32) (·.pc) = some 0x80000004 := by decide

theorem test_pmpcfg_legal :
    csrRead (.pmpcfg 0) (withCsr (.pmpcfg 0) 0x001E9AFF h32) = 0x001C989F ∧
      csrRead (.pmpcfg 0) (withCsr (.pmpcfg 0) 0 (withCsr (.pmpcfg 0) 0x9F h32)) = 0x9F ∧
      csrRead (.pmpcfg 0) (withCsr (.pmpcfg 0) 0x1F00000000 h64) = 0x1F00000000 ∧
      csrRead (.pmpcfg 1) (withCsr (.pmpcfg 1) 0x1F1F1F1F { h32 with cfg := { h32.cfg with pmpEntries := 6 } }) = 0x1F1F := by
  decide

theorem test_pmpaddr_locks :
    csrRead (.pmpaddr 0) (withCsr (.pmpaddr 0) 0xFFFFFFFF (withCsr (.pmpcfg 0) 0x8800 h32)) = 0 ∧
      csrRead (.pmpaddr 0) (withCsr (.pmpaddr 0) 0xFFFFFFFF (withCsr (.pmpcfg 0) 0x9800 h32)) = 0xFFFFFFFF ∧
      csrRead (.pmpaddr 0) (withCsr (.pmpaddr 0) 0xFFFFFFFFFFFFFFFF h64) = 0x3FFFFFFFFFFFFF := by decide

/-! ### Privileged instructions, trap entry and interrupts (B.12, B.14 to B.16) -/

theorem test_ecall_from_U :
    after 0x00000073 (inMode .U (withCsr .mstatus 8 h32)) (fun t => (csrRead .mstatus t, trapM t)) =
      some (0x80, [8, 0x80000000, 0, 0x80000100]) := by decide

theorem test_ecall_delegated :
    after 0x00000073 (inMode .S (withCsr .mstatus 2 (withCsr .medeleg 0x200 h32)))
      (fun t => (t.priv, csrRead .mstatus t, trapS t)) = some (.S, 0x120, [9, 0x80000000, 0, 0x80000200]) := by decide

theorem test_ebreak_delegated :
    after 0x00100073 (inMode .U (withCsr .medeleg 8 h32)) (fun t => (t.priv, trapS t)) =
      some (.S, [3, 0x80000000, 0, 0x80000200]) := by decide

theorem test_ebreak_in_M :
    after 0x00100073 (withCsr .medeleg 8 h32) (fun t => (csrRead .mstatus t, trapM t)) =
      some (0x1800, [3, 0x80000000, 0, 0x80000100]) := by decide

theorem test_mret :
    after 0x30200073 (withCsr .mepc 0x80000104 (withCsr .mstatus 0x80 h32))
      (fun t => (t.priv, csrRead .mstatus t, t.pc)) = some (.U, 0x88, 0x80000104) := by decide

theorem test_mret_below_M :
    after 0x30200073 (inMode .S h32) trapM = some [2, 0x80000000, 0x30200073, 0x80000100] := by decide

theorem test_sret :
    after 0x10200073 (inMode .S (withCsr .sepc 0x80001000 (withCsr .mstatus 0x120 h32)))
      (fun t => (t.priv, csrRead .mstatus t, t.pc)) = some (.S, 0x22, 0x80001000) := by decide

theorem test_sret_tsr :
    after 0x10200073 (inMode .S (withCsr .mstatus 0x400000 h32)) trapM =
      some [2, 0x80000000, 0x10200073, 0x80000100] := by decide

theorem test_uret :
    after 0x00200073 (inMode .S (withCsr .uepc 0x80002000 (withCsr .mstatus 0x10 (hart .rv32 .msu true))))
      (fun t => (t.priv, csrRead .mstatus t, t.pc)) = some (.U, 0x11, 0x80002000) := by decide

theorem test_uret_absent :
    after 0x00200073 (inMode .U h32) trapM = some [2, 0x80000000, 0x00200073, 0x80000100] := by decide

theorem test_wfi_stalls : after 0x10500073 h32 (fun t => (t.wfiStalled, t.pc)) = some (true, 0x80000004) := by decide

theorem test_wfi_tw :
    after 0x10500073 (inMode .S (withCsr .mstatus 0x200000 h32)) trapM =
      some [2, 0x80000000, 0x10500073, 0x80000100] := by decide

theorem test_sfence_tvm :
    after 0x12000073 (inMode .S (withCsr .mstatus 0x100000 h32)) trapM =
      some [2, 0x80000000, 0x12000073, 0x80000100] := by decide

theorem test_sfence : after 0x12000073 (inMode .S h32) (·.pc) = some 0x80000004 := by decide

/-- B.14: a load with MPRV set is checked as the previous mode, a misaligned one first of all; a U-mode fetch needs PMP. -/
theorem test_order_of_checks :
    after 0x00032283 (withX [(6, 0x80002000)] { h32 with mstatus := { h32.mstatus with mprv := true } }) trapM =
        some [5, 0x80000000, 0x80002000, 0x80000100] ∧
      after 0x00032283 (withX [(6, 0x80002001)] { h32 with mstatus := { h32.mstatus with mprv := true } }) trapM =
        some [4, 0x80000000, 0x80002001, 0x80000100] ∧
      after 0x00032283 { h32 with priv := .U } trapM = some [1, 0x80000000, 0x80000000, 0x80000100] := by decide

/-- B.15: vectored and direct traps. -/
theorem test_vectors :
    trapVector .rv32 0x80000101 true 7 = 0x8000011C ∧ trapVector .rv32 0x80000101 false 2 = 0x80000100 ∧
      trapVector .rv32 0x80000100 true 7 = 0x80000100 := by decide

/-- B.16: the start of a row: mode, `mstatus`, what is pending of 0x222 and of 0x888, `mie`, `mideleg`. -/
def pending (p : Priv) (status low high mie deleg : Word) : Option Nat :=
  nextInterrupt
    { withCsr .mideleg deleg (withCsr .mie mie (withCsr .mip low (withCsr .mstatus status h32))) with
      priv := p
      msip := high.getLsbD 3
      mtimecmp := if high.getLsbD 7 then 0 else 1
      lines := { quiet.lines with meip := high.getLsbD 11 } }

theorem test_interrupt_order :
    pending .M 8 0 0x888 0x888 0 = some 11 ∧ pending .M 8 0 0x088 0x888 0 = some 3 ∧
      pending .M 0 0 0x888 0x888 0 = none ∧ pending .M 8 0x222 0x88 0xAAA 0 = some 3 ∧
      pending .M 8 0x222 0 0x222 0 = some 9 ∧ pending .M 8 0x022 0 0x222 0 = some 1 := by decide

theorem test_interrupt_delegated :
    pending .M 0xA 0x222 0 0x222 0x222 = none ∧ pending .S 2 0x222 0 0x222 0x222 = some 9 ∧
      pending .S 0 0x222 0 0x222 0x222 = none ∧ pending .U 0 0x020 0 0x020 0x222 = some 5 ∧
      pending .S 2 0x20 0x80 0xA0 0x222 = some 7 ∧ pending .S 2 0x220 0 0x220 0x20 = some 9 := by decide

/-- B.13: rows of the PMP table: a hart with entries `pmpcfg0` and `pmpaddr0`, `pmpaddr1`. -/
def pmpHart (cfg a0 a1 : Word) : State := withCsr (.pmpcfg 0) cfg (withCsr (.pmpaddr 1) a1 (withCsr (.pmpaddr 0) a0 h32))

theorem test_pmp_na4_partial :
    pmpCheck 8 8 .R .U (pmpHart 0x13 3 0) = false ∧ pmpCheck 8 8 .R .M (pmpHart 0x13 3 0) = false ∧
      pmpCheck 0xC 4 .R .U (pmpHart 0x13 3 0) = true ∧ pmpCheck 0xC 4 .X .U (pmpHart 0x13 3 0) = false := by decide

theorem test_pmp_napot :
    pmpCheck 0x80000FFC 4 .R .U (pmpHart 0x1F 0x200001FF 0) = true ∧
      pmpCheck 0x80001000 4 .R .U (pmpHart 0x1F 0x200001FF 0) = false ∧
      pmpCheck 0xFFFFFFFC 4 .W .U (pmpHart 0x1F 0xFFFFFFFF 0) = true ∧
      pmpCheck 0 4 .W .U (pmpHart 0x1F 0x7FFFFFFF 0) = true := by decide

theorem test_pmp_tor :
    pmpCheck 0x80000800 4 .W .U (pmpHart 0x0B00 0x20000000 0x20000400) = true ∧
      pmpCheck 0x7FFFFFFC 4 .W .U (pmpHart 0x0B00 0x20000000 0x20000400) = false ∧
      pmpCheck 0x80000FFC 4 .R .U (pmpHart 0x0F 0x20000400 0) = true ∧
      pmpCheck 0x80001000 4 .R .U (pmpHart 0x0F 0x20000400 0) = false := by decide

theorem test_pmp_lock_and_order :
    pmpCheck 0x80000000 4 .W .M (pmpHart 0x18 0x200001FF 0) = true ∧
      pmpCheck 0x80000000 4 .W .M (pmpHart 0x98 0x200001FF 0) = false ∧
      pmpCheck 0x80000000 4 .W .U (pmpHart 0x1F19 0x200001FF 0xFFFFFFFF) = false ∧
      pmpCheck 0x80001000 4 .W .U (pmpHart 0x1F19 0x200001FF 0xFFFFFFFF) = true := by decide

/-! ### Hypotheses met: for each obligation, a state and operands for each of its clauses -/

/-- An outcome that is a next state with `P`. -/
def nextWith (P : State → Bool) : Host.Outcome State Fault Refusal → Bool
  | .next t => P t
  | .fault _ => false
  | .refused _ => false

theorem exists_next_of {P : State → Bool} {o : Host.Outcome State Fault Refusal} (h : nextWith P o = true) :
    ∃ t, o = .next t ∧ P t = true := by
  cases o with
  | next t => exact ⟨t, rfl, h⟩
  | fault f => cases h
  | refused f => cases h

/-- The RAM of the vectors. -/
def ram : Region := { base := 0x80000000, size := 0x10000, kind := .ram }

/-- The word `w` placed at `pc`. -/
def running (w : InstWord) (s : State) : State := placeWord w s

/-- `x6` set to an address. -/
def at6 (a : Word) (s : State) : State := withX [(6, a)] s

theorem witness_DecodeOfEncode :
    (Instr.slli 1 2 31).wellFormed .rv32 = true ∧ (Instr.srai 1 2 63).wellFormed .rv64 = true ∧
      (Instr.jal 31 0xFFFFF).wellFormed .rv32 = true := by decide

theorem witness_EncodeOfDecode :
    decodeWord .rv32 0x01F09093 = .ok (.slli 1 1 31) ∧ decodeWord .rv64 0x03F09093 = .ok (.slli 1 1 63) := by
  exact ⟨rfl, rfl⟩

theorem witness_DecodeUniqueRow_fits :
    ∃ r ∈ rows, r.available .rv32 = true ∧ r.fits .rv32 0x00100073 = true := by decide

theorem witness_DecodeUniqueRow_none :
    (∀ r ∈ rows, r.available .rv32 = true → r.fits .rv32 0x0000000B = false) ∧ h32.cfg.xlen = .rv32 := by decide

theorem witness_ReservedWordsTrap :
    (0 : InstWord).toNat % 4 ≠ 3 ∧ (0x1F : InstWord).toNat % 32 = 31 ∧
      (0x0B : InstWord).toNat % 128 ∉
        [0x03, 0x0F, 0x13, 0x17, 0x1B, 0x23, 0x33, 0x37, 0x3B, 0x63, 0x67, 0x6F, 0x73] ∧
      (h32.cfg.xlen = .rv32 ∧ (0x0013029B : InstWord).toNat % 128 ∈ [0x1B, 0x3B]) := by decide

/-- A hart that wakes with no interrupt to take: MTI is enabled in `mie`, not in `mstatus`. -/
def waking : State := running 0x00130293 { h32 with wfiStalled := true, mie := 0x80, mtimecmp := 0 }

theorem witness_StepRunsDecoded :
    (running 0x00130293 h32).wfiStalled = false ∧ nextInterrupt (awaken (running 0x00130293 h32)) = none ∧
      fetch (awaken (running 0x00130293 h32)) = .ok 0x00130293 ∧ decodeWord h32.cfg.xlen 0x00130293 = .ok (.addi 5 6 1) ∧
      ∃ t, exec (.addi 5 6 1) (awaken (running 0x00130293 h32)) = .next t := by exact ⟨rfl, rfl, rfl, rfl, _, rfl⟩

theorem witness_StepRunsDecoded_waking :
    wakes waking = true ∧ nextInterrupt (awaken waking) = none ∧ fetch (awaken waking) = .ok 0x00130293 := by
  exact ⟨rfl, rfl, rfl⟩

theorem witness_StepBeforeExecution_stalled :
    { h32 with wfiStalled := true }.wfiStalled = true ∧ wakes { h32 with wfiStalled := true } = false := by decide

theorem witness_StepBeforeExecution_wakes :
    (wakes waking = true ∧ waking.mie.getLsbD 7 = true) ∧ wakes { h32 with lines := { h32.lines with wake := true } } = true ∧
      wakes { waking with mie := 0x800 } = false := by decide

theorem witness_StepBeforeExecution_interrupt :
    nextInterrupt (awaken { h32 with priv := .U, mie := 0x80, mtimecmp := 0 }) = some 7 ∧
      { h32 with priv := .U, mie := 0x80, mtimecmp := 0 }.wfiStalled = false := by decide

theorem witness_StepBeforeExecution_fetch :
    nextInterrupt (awaken { h32 with priv := .U }) = none ∧
      fetch (awaken { h32 with priv := .U }) = .error { exc := .instrAccessFault, tval := 0x80000000 } := by
  exact ⟨rfl, rfl⟩

theorem witness_JumpsLink :
    wrapX h32.cfg.xlen (h32.pc.toNat + 2 * (0x80000 : BitVec 20).toInt) % 4 = 0 ∧
      wrapX h32.cfg.xlen (ux 6 (at6 0x80000010 h32) + (5 : BitVec 12).toInt) / 2 % 2 = 0 := by decide

/-- Registers that compare differently signed and unsigned: `x5` negative, `x6` one, `x7` as `x6`. -/
def compared : State := withX [(5, 0xFFFFFFFF), (6, 1), (7, 1)] h32

theorem witness_MisalignedTargetsTrap :
    (0x80000002 : Word).toNat % 4 ≠ 0 ∧
      (0x80000002 : Word).toNat = wrapX compared.cfg.xlen (compared.pc.toNat + 2 * (1 : BitVec 20).toInt) ∧
      (0x80000002 : Word).toNat = wrapX compared.cfg.xlen (compared.pc.toNat + 2 * (1 : BitVec 12).toInt) ∧
      (2 : Word).toNat % 4 ≠ 0 ∧ (2 : Word).toNat = wrapX compared.cfg.xlen (ux 6 compared + (2 : BitVec 12).toInt) / 2 * 2 := by
  decide

theorem witness_comparisons :
    ux 6 compared = ux 7 compared ∧ ux 5 compared ≠ ux 6 compared ∧ sx 5 compared < sx 6 compared ∧
      sx 7 compared ≤ sx 6 compared ∧ ux 6 compared < ux 5 compared ∧ ux 7 compared ≤ ux 6 compared := by decide

theorem witness_BranchesComplete :
    0x80000008 = wrapX compared.cfg.xlen (compared.pc.toNat + 2 * (4 : BitVec 12).toInt) ∧ 0x80000008 % 4 = 0 ∧
      0x80000004 = wrapX compared.cfg.xlen (compared.pc.toNat + 4) := by decide

theorem witness_RegImmResults : 0xFFFFF800 = wrapX h32.cfg.xlen (0x800 : BitVec 12).toInt := by decide

theorem witness_ShiftImmResults :
    (31 : BitVec 6).toNat < h32.cfg.xlen.bits ∧ (63 : BitVec 6).toNat < h64.cfg.xlen.bits := by decide

theorem witness_RegShiftResults :
    1 = ux 6 (at6 0x21 h32) % h32.cfg.xlen.bits ∧ 33 = ux 6 (at6 0x21 h64) % h64.cfg.xlen.bits := by decide

theorem witness_WordResults : h64.cfg.xlen = .rv64 ∧ 1 = ux 6 (at6 0x21 h64) % 32 := by decide

theorem witness_Rv64OnlyTrap :
    h32.cfg.xlen = .rv32 ∧ (Instr.sraw 1 2 3).wellFormed .rv32 = false ∧ (Instr.srli 1 2 32).wellFormed .rv32 = false := by
  decide

/-- The last bytes of RAM are readable and writable at every size, addressed from the first byte after it. -/
theorem witness_LoadsFromMemory :
    isMemory ram ∧
      checkAccess .R (effAddr 6 0xFFF (at6 0x80010000 h32)) 1 (at6 0x80010000 h32) = .ok ram ∧
      checkAccess .R (effAddr 6 0xFFE (at6 0x80010000 h32)) 2 (at6 0x80010000 h32) = .ok ram ∧
      checkAccess .R (effAddr 6 0xFFC (at6 0x80010000 h32)) 4 (at6 0x80010000 h32) = .ok ram ∧
      checkAccess .R (effAddr 6 0xFF8 (at6 0x80010000 h64)) 8 (at6 0x80010000 h64) = .ok ram ∧ h64.cfg.xlen = .rv64 := by
  exact ⟨.inl rfl, rfl, rfl, rfl, rfl, rfl⟩

theorem witness_StoresToMemory :
    isMemory ram ∧ Memory.wf h32.mem = true ∧ Memory.wf h64.mem = true ∧
      checkAccess .W (effAddr 6 0xFFF (at6 0x80010000 h32)) 1 (at6 0x80010000 h32) = .ok ram ∧
      checkAccess .W (effAddr 6 0xFFE (at6 0x80010000 h32)) 2 (at6 0x80010000 h32) = .ok ram ∧
      checkAccess .W (effAddr 6 0xFFC (at6 0x80010000 h32)) 4 (at6 0x80010000 h32) = .ok ram ∧
      checkAccess .W (effAddr 6 0xFF8 (at6 0x80010000 h64)) 8 (at6 0x80010000 h64) = .ok ram ∧ h64.cfg.xlen = .rv64 := by
  exact ⟨.inl rfl, rfl, rfl, rfl, rfl, rfl, rfl, rfl⟩

/-- The first byte after RAM is vacant, for every kind and size of access. -/
theorem witness_AccessExceptions :
    checkAccess .R (effAddr 6 0 (at6 0x80010000 h32)) 1 (at6 0x80010000 h32) =
        .error { exc := .loadAccessFault, tval := 0x80010000 } ∧
      checkAccess .W (effAddr 6 0 (at6 0x80010000 h32)) 1 (at6 0x80010000 h32) =
        .error { exc := .storeAccessFault, tval := 0x80010000 } := by exact ⟨rfl, rfl⟩

theorem witness_AccessExceptions_misaligned :
    checkAccess .R (effAddr 6 1 (at6 0x80000000 h32)) 2 (at6 0x80000000 h32) =
        .error { exc := .loadAddrMisaligned, tval := 0x80000001 } ∧
      checkAccess .R (effAddr 6 2 (at6 0x80000000 h32)) 4 (at6 0x80000000 h32) =
        .error { exc := .loadAddrMisaligned, tval := 0x80000002 } ∧
      checkAccess .R (effAddr 6 4 (at6 0x80000000 h64)) 8 (at6 0x80000000 h64) =
        .error { exc := .loadAddrMisaligned, tval := 0x80000004 } ∧
      checkAccess .W (effAddr 6 1 (at6 0x80000000 h32)) 2 (at6 0x80000000 h32) =
        .error { exc := .storeAddrMisaligned, tval := 0x80000001 } ∧
      checkAccess .W (effAddr 6 2 (at6 0x80000000 h32)) 4 (at6 0x80000000 h32) =
        .error { exc := .storeAddrMisaligned, tval := 0x80000002 } ∧
      checkAccess .W (effAddr 6 4 (at6 0x80000000 h64)) 8 (at6 0x80000000 h64) =
        .error { exc := .storeAddrMisaligned, tval := 0x80000004 } := by exact ⟨rfl, rfl, rfl, rfl, rfl, rfl⟩

/-- The device regions of the vectors. -/
def devRegion (d : Device) : Region :=
  match d with
  | .msip => { base := 0x02000000, size := 4, kind := .dev .msip }
  | .mtimecmp => { base := 0x02004000, size := 8, kind := .dev .mtimecmp }
  | .mtime => { base := 0x0200BFF8, size := 8, kind := .dev .mtime }

theorem witness_DeviceAccesses :
    checkAccess .R (effAddr 6 4 (at6 0x02004000 h32)) 4 (at6 0x02004000 h32) = .ok (devRegion .mtimecmp) ∧
      checkAccess .R (effAddr 6 0 (at6 0x0200BFF8 h64)) 8 (at6 0x0200BFF8 h64) = .ok (devRegion .mtime) ∧
      checkAccess .W (effAddr 6 0 (at6 0x02000000 h32)) 4 (at6 0x02000000 h32) = .ok (devRegion .msip) ∧
      checkAccess .W (effAddr 6 0 (at6 0x02004000 h64)) 8 (at6 0x02004000 h64) = .ok (devRegion .mtimecmp) ∧
      4 = (effAddr 6 4 (at6 0x02004000 h32)).toNat - (devRegion .mtimecmp).base := by exact ⟨rfl, rfl, rfl, rfl, rfl⟩

theorem witness_AccessChecks :
    mapDisjoint h64.cfg ∧ (0x80000001 : Word).toNat % 2 ≠ 0 ∧
      2 ^ h64.cfg.palen ≤ (0x100000000000000 : Word).toNat ∧ pmpCheck 0x80000000 4 .X .U h64 = false ∧
      (∀ r ∈ h64.cfg.memMap, ¬ regionServes r .R 0x80010000 1) ∧
      (ram ∈ h64.cfg.memMap ∧ (0x8000FFF8 : Word).toNat < 2 ^ h64.cfg.palen ∧ pmpCheck 0x8000FFF8 8 .W .M h64 = true ∧
        regionServes ram .W 0x8000FFF8 8) := by
  simp only [regionServes_iff]
  unfold mapDisjoint
  decide

/-- What a region permits (R209, R210): ROM no store; a device no fetch, byte or halfword, `msip` no doubleword. -/
theorem test_region_permissions :
    (∀ t, regionServes { ram with kind := .rom } t 0x80000000 1 ↔ t ≠ .W) ∧
      (∀ d n, ¬ regionServes (devRegion d) .X (devRegion d).base n) ∧
      (∀ d t, ¬ regionServes (devRegion d) t (devRegion d).base 1 ∧ ¬ regionServes (devRegion d) t (devRegion d).base 2) ∧
      regionServes (devRegion .mtime) .R 0x0200BFFC 4 ∧ regionServes (devRegion .mtime) .W 0x0200BFF8 8 ∧
      regionServes (devRegion .msip) .W 0x02000000 4 ∧ ¬ regionServes (devRegion .msip) .W 0x02000000 8 := by
  refine ⟨fun t => ?_, fun d n h => ?_, fun d t => ?_, ?_⟩
  · cases t <;> simp [regionServes, ram]
  · cases d <;> exact h.2.2.1 rfl
  · cases d <;> simp [regionServes, devRegion]
  · simp only [regionServes_iff]
    decide

theorem witness_AccessChecks_mprv :
    { h32 with mstatus := { h32.mstatus with mprv := true } }.mstatus.mprv = true ∧ AccessType.W ≠ .X := by decide

theorem witness_CsrInstrComplete :
    csrAccess 0x340 true h32 = some .mscratch ∧ csrAccess 0xC00 ((0 : Reg) != 0) h32 = some .cycle ∧
      csrAccess 0x3BF ((31 : Reg) != 0) h32 = some (.pmpaddr 15) ∧ csrAccess 0x105 ((31 : BitVec 5) != 0) h32 = some .stvec := by
  exact ⟨rfl, rfl, rfl, rfl⟩

theorem witness_CsrInstrComplete_base : Csr.mie ∉ [Csr.mip, .sip, .uip] := by decide

/-- Addresses beside the allocated ones, and the first and last lines of the table. -/
theorem witness_CsrAccessRefused_table :
    (∀ r ∈ csrTable h32.cfg, r.addr ≠ (0x001 : CsrAddr).toNat ∧ r.addr ≠ (0xB01 : CsrAddr).toNat ∧
        r.addr ≠ (0x3C0 : CsrAddr).toNat ∧ r.addr ≠ (0xC20 : CsrAddr).toNat) ∧
      (csrTable h32.cfg).head?.map CsrRow.addr = some 0 ∧
      (csrTable h32.cfg).getLast?.map CsrRow.addr = some 0xB9F := by decide +kernel

theorem witness_CsrAccessRefused :
    csrForbidden 0xC00 true h32 ∧ csrForbidden 0xF11 ((1 : Reg) != 0) h32 ∧ csrForbidden 0x7B0 ((0 : Reg) != 0) h32 ∧
      csrForbidden 0x300 ((0 : BitVec 5) != 0) (inMode .S h32) := by
  exact ⟨.inr (.inl (by decide)), .inr (.inl (by decide)), .inr (.inr trivial), .inl (by decide)⟩

theorem witness_CsrAccessRefused_counter :
    csrForbidden 0xC02 false (inMode .U (withCsr .mcounteren 7 h32)) ∧
      csrForbidden 0x180 true (inMode .S (withCsr .mstatus 0x100000 h32)) := by
  exact ⟨.inr (.inr (.inr (.inr ⟨2, rfl, by decide, .inr (by decide)⟩))), .inr (.inr (.inr (.inl (by decide))))⟩

theorem witness_MstatusAccess :
    (Priv.S.level = (0x800 : Word).toNat / 2 ^ 11 % 4 ∧ h32.cfg.hasMode .S = true) ∧
      (∀ q : Priv, q.level = (0x1000 : Word).toNat / 2 ^ 11 % 4 → h32.cfg.hasMode q = false) ∧
      ∀ q : Priv, q.level = (0x800 : Word).toNat / 2 ^ 11 % 4 → (hart .rv32 .mu).cfg.hasMode q = false := by
  refine ⟨by decide, fun q => ?_, fun q => ?_⟩ <;> cases q <;> decide

theorem witness_StatusViews : h32.cfg.hasS = true ∧ (hart .rv32 .mu true).cfg.hasN = true := by decide

/-- The functions that `PendingRegisters` names exist. -/
theorem witness_PendingRegisters :
    ∃ pend soft wm du : Nat → Bool,
      (pend = fun i => match i with
        | 0 => h32.mip.usip
        | 1 => h32.mip.ssip
        | 3 => h32.msip
        | 4 => h32.mip.utip
        | 5 => h32.mip.stip
        | 7 => decide (h32.mtimecmp.toNat ≤ h32.mtime.toNat)
        | 8 => h32.mip.ueipSw || h32.lines.ueip
        | 9 => h32.mip.seipSw || h32.lines.seip
        | 11 => h32.lines.meip
        | _ => false) ∧
      (soft = fun i => if i = 8 then h32.mip.ueipSw else if i = 9 then h32.mip.seipSw else pend i) ∧
      (wm = fun i => (h32.cfg.hasS && (0x222 : Word).getLsbD i) || (h32.cfg.hasN && (0x111 : Word).getLsbD i)) ∧
      (du = fun i => h32.mideleg.getLsbD i && (!h32.cfg.hasS || h32.sideleg.getLsbD i) && (0x111 : Word).getLsbD i) := by
  exact ⟨_, _, _, _, rfl, rfl, rfl, rfl⟩

theorem witness_EnableRegisters :
    31 < 32 ∧ ∃ du : Nat → Bool,
      du = fun i => h32.mideleg.getLsbD i && (!h32.cfg.hasS || h32.sideleg.getLsbD i) && (0x111 : Word).getLsbD i := by
  exact ⟨by decide, _, rfl⟩

theorem witness_TrapRegisters : 0x80000403 = wrapX h32.cfg.xlen (0xFFFFFFFF80000403 : Word).toNat := by decide

theorem witness_widths :
    31 < h32.cfg.xlen.bits ∧ 63 < h64.cfg.xlen.bits ∧ 32 = h32.cfg.xlen.bits ∧ 64 = h64.cfg.xlen.bits := by decide

/-- The last configuration byte, on each width; locked, not implemented, and writable. -/
theorem witness_PmpcfgAccess :
    csrExists h32.cfg (.pmpcfg 3) = true ∧ 4 = h32.cfg.xlen.bits / 8 ∧ (15 : Fin 16).val = 4 * (3 : Fin 4).val + 3 ∧ 3 < 4 ∧
      csrExists h64.cfg (.pmpcfg 2) = true ∧ 8 = h64.cfg.xlen.bits / 8 ∧ (15 : Fin 16).val = 4 * (2 : Fin 4).val + 7 ∧ 7 < 8 := by
  decide

theorem witness_PmpcfgAccess_clauses :
    ((withCsr (.pmpcfg 3) 0x9F000000 h32).pmpcfg[15]).getLsbD 7 = true ∧
      ({ h32 with cfg := { h32.cfg with pmpEntries := 15 } }.cfg.pmpEntries ≤ (15 : Fin 16).val) ∧
      ((15 : Fin 16).val < h32.cfg.pmpEntries ∧ (h32.pmpcfg[15]).getLsbD 7 = false) ∧
      (0 : Fin 16).val < 4 * (3 : Fin 4).val := by decide

theorem witness_PmpaddrAccess_held :
    { h32 with cfg := { h32.cfg with pmpEntries := 15 } }.cfg.pmpEntries ≤ (15 : Fin 16).val ∧
      ((withCsr (.pmpcfg 3) 0x9F000000 h32).pmpcfg[15]).getLsbD 7 = true ∧
      ∃ m : Fin 16, m.val = (0 : Fin 16).val + 1 ∧ ((withCsr (.pmpcfg 0) 0x8800 h32).pmpcfg[m]).getLsbD 7 = true ∧
        ((withCsr (.pmpcfg 0) 0x8800 h32).pmpcfg[m]).toNat / 8 % 4 = 1 := by refine ⟨by decide, by decide, 1, by decide⟩

theorem witness_PmpaddrAccess_writes :
    (15 : Fin 16).val < h32.cfg.pmpEntries ∧ (h32.pmpcfg[15]).getLsbD 7 = false ∧
      ∀ m : Fin 16, m.val = (15 : Fin 16).val + 1 → (h32.pmpcfg[m]).getLsbD 7 = false ∨ (h32.pmpcfg[m]).toNat / 8 % 4 ≠ 1 := by
  decide

theorem witness_PmpDecision : 0 < 1 ∧ h32.cfg.pmpEntries ≤ 16 := by decide

/-- OFF, TOR, NA4, NAPOT in entries 0 to 3; entry 3 is the 4 KiB at 0x80000000, nine trailing ones. -/
def modesHart : State := { pmpHart 0x1F170F07 0 0 with pmpaddr := h32.pmpaddr.set 3 0x200001FF }

theorem witness_PmpMatching :
    0 = (modesHart.pmpcfg[0]).toNat / 8 % 4 ∧ 1 = (modesHart.pmpcfg[1]).toNat / 8 % 4 ∧
      (2 = (modesHart.pmpcfg[2]).toNat / 8 % 4 ∧ 0 = modesHart.cfg.pmpG) ∧
      (3 = (modesHart.pmpcfg[3]).toNat / 8 % 4 ∧ 0x200001FF = (modesHart.pmpaddr[3]).toNat ∧ 0x200001FF < 2 ^ 54 ∧
        modesHart.cfg.pmpG < 54 ∧ 0x80000FFF < 2 ^ 56 ∧ 0x200001FF % 2 ^ (9 + 1) = 2 ^ 9 - 1) := by decide

theorem witness_TrapEntry :
    32 = h32.cfg.xlen.bits ∧ 63 < 64 ∧ (0xFFFFFFFC : Word).toNat % 4 = 0 ∧ (0xFFFFFFFC : Word).toNat < 2 ^ 32 ∧
      (0xFFFFFFFF : Word).toNat < 2 ^ 32 ∧ Priv.M = trapTarget true 7 h32 := by decide

/-- Delegating harts: without S, with S and N. -/
def delegMu : State := withCsr .medeleg 8 (withCsr .mideleg 1 (hart .rv32 .mu true))

/-- Everything delegated down to U. -/
def delegMsu : State :=
  withCsr .sedeleg 8 (withCsr .sideleg 1 (withCsr .medeleg 8 (withCsr .mideleg 1 (hart .rv32 .msu true))))

theorem witness_TrapRouting :
    (hart .rv32 .m).cfg.modes = .m ∧ h32.mideleg.getLsbD 7 = false ∧ h32.medeleg.getLsbD 2 = false ∧
      (delegMu.cfg.modes = .mu ∧ delegMu.cfg.extN = true ∧ delegMu.mideleg.getLsbD 0 = true ∧ delegMu.medeleg.getLsbD 3 = true) ∧
      (delegMsu.cfg.modes = .msu ∧ delegMsu.mideleg.getLsbD 0 = true ∧ delegMsu.medeleg.getLsbD 3 = true ∧
        delegMsu.sideleg.getLsbD 0 = true ∧ delegMsu.sedeleg.getLsbD 3 = true) := by decide

theorem witness_EnvironmentCalls :
    (∃ t, exec .ecall h32 = .next t) ∧ ∃ t, exec .ebreak h32 = .next t := by exact ⟨⟨_, rfl⟩, _, rfl⟩

theorem witness_TrapReturns :
    h32.priv = .M ∧ (h32.cfg.modes = .msu ∧ (inMode .S h32).priv = .S ∧ (inMode .S h32).mstatus.tsr = false) ∧
      ((hart .rv32 .mu true).cfg.extN = true ∧ (hart .rv32 .mu true).cfg.modes ≠ .m) := by decide

theorem witness_WfiAndSfence :
    h32.priv = .M ∧ ((inMode .S h32).priv = .S ∧ (inMode .S h32).mstatus.tw = false ∧ (inMode .S h32).mstatus.tvm = false) ∧
      ((inMode .U (hart .rv32 .mu)).priv = .U ∧ (hart .rv32 .mu).cfg.modes ≠ .msu ∧ (hart .rv32 .mu).mstatus.tw = false) := by
  decide

theorem witness_PrivilegedInstrTrap :
    (inMode .U h32).priv ≠ .M ∧ (hart .rv32 .mu).cfg.modes ≠ .msu ∧
      ((inMode .S (withCsr .mstatus 0x700000 h32)).priv = .S ∧ (inMode .S (withCsr .mstatus 0x700000 h32)).mstatus.tsr = true ∧
        (inMode .S (withCsr .mstatus 0x700000 h32)).mstatus.tw = true ∧
        (inMode .S (withCsr .mstatus 0x700000 h32)).mstatus.tvm = true) ∧
      h32.cfg.extN = false ∧ (hart .rv32 .m).cfg.modes = .m := by decide

/-- A hart with every interrupt enabled and MTI pending. -/
def interrupted : State := { h32 with priv := .U, mie := 0xAAA, mtimecmp := 0 }

theorem witness_InterruptSelection :
    within (mieMask interrupted.cfg) interrupted.mie ∧ nextInterrupt interrupted = some 7 ∧ nextInterrupt h32 = none := by
  unfold within; decide

/-- R165, D24: on an M-only hart MPP is M; a configuration byte keeps R, W and X as far as they are legal. -/
theorem test_hartReset_legal :
    (hartReset State.reset (hart .rv32 .m)).mstatus.mpp = .M ∧
      (hartReset { h32 with pmpcfg := (h32.pmpcfg.set 0 0xFF).set 1 0xFE } h32).pmpcfg[0] = 0x07 ∧
      (hartReset { h32 with pmpcfg := (h32.pmpcfg.set 0 0xFF).set 1 0xFE } h32).pmpcfg[1] = 0x04 ∧
      (hartReset { h32 with mtrap := { h32.mtrap with epc := 0x80000003, tvec := 0x80000003 } } h32).mtrap =
        { h32.mtrap with epc := 0x80000000, tvec := 0x80000000 } := by decide

/-- R146: an entry that is not implemented is zero after reset. -/
theorem test_hartReset_absent_entry :
    (hartReset { h32 with pmpcfg := h32.pmpcfg.set 6 0x07, pmpaddr := h32.pmpaddr.set 6 1 }
        { h32 with cfg := { h32.cfg with pmpEntries := 6 } }).pmpcfg[6] = 0 ∧
      (hartReset { h32 with pmpcfg := h32.pmpcfg.set 6 0x07, pmpaddr := h32.pmpaddr.set 6 1 }
        { h32 with cfg := { h32.cfg with pmpEntries := 6 } }).pmpaddr[6] = 0 := by decide

theorem witness_ResetProtection :
    0 < h32.cfg.pmpEntries ∧ ({ hartReset h32 h32 with priv := .U } : State).priv ≠ .M := by decide

/-- A store about to run, in a hart whose PMP entry 1 is locked over it. -/
def storing : State := running 0x00532023 (withX [(5, 0x12345678), (6, 0x80001000)] (pmpHart 0x9F00 0 0xFFFFFFFF))

theorem witness_invariants_kept :
    Memory.wf storing.mem = true ∧ (∃ t, step storing = .next t ∧ (memRead t.mem 0x80001000 == 0x78#8) = true) ∧
      pmpLocked storing.pmpcfg[(1 : Fin 16)] = true := by exact ⟨by decide, exists_next_of (by decide), by decide⟩

theorem witness_AddressesKept :
    alignedPcs storing ∧ legalTvecs storing := by refine ⟨⟨by decide, fun x => ?_⟩, fun x => ?_⟩ <;> cases x <;> decide

theorem witness_ModesKept :
    legalModes storing ∧ absentZero storing ∧ absentZero (hart .rv32 .m) := by
  unfold legalModes absentZero
  exact ⟨by decide, ⟨by decide, by decide, by decide⟩, by decide, by decide, by decide⟩

theorem witness_MasksKept : maskedCsrs storing := by unfold maskedCsrs within; decide

theorem witness_PmpLegalKept : legalPmp storing := by unfold legalPmp within; decide

theorem witness_WidthsKept :
    fitsXlen storing := by
  refine ⟨by decide, fun x => ?_⟩
  unfold trapRegsFit
  cases x <;> decide

theorem witness_MemoryIsolation :
    ∃ t, step storing = .next t ∧ memRead t.mem 0x80001003 ≠ memRead storing.mem 0x80001003 := by
  obtain ⟨t, h, ht⟩ : ∃ t, step storing = .next t ∧ (memRead t.mem 0x80001003 != memRead storing.mem 0x80001003) = true :=
    exists_next_of (by decide)
  exact ⟨t, h, by simpa using ht⟩

theorem witness_InvariantsAtReset : legalResetVector h32.cfg ∧ legalResetVector h64.cfg := by unfold legalResetVector; decide

theorem witness_ResetProcedure : legalState storing :=
  ⟨witness_invariants_kept.1, witness_AddressesKept.1, witness_AddressesKept.2, witness_ModesKept.1, witness_ModesKept.2.1,
    witness_MasksKept, witness_PmpLegalKept, witness_WidthsKept⟩

theorem witness_UserIsolation :
    (inMode .U h32).priv = .U ∧ ∃ t, exec (.addi 5 6 1) (inMode .U h32) = .next t ∧ (t.priv == Priv.U) = true := by
  exact ⟨rfl, exists_next_of (by decide)⟩

theorem witness_PrivilegeChanges :
    (∃ t, step (running 0x00000073 (inMode .U h32)) = .next t ∧
        decide ((inMode .U h32).priv.level < t.priv.level) = true) ∧
      ∃ t, step (running 0x30200073 h32) = .next t ∧ decide (t.priv.level < h32.priv.level) = true := by
  exact ⟨exists_next_of (by decide), exists_next_of (by decide)⟩

end Sys2Proof.Tests
end

/-! PROOFS. An induction principle for the invariants of the control state: what no instruction but a trap, a trap return or
a CSR access can reach is left alone by every step. -/

namespace Sys2Proof.Machine

/-! ### The part of the state that the invariants read -/

/-- `t` differs from `s` at most in integer registers, counters, the platform's registers, memory and the model's own
fields: nothing that governs privilege, traps or protection. -/
def sameControl (s t : State) : Prop :=
  t = { s with
    xregs := t.xregs, minstret := t.minstret, mcycle := t.mcycle, wfiStalled := t.wfiStalled, mtime := t.mtime
    mtimecmp := t.mtimecmp, msip := t.msip, lines := t.lines, mem := t.mem, inputs := t.inputs, boundary := t.boundary
    mcycleWritten := t.mcycleWritten }

theorem sameControl_retire (s : State) : sameControl s (retire s) := rfl
theorem sameControl_writeX (r : Reg) (v : Word) (s : State) : sameControl s (writeX r v s) := rfl
theorem sameControl_awaken (s : State) : sameControl s (awaken s) := rfl
theorem sameControl_passTime (s : State) : sameControl s (passTime s) := rfl
theorem sameControl_stall (s : State) : sameControl s { s with wfiStalled := true } := rfl

theorem sameControl_regionWrite (r : Region) (pa n : Nat) (v : Word) (s : State) :
    sameControl s (regionWrite r pa n v s) := by
  obtain ⟨base, size, kind⟩ := r
  cases kind with
  | ram => rfl
  | rom => rfl
  | dev d => cases d <;> rfl

theorem sameControl_retireCsr (c : Csr) (w : Bool) (s : State) : sameControl s (retireCsr c w s) := by
  unfold retireCsr
  split
  · rfl
  · exact sameControl_retire s

/-! ### The codes of traps -/

theorem excCode_lt (e : Exc) : e.code < 16 := by cases e <;> decide

theorem pendingFor_mem {x : Priv} {s : State} {k : Nat} (h : pendingFor x s = some k) :
    k ∈ intOrder ∧ intTarget k s = x ∧ canTake k s = true := by
  have hp := List.find?_some h
  simp only [Bool.and_eq_true, beq_iff_eq] at hp
  exact ⟨List.mem_of_find?_eq_some h, hp⟩

/-- The interrupt taken at a boundary is one of the order of R522, and can be taken (R521). -/
theorem nextInterrupt_canTake {s : State} {k : Nat} (h : nextInterrupt s = some k) : k ∈ intOrder ∧ canTake k s = true := by
  have hx : ∃ x, pendingFor x s = some k := by
    unfold nextInterrupt at h
    split at h
    · rename_i hM
      exact ⟨.M, h ▸ hM⟩
    · split at h
      · rename_i hS
        exact ⟨.S, h ▸ hS⟩
      · exact ⟨.U, h⟩
  obtain ⟨x, hx⟩ := hx
  obtain ⟨hm, -, hc⟩ := pendingFor_mem hx
  exact ⟨hm, hc⟩

theorem intOrder_lt {k : Nat} (h : k ∈ intOrder) : k < 16 := by
  simp only [intOrder, List.mem_cons, List.not_mem_nil, or_false] at h
  omega

/-! ### The induction principle -/

/-- A trap return of level `x` that is legal in `s` (R353 to R355). -/
def returnLegal (x : Priv) (s : State) : Prop :=
  match x with
  | .M => s.priv = .M
  | .S => s.cfg.hasS = true
  | .U => s.cfg.hasN = true

/-- What a predicate has to survive to be kept by every step: moving on, an aligned transfer of control, a trap entry, a
legal trap return and a write of a CSR that exists. -/
structure StepInvariant (P : State → Prop) : Prop where
  control : ∀ {s t : State}, sameControl s t → P s → P t
  advance : ∀ {s : State}, P s → P (advancePc s)
  jump : ∀ {s : State} (v : Word), v.toNat % 4 = 0 → v.toNat < 2 ^ s.cfg.xlen.bits → P s → P { s with pc := v }
  trap : ∀ {s : State} (b : Bool) (c : Nat) (v e : Word), c < 16 → P s → P (takeTrap b c v e s)
  trapReturn : ∀ {s : State} (x : Priv), returnLegal x s → P s → P (returnFromTrap x s)
  csr : ∀ {s t : State} {c : Csr}, csrExists s.cfg c = true → CsrEffect c s t → P s → P t

namespace StepInvariant

variable {P : State → Prop} {s t : State}

theorem moveOn (hP : StepInvariant P) (h : P s) : P (retire (advancePc s)) :=
  hP.control (sameControl_retire _) (hP.advance h)

theorem csrComplete (hP : StepInvariant P) {c : Csr} (hc : csrExists s.cfg c = true) (w : Bool) (rd : Reg)
    (f : Word → Word) (h : P s) : P (csrComplete c w rd f s) := by
  have hw : P (if w then csrWrite c (f (csrRmwBase c s)) s else s) := by
    split
    · exact hP.csr hc (csrWrite_effect c _ s) h
    · exact h
  exact hP.control (sameControl_retireCsr c w _) (hP.advance (hP.control (sameControl_writeX rd _ _) hw))

theorem effect (hP : StepInvariant P) {i : Instr} (he : Effect i s t) (h : P s) : P t := by
  cases he with
  | trap r => exact hP.trap _ _ _ _ (excCode_lt r.exc) h
  | move => exact hP.moveOn h
  | write rd v => exact hP.moveOn (hP.control (sameControl_writeX rd v s) h)
  | jump rd v target ha hw =>
    exact hP.control (sameControl_retire _) (hP.jump target ha hw (hP.control (sameControl_writeX rd v s) h))
  | store sz ea v r => exact hP.moveOn (hP.control (sameControl_regionWrite r _ _ v s) h)
  | csr a c w rd f hc =>
    obtain ⟨-, hx, -⟩ := csrAccess_exists hc
    exact hP.csrComplete hx w rd f h
  | mret _ hM => exact hP.control (sameControl_retire _) (hP.trapReturn .M hM h)
  | sret _ hS => exact hP.control (sameControl_retire _) (hP.trapReturn .S hS h)
  | uret _ hN => exact hP.control (sameControl_retire _) (hP.trapReturn .U hN h)
  | wfi => exact hP.moveOn (hP.control (sameControl_stall s) h)

theorem step (hP : StepInvariant P) (hs : Machine.step s = .next t) (h : P s) : P t := by
  have ha : P (awaken s) := hP.control (sameControl_awaken s) h
  cases effect_of_step hs with
  | stalled => exact hP.control (sameControl_passTime _) h
  | interrupt k hk =>
    obtain ⟨hm, -⟩ := nextInterrupt_canTake hk
    exact hP.control (sameControl_passTime _) (hP.trap _ _ _ _ (intOrder_lt hm) ha)
  | raised r => exact hP.control (sameControl_passTime _) (hP.trap _ _ _ _ (excCode_lt r.exc) ha)
  | executed w i u _ _ _ he => exact hP.control (sameControl_passTime _) (hP.effect he ha)

end StepInvariant

end Sys2Proof.Machine

/-! PROOFS. What trap entry, trap return and a CSR write do to `pc` and the trap registers, and the invariants on them:
alignment, legal vectors and widths. -/

namespace Sys2Proof.Machine

/-! ### Words modulo 4 and modulo 2^XLEN -/

theorem four_dvd_bits (xl : Xlen) : (4 : Nat) ∣ 2 ^ xl.bits := by cases xl <;> decide

theorem truncX_mod_four (xl : Xlen) (v : Word) : (truncX xl v).toNat % 4 = v.toNat % 4 := by
  rw [truncX_toNat, Nat.mod_mod_of_dvd _ (four_dvd_bits xl)]

theorem alignWord_mod_four (v : Word) : (alignWord v).toNat % 4 = 0 := by rw [alignWord_toNat]; omega

theorem alignWord_le (v : Word) : (alignWord v).toNat ≤ v.toNat := by rw [alignWord_toNat]; omega

theorem add_mod_four {v w : Word} (hv : v.toNat % 4 = 0) (hw : w.toNat % 4 = 0) : (v + w).toNat % 4 = 0 := by
  rw [BitVec.toNat_add]; omega

/-- Replacing the low two bits of an XLEN-bit number leaves XLEN bits. -/
theorem replaceLow_lt (xl : Xlen) {n m : Nat} (hn : n < 2 ^ xl.bits) (hm : m < 4) : n / 4 * 4 + m < 2 ^ xl.bits := by
  have hd := four_dvd_bits xl
  omega

theorem legalTvec_lt {xl : Xlen} {v : Word} (old : Word) (hv : v.toNat < 2 ^ xl.bits) :
    (legalTvec old v).toNat < 2 ^ xl.bits := by
  rw [legalTvec_toNat]
  exact replaceLow_lt xl hv (by split <;> omega)

theorem legalTvec_mode_lt {old : Word} (ho : old.toNat % 4 < 2) (v : Word) : (legalTvec old v).toNat % 4 < 2 := by
  rw [legalTvec_toNat]
  split <;> omega

/-! ### Trap entry (R531, R532) -/

theorem trapVector_mod_four (xl : Xlen) (tvec : Word) (b : Bool) (c : Nat) : (trapVector xl tvec b c).toNat % 4 = 0 := by
  have hc : (BitVec.ofNat 64 (4 * c)).toNat % 4 = 0 := by rw [BitVec.toNat_ofNat]; omega
  unfold trapVector
  split
  · rw [truncX_mod_four]; exact add_mod_four (alignWord_mod_four tvec) hc
  · rw [truncX_mod_four]; exact alignWord_mod_four tvec

theorem trapVector_lt (xl : Xlen) (tvec : Word) (b : Bool) (c : Nat) : (trapVector xl tvec b c).toNat < 2 ^ xl.bits := by
  unfold trapVector
  split <;> exact truncX_lt _ _

theorem causeWord_lt (xl : Xlen) (b : Bool) {c : Nat} (hc : c < 16) : (causeWord xl b c).toNat < 2 ^ xl.bits := by
  have hb : (bitAt b (xl.bits - 1)).toNat < 2 ^ xl.bits := by cases xl <;> cases b <;> decide
  have h16 : 16 ≤ 2 ^ xl.bits := by cases xl <;> decide
  unfold causeWord
  rw [BitVec.toNat_or, BitVec.toNat_ofNat]
  exact Nat.or_lt_two_pow hb (by omega)

theorem trapRegsAfter_aligned (xl : Xlen) (b : Bool) (c : Nat) (v e : Word) (r : TrapRegs) :
    (trapRegsAfter xl b c v e r).epc.toNat % 4 = 0 := alignWord_mod_four _

theorem trapRegsAfter_fit {xl : Xlen} {r : TrapRegs} (b : Bool) {c : Nat} (hc : c < 16) (v e : Word)
    (hr : trapRegsFit xl r) : trapRegsFit xl (trapRegsAfter xl b c v e r) := by
  obtain ⟨htvec, hscratch, -, -, -⟩ := hr
  exact ⟨htvec, hscratch, (alignWord_le _).trans_lt (truncX_lt _ _), causeWord_lt xl b hc, truncX_lt _ _⟩

/-! ### The trap registers of all levels -/

theorem trapRegs_setTrapRegs (x y : Priv) (r : TrapRegs) (s : State) :
    trapRegs x (setTrapRegs y r s) = if x = y then r else trapRegs x s := by cases x <;> cases y <;> rfl

/-- A property of the trap registers survives trap entry where it survives the update of one level. -/
theorem trapRegs_takeTrap_of {Q : TrapRegs → Prop} {s : State} {b : Bool} {c : Nat} {v e : Word}
    (hQ : ∀ r, Q r → Q (trapRegsAfter s.cfg.xlen b c v e r)) (h : ∀ x, Q (trapRegs x s)) (x : Priv) :
    Q (trapRegs x (takeTrap b c v e s)) := by
  rw [takeTrap, trapRegs_enterTrap]
  split
  · exact hQ _ (h _)
  · exact h x

/-- A property of `pc` and the trap registers survives a CSR write where it survives the write of one level. -/
theorem trapRegs_csrEffect_of {Q : TrapRegs → Prop} {s t : State} {c : Csr} (he : CsrEffect c s t)
    (hQ : ∀ r r', TrapRegsWritten s.cfg.xlen r r' → Q r → Q r') (h : ∀ x, Q (trapRegs x s)) (x : Priv) :
    Q (trapRegs x t) := by
  cases he with
  | trapRegs y r _ hw =>
    rw [trapRegs_setTrapRegs]
    split
    · exact hQ _ _ hw (h y)
    · exact h x
  | _ => exact h x

theorem csrEffect_pc {c : Csr} {s t : State} (he : CsrEffect c s t) : t.pc = s.pc := by cases he <;> rfl

theorem csrEffect_cfg {c : Csr} {s t : State} (he : CsrEffect c s t) : t.cfg = s.cfg := by cases he <;> rfl

/-! ### Alignment and vectors (R40, R110, R143) -/

/-- The trap registers of a level hold an aligned `xepc` and a vector whose MODE is not reserved. -/
def trapRegsLegal (r : TrapRegs) : Prop := r.epc.toNat % 4 = 0 ∧ r.tvec.toNat % 4 < 2

theorem alignedPcs_and_legalTvecs_iff (s : State) :
    alignedPcs s ∧ legalTvecs s ↔ s.pc.toNat % 4 = 0 ∧ ∀ x, trapRegsLegal (trapRegs x s) := by
  simp only [alignedPcs, legalTvecs, trapRegsLegal, forall_and, and_assoc]

theorem trapRegsLegal_written {xl : Xlen} {r r' : TrapRegs} (hw : TrapRegsWritten xl r r') (h : trapRegsLegal r) :
    trapRegsLegal r' := by
  obtain ⟨hepc, htvec⟩ := h
  constructor
  · rcases hw.epc with he | ⟨v, -, he⟩ <;> rw [he]
    · exact hepc
    · exact alignWord_mod_four v
  · rcases hw.tvec with he | ⟨v, -, he⟩ <;> rw [he]
    · exact htvec
    · exact legalTvec_mode_lt htvec v

theorem addresses_stepInvariant :
    StepInvariant (fun s => s.pc.toNat % 4 = 0 ∧ ∀ x, trapRegsLegal (trapRegs x s)) where
  control hc h := by rw [hc]; exact h
  advance h := ⟨(truncX_mod_four _ _).trans (add_mod_four h.1 rfl), h.2⟩
  jump _ ha _ h := ⟨ha, h.2⟩
  trap b c v e _ h :=
    ⟨trapVector_mod_four _ _ b c,
      trapRegs_takeTrap_of (fun r hr => ⟨trapRegsAfter_aligned _ b c v e r, hr.2⟩) h.2⟩
  trapReturn x _ h := ⟨(h.2 x).1, h.2⟩
  csr _ he h := ⟨csrEffect_pc he ▸ h.1, trapRegs_csrEffect_of he (fun _ _ hw => trapRegsLegal_written hw) h.2⟩

/-- Settles O51: trap entry and CSR writes clear the low bits of `xepc` and keep a vector's MODE, and every transfer of
control is to an aligned address. -/
theorem addressesKept : Obligations.AddressesKept := by
  intro s t ha hv hs
  rw [alignedPcs_and_legalTvecs_iff]
  exact addresses_stepInvariant.step hs ((alignedPcs_and_legalTvecs_iff s).mp ⟨ha, hv⟩)

/-! ### Widths (R39, R108, R142 to R145) -/

theorem trapRegsFit_written {xl : Xlen} {r r' : TrapRegs} (hw : TrapRegsWritten xl r r') (h : trapRegsFit xl r) :
    trapRegsFit xl r' := by
  obtain ⟨htvec, hscratch, hepc, hcause, htval⟩ := h
  refine ⟨?_, ?_, ?_, ?_, ?_⟩
  · rcases hw.tvec with he | ⟨v, hv, he⟩ <;> rw [he]
    · exact htvec
    · exact legalTvec_lt r.tvec hv
  · exact hw.scratch.elim (fun he => he ▸ hscratch) id
  · rcases hw.epc with he | ⟨v, hv, he⟩ <;> rw [he]
    · exact hepc
    · exact (alignWord_le v).trans_lt hv
  · exact hw.cause.elim (fun he => he ▸ hcause) id
  · exact hw.tval.elim (fun he => he ▸ htval) id

theorem widths_stepInvariant : StepInvariant fitsXlen where
  control hc h := by rw [hc]; exact h
  advance h := ⟨truncX_lt _ _, h.2⟩
  jump _ _ hw h := ⟨hw, h.2⟩
  trap b _ v e hc h :=
    ⟨trapVector_lt _ _ b _, trapRegs_takeTrap_of (fun _ => trapRegsAfter_fit b hc v e) h.2⟩
  trapReturn x _ h := by
    obtain ⟨-, -, hepc, -, -⟩ := h.2 x
    exact ⟨hepc, h.2⟩
  csr _ he h := by
    refine ⟨?_, fun x => ?_⟩
    · rw [csrEffect_pc he, csrEffect_cfg he]; exact h.1
    · rw [csrEffect_cfg he]
      exact trapRegs_csrEffect_of he (fun _ _ hw => trapRegsFit_written hw) h.2 x

/-- Settles O55: every value that reaches `pc` or a trap register is cut to XLEN bits first. -/
theorem widthsKept : Obligations.WidthsKept := fun _ _ h hs => widths_stepInvariant.step hs h

end Sys2Proof.Machine

/-! PROOFS. The modes that exist, what a trap is routed to, and the fields of `mstatus` and `mip` that an absent mode or
extension would bring. -/

namespace Sys2Proof.Machine

/-! ### The modes that exist (R31) -/

theorem hasU_of_hasS {c : Config} (h : c.hasS = true) : c.hasU = true := by
  unfold Config.hasS Config.hasU at *
  cases hm : c.modes <;> simp_all

theorem hasU_of_hasN {c : Config} (h : c.hasN = true) : c.hasU = true := (Bool.and_eq_true_iff.mp h).2

/-! ### Routing goes to a mode that exists (R551, R552) -/

theorem hasMode_delegated {c : Config} (h : delegExists c = true) (b : Bool) :
    c.hasMode (if c.hasS then (if c.hasN && b then .U else .S) else .U) = true := by
  cases hS : c.hasS with
  | true =>
    rw [if_pos rfl]
    split
    · exact hasU_of_hasS hS
    · exact hS
  | false =>
    rw [delegExists, hS, Bool.false_or] at h
    exact hasU_of_hasN h

theorem hasMode_intTarget (k : Nat) (s : State) : s.cfg.hasMode (intTarget k s) = true := by
  unfold intTarget
  split
  · rfl
  · rename_i h
    simp only [Bool.or_eq_true, Bool.not_eq_true', not_or, Bool.not_eq_false] at h
    exact hasMode_delegated h.1 _

theorem hasMode_excDelegate (c : Nat) (s : State) : s.cfg.hasMode (excDelegate c s) = true := by
  unfold excDelegate
  split
  · rename_i h
    exact hasMode_delegated (Bool.and_eq_true_iff.mp h).1 _
  · rfl

theorem maxPriv_cases (a b : Priv) : maxPriv a b = a ∨ maxPriv a b = b := by
  unfold maxPriv
  split
  · exact .inr rfl
  · exact .inl rfl

theorem level_le_maxPriv (a b : Priv) : b.level ≤ (maxPriv a b).level := by
  unfold maxPriv
  split <;> omega

theorem hasMode_trapTarget {s : State} (h : s.cfg.hasMode s.priv = true) (b : Bool) (c : Nat) :
    s.cfg.hasMode (trapTarget b c s) = true := by
  cases b with
  | true => exact hasMode_intTarget c s
  | false =>
    show s.cfg.hasMode (maxPriv (excDelegate c s) s.priv) = true
    rcases maxPriv_cases (excDelegate c s) s.priv with he | he <;> rw [he]
    · exact hasMode_excDelegate c s
    · exact h

/-! ### Legal `mstatus` and `mip` (R91, R92, R98 to R102, R132) -/

/-- The fields of `mstatus` that a mode or extension brings are set only where it exists. -/
structure MstatusLegal (c : Config) (m : Mstatus) : Prop where
  mpp : c.hasMode m.mpp = true
  sie : m.sie = true → c.hasS = true
  spie : m.spie = true → c.hasS = true
  spp : m.spp = true → c.hasS = true
  sum : m.sum = true → c.hasS = true
  mxr : m.mxr = true → c.hasS = true
  tvm : m.tvm = true → c.hasS = true
  tsr : m.tsr = true → c.hasS = true
  uie : m.uie = true → c.hasN = true
  upie : m.upie = true → c.hasN = true
  mprv : m.mprv = true → c.hasU = true
  tw : m.tw = true → c.hasU = true

/-- The bits of `mip` that a mode or extension brings are set only where it exists. -/
structure MipLegal (c : Config) (m : MipBits) : Prop where
  usip : m.usip = true → c.hasN = true
  ssip : m.ssip = true → c.hasS = true
  utip : m.utip = true → c.hasN = true
  stip : m.stip = true → c.hasS = true
  ueipSw : m.ueipSw = true → c.hasN = true
  seipSw : m.seipSw = true → c.hasS = true

theorem false_imp_false_iff (a b : Bool) : (a = false → b = false) ↔ (b = true → a = true) := by cases a <;> cases b <;> simp

theorem legalModes_and_absentZero_iff (s : State) :
    legalModes s ∧ absentZero s ↔
      s.cfg.hasMode s.priv = true ∧ MstatusLegal s.cfg s.mstatus ∧ MipLegal s.cfg s.mip := by
  simp only [legalModes, absentZero, imp_and, false_imp_false_iff]
  constructor
  · rintro ⟨⟨hp, hmpp, -⟩, ⟨hsie, hspie, hspp, hsum, hmxr, htvm, htsr, hssip, hstip, hseip⟩,
      ⟨huie, hupie, husip, hutip, hueip⟩, hmprv, htw⟩
    exact ⟨hp, ⟨hmpp, hsie, hspie, hspp, hsum, hmxr, htvm, htsr, huie, hupie, hmprv, htw⟩,
      husip, hssip, hutip, hstip, hueip, hseip⟩
  · rintro ⟨hp, m, i⟩
    exact ⟨⟨hp, m.mpp, m.spp⟩,
      ⟨m.sie, m.spie, m.spp, m.sum, m.mxr, m.tvm, m.tsr, i.ssip, i.stip, i.seipSw⟩,
      ⟨m.uie, m.upie, i.usip, i.utip, i.ueipSw⟩, m.mprv, m.tw⟩

theorem MstatusLegal.push {c : Config} {m : Mstatus} (h : MstatusLegal c m) {x y : Priv} (hx : c.hasMode x = true)
    (hy : c.hasMode y = true) : MstatusLegal c (pushPrivStack x y m) := by
  cases x with
  | M => exact { h with mpp := hy }
  | S => exact { h with sie := fun _ => hx, spie := fun _ => hx, spp := fun _ => hx }
  | U => exact { h with uie := nofun, upie := h.uie }

theorem MstatusLegal.pop {s : State} (h : MstatusLegal s.cfg s.mstatus) {x : Priv} (hx : returnLegal x s) :
    MstatusLegal s.cfg (popPrivStack x s.cfg s.mstatus) := by
  cases x with
  | M =>
    refine { h with mpp := ?_ }
    show s.cfg.hasMode (if s.cfg.hasU then .U else .M) = true
    split
    · assumption
    · rfl
  | S => exact { h with sie := fun _ => hx, spie := fun _ => hx, spp := fun _ => hx }
  | U => exact { h with uie := fun _ => hx, upie := fun _ => hx }

theorem MstatusLegal.returnMode {s : State} (h : MstatusLegal s.cfg s.mstatus) {x : Priv} (hx : returnLegal x s) :
    s.cfg.hasMode (returnMode x s.mstatus) = true := by
  cases x with
  | M => exact h.mpp
  | S =>
    show s.cfg.hasMode (if s.mstatus.spp then .S else .U) = true
    split
    · exact hx
    · exact hasU_of_hasS hx
  | U => exact hasU_of_hasN hx

theorem legalMpp_hasMode {c : Config} {old : Priv} (h : c.hasMode old = true) (v : BitVec 2) :
    c.hasMode (legalMpp c old v) = true := by
  unfold legalMpp
  split
  · split
    · assumption
    · exact h
  · split
    · assumption
    · exact h
  · rfl
  · exact h

/-- A field that is written where its mode exists, and kept where it does not. -/
theorem exists_of_written {p v old : Bool} (h : old = true → p = true) : (if p then v else old) = true → p = true := by
  cases p
  · exact h
  · exact fun _ => rfl

theorem MstatusLegal.write {c : Config} {m : Mstatus} (h : MstatusLegal c m) (v : Word) :
    MstatusLegal c (mstatusWrite c v m) where
  mpp := legalMpp_hasMode h.mpp _
  sie := exists_of_written h.sie
  spie := exists_of_written h.spie
  spp := exists_of_written h.spp
  sum := exists_of_written h.sum
  mxr := exists_of_written h.mxr
  tvm := exists_of_written h.tvm
  tsr := exists_of_written h.tsr
  uie := exists_of_written h.uie
  upie := exists_of_written h.upie
  mprv := exists_of_written h.mprv
  tw := exists_of_written h.tw

/-- A bit written under a mask that is set only where the bit's mode exists. -/
theorem exists_of_masked {q p v old : Bool} (hq : q = true → p = true) (h : old = true → p = true) :
    (if q then v else old) = true → p = true := by
  cases q
  · exact h
  · exact fun _ => hq rfl

theorem MipLegal.write {c : Config} {m : MipBits} (h : MipLegal c m) {mask : Word}
    (hm : ∀ k, mask.getLsbD k = true → (lowerIntMask c).getLsbD k = true ∨ (k = 0 ∧ c.hasN = true)) (v : Word) :
    MipLegal c (mipWrite mask v m) := by
  simp only [lowerIntMask_getLsbD] at hm
  exact {
    usip := exists_of_masked (by simpa using hm 0) h.usip
    ssip := exists_of_masked (by simpa using hm 1) h.ssip
    utip := exists_of_masked (by simpa using hm 4) h.utip
    stip := exists_of_masked (by simpa using hm 5) h.stip
    ueipSw := exists_of_masked (by simpa using hm 8) h.ueipSw
    seipSw := exists_of_masked (by simpa using hm 9) h.seipSw }

theorem modes_stepInvariant : StepInvariant (fun s =>
    s.cfg.hasMode s.priv = true ∧ MstatusLegal s.cfg s.mstatus ∧ MipLegal s.cfg s.mip) where
  control hc h := by rw [hc]; exact h
  advance h := h
  jump _ _ _ h := h
  trap b c _ _ _ h := by
    obtain ⟨hp, hm, hi⟩ := h
    have ht := hasMode_trapTarget hp b c
    exact ⟨ht, hm.push ht hp, hi⟩
  trapReturn x hx h := by
    obtain ⟨-, hm, hi⟩ := h
    exact ⟨hm.returnMode hx, hm.pop hx, hi⟩
  csr hx he h := by
    obtain ⟨hp, hm, hi⟩ := h
    cases he with
    | mstatus v => exact ⟨hp, hm.write v, hi⟩
    | mip mask v hmask =>
      exact ⟨hp, hm, hi.write (fun k hb => (hmask k hb).imp_right (And.imp_right fun e => e.symm.trans hx)) v⟩
    | _ => exact ⟨hp, hm, hi⟩

/-- Settles O52: traps are routed to implemented modes and returns come back to one, and CSR writes leave the fields of an
absent mode or extension alone. -/
theorem modesKept : Obligations.ModesKept := by
  intro s t hm ha hs
  rw [legalModes_and_absentZero_iff]
  exact modes_stepInvariant.step hs ((legalModes_and_absentZero_iff s).mp ⟨hm, ha⟩)

end Sys2Proof.Machine

/-! PROOFS. The delegation, enable and counter-control registers stay within their writable bits. -/

namespace Sys2Proof.Machine

theorem within_iff (m v : Word) : within m v ↔ ∀ k, v.getLsbD k = true → m.getLsbD k = true := by
  constructor
  · intro h k hv
    have hb := congrArg (fun w => w.getLsbD k) h
    have hk := BitVec.lt_of_getLsbD hv
    simpa [hv, hk] using hb
  · intro h
    apply BitVec.eq_of_getLsbD_eq
    intro k hk
    have := h k
    rw [BitVec.getLsbD_and, BitVec.getLsbD_not]
    cases hv : v.getLsbD k <;> simp_all

theorem lowerIntMask_within_mieMask (c : Config) {k : Nat} (h : (lowerIntMask c).getLsbD k = true) :
    (mieMask c).getLsbD k = true := by rw [mieMask, BitVec.getLsbD_or, h, Bool.or_true]

theorem mergeUnder_getLsbD (mask old v : Word) (k : Nat) :
    (mergeUnder mask old v).getLsbD k = if mask.getLsbD k then v.getLsbD k else old.getLsbD k := by
  by_cases hk : k < 64
  · rw [mergeUnder, BitVec.getLsbD_or, BitVec.getLsbD_and, BitVec.getLsbD_and, BitVec.getLsbD_not]
    cases mask.getLsbD k <;> simp [hk]
  · simp only [BitVec.getLsbD_of_ge _ _ (Nat.not_lt.mp hk), ite_self]

/-- Writing bits inside `m` keeps a register within `m`. -/
theorem within_mergeUnder {m mask old v : Word} (h : within m old)
    (hm : ∀ k, mask.getLsbD k = true → m.getLsbD k = true) : within m (mergeUnder mask old v) := by
  rw [within_iff] at *
  intro k
  rw [mergeUnder_getLsbD]
  split
  · exact fun _ => hm k ‹_›
  · exact h k

theorem masks_stepInvariant : StepInvariant maskedCsrs where
  control hc h := by rw [hc]; exact h
  advance h := h
  jump _ _ _ h := h
  trap _ _ _ _ _ h := h
  trapReturn _ _ h := h
  csr _ he h := by
    obtain ⟨hmed, hmid, hsed, hsid, hmie, hmc, hsc, hinh⟩ := h
    cases he with
    | medeleg v => exact ⟨within_and _ v, hmid, hsed, hsid, hmie, hmc, hsc, hinh⟩
    | mideleg v => exact ⟨hmed, within_and _ v, hsed, hsid, hmie, hmc, hsc, hinh⟩
    | sedeleg v => exact ⟨hmed, hmid, within_and _ v, hsid, hmie, hmc, hsc, hinh⟩
    | sideleg v => exact ⟨hmed, hmid, hsed, within_and _ v, hmie, hmc, hsc, hinh⟩
    | mcounteren v => exact ⟨hmed, hmid, hsed, hsid, hmie, and_and_not _ v, hsc, hinh⟩
    | scounteren v => exact ⟨hmed, hmid, hsed, hsid, hmie, hmc, and_and_not _ v, hinh⟩
    | mcountinhibit v => exact ⟨hmed, hmid, hsed, hsid, hmie, hmc, hsc, and_and_not _ v⟩
    | mie v hv =>
      refine ⟨hmed, hmid, hsed, hsid, ?_, hmc, hsc, hinh⟩
      rcases hv with rfl | ⟨w, rfl⟩ | ⟨mask, w, hle, rfl⟩
      · exact hmie
      · exact within_and _ w
      · exact within_mergeUnder hmie fun k hk =>
          lowerIntMask_within_mieMask _ ((within_iff _ _).mp hmid k (hle k hk))
    | _ => exact ⟨hmed, hmid, hsed, hsid, hmie, hmc, hsc, hinh⟩

/-- Settles O53: each of these registers is written under its mask, and `sie` and `uie` write delegated bits only, which lie
within the mask of `mie`. -/
theorem masksKept : Obligations.MasksKept := fun _ _ h hs => masks_stepInvariant.step hs h

end Sys2Proof.Machine

/-! PROOFS. The PMP registers after a write: they stay legal, and a locked entry stays as it is. -/

namespace Sys2Proof.Machine

/-! ### The registers after a write (R153, R332, R333) -/

theorem pmpcfgAfter_getElem (n : Fin 4) (v : Word) (s : State) (i : Fin 16) :
    (pmpcfgAfter n v s)[i] =
      if 4 * n.val ≤ i.val ∧ i.val < 4 * n.val + pmpPerCsr s.cfg.xlen ∧ i.val < s.cfg.pmpEntries ∧
          pmpLocked s.pmpcfg[i] = false then
        legalPmpcfg s.cfg.pmpG s.pmpcfg[i] (v.extractLsb' (8 * (i.val - 4 * n.val)) 8)
      else s.pmpcfg[i] := by
  simp [pmpcfgAfter]

theorem pmpcfgAfter_cases (n : Fin 4) (v : Word) (s : State) (i : Fin 16) :
    (pmpcfgAfter n v s)[i] = s.pmpcfg[i] ∨
      i.val < s.cfg.pmpEntries ∧ pmpLocked s.pmpcfg[i] = false ∧
        ∃ b, (pmpcfgAfter n v s)[i] = legalPmpcfg s.cfg.pmpG s.pmpcfg[i] b := by
  rw [pmpcfgAfter_getElem]
  split
  · rename_i h
    obtain ⟨-, -, hi, hl⟩ := h
    exact .inr ⟨hi, hl, _, rfl⟩
  · exact .inl rfl

theorem pmpaddrAfter_cases (n : Fin 16) (v : Word) (s : State) (i : Fin 16) :
    (pmpaddrAfter n v s)[i] = s.pmpaddr[i] ∨
      i = n ∧ pmpaddrHeld n s = false ∧ (pmpaddrAfter n v s)[i] = v &&& pmpaddrMask s.cfg := by
  unfold pmpaddrAfter
  split
  · exact .inl rfl
  · rename_i hh
    by_cases hi : i = n
    · subst hi
      exact .inr ⟨rfl, by simpa using hh, by simp⟩
    · refine .inl ?_
      have : n.val ≠ i.val := fun e => hi (Fin.ext e.symm)
      simp [Vector.getElem_set_ne, this]

/-! ### Legal entries (R146, R149, R152, R154) -/

/-- A legal configuration byte: bits 6:5 zero, W not without R, no NA4 under a coarser granularity. -/
def pmpByteLegal (g : Nat) (b : Byte) : Prop :=
  b &&& 0x60 = 0 ∧ (pmpPermits b .W = true → pmpPermits b .R = true) ∧ (1 ≤ g → pmpMode b ≠ 2#2)

theorem pmpMode_congr {a b : Byte} (h3 : a.getLsbD 3 = b.getLsbD 3) (h4 : a.getLsbD 4 = b.getLsbD 4) :
    pmpMode a = pmpMode b := by
  apply BitVec.eq_of_getLsbD_eq
  intro k hk
  rw [pmpMode_getLsbD a k hk, pmpMode_getLsbD b k hk]
  interval_cases k
  · exact h3
  · exact h4

theorem pmpMode_legalPmpcfg (g : Nat) (old b : Byte) :
    pmpMode (legalPmpcfg g old b) = if 1 ≤ g ∧ b.toNat / 8 % 4 = 2 then pmpMode old else pmpMode b := by
  split
  · rename_i h
    exact pmpMode_congr (by rw [legalPmpcfg_getLsbD]; exact if_pos h) (by rw [legalPmpcfg_getLsbD]; exact if_pos h)
  · rename_i h
    exact pmpMode_congr (by rw [legalPmpcfg_getLsbD]; exact if_neg h) (by rw [legalPmpcfg_getLsbD]; exact if_neg h)

theorem legalPmpcfg_legal {g : Nat} {old : Byte} (h : pmpByteLegal g old) (b : Byte) :
    pmpByteLegal g (legalPmpcfg g old b) := by
  obtain ⟨-, -, hmode⟩ := h
  refine ⟨?_, ?_, fun hg => ?_⟩
  · apply BitVec.eq_of_getLsbD_eq
    intro k hk
    rw [BitVec.getLsbD_and, legalPmpcfg_getLsbD]
    interval_cases k <;> simp
  · simp only [pmpPermits, legalPmpcfg_getLsbD, Bool.and_eq_true]
    exact And.right
  · rw [pmpMode_legalPmpcfg]
    split
    · exact hmode hg
    · rename_i hb
      intro he
      exact hb ⟨hg, by rw [← pmpMode_toNat, he]; rfl⟩

/-- What `legalPmp` asks of one entry. -/
def pmpEntryLegal (c : Config) (i : Fin 16) (b : Byte) (a : Word) : Prop :=
  pmpByteLegal c.pmpG b ∧ (c.pmpEntries ≤ i.val → b = 0 ∧ a = 0) ∧ within (pmpaddrMask c) a

theorem legalPmp_iff (s : State) : legalPmp s ↔ ∀ i : Fin 16, pmpEntryLegal s.cfg i s.pmpcfg[i] s.pmpaddr[i] := by
  simp only [legalPmp, pmpEntryLegal, pmpByteLegal, and_assoc]

theorem pmpEntryLegal_pmpcfgAfter {s : State} {i : Fin 16} (h : pmpEntryLegal s.cfg i s.pmpcfg[i] s.pmpaddr[i])
    (n : Fin 4) (v : Word) : pmpEntryLegal s.cfg i (pmpcfgAfter n v s)[i] s.pmpaddr[i] := by
  have ⟨hbyte, _, haddr⟩ := h
  rcases pmpcfgAfter_cases n v s i with he | ⟨hi, -, b, he⟩ <;> rw [he]
  · exact h
  · exact ⟨legalPmpcfg_legal hbyte b, fun hle => absurd hi (Nat.not_lt.mpr hle), haddr⟩

theorem pmpEntryLegal_pmpaddrAfter {s : State} {i : Fin 16} (h : pmpEntryLegal s.cfg i s.pmpcfg[i] s.pmpaddr[i])
    (n : Fin 16) (v : Word) : pmpEntryLegal s.cfg i s.pmpcfg[i] (pmpaddrAfter n v s)[i] := by
  have ⟨hbyte, _, _⟩ := h
  rcases pmpaddrAfter_cases n v s i with he | ⟨rfl, hh, he⟩ <;> rw [he]
  · exact h
  · refine ⟨hbyte, fun hle => ?_, within_and _ v⟩
    rw [(pmpaddrHeld_iff i s).mpr (.inl hle)] at hh
    cases hh

theorem pmpLegal_stepInvariant :
    StepInvariant (fun s => ∀ i : Fin 16, pmpEntryLegal s.cfg i s.pmpcfg[i] s.pmpaddr[i]) where
  control hc h := by rw [hc]; exact h
  advance h := h
  jump _ _ _ h := h
  trap _ _ _ _ _ h := h
  trapReturn _ _ h := h
  csr _ he h := by
    cases he with
    | pmpcfg n v => exact fun i => pmpEntryLegal_pmpcfgAfter (h i) n v
    | pmpaddr n v => exact fun i => pmpEntryLegal_pmpaddrAfter (h i) n v
    | _ => exact h

/-- Settles O54: a configuration byte is written through its legal value, an address register under its mask, and an entry
that is not implemented is not written at all. -/
theorem pmpLegalKept : Obligations.PmpLegalKept := by
  intro s t h hs
  rw [legalPmp_iff] at *
  exact pmpLegal_stepInvariant.step hs h

/-! ### Locked entries (R153, R227) -/

theorem pmpcfgAfter_locked {s : State} {i : Fin 16} (h : pmpLocked s.pmpcfg[i] = true) (n : Fin 4) (v : Word) :
    (pmpcfgAfter n v s)[i] = s.pmpcfg[i] := by
  rcases pmpcfgAfter_cases n v s i with hk | ⟨-, hl, -⟩
  · exact hk
  · rw [h] at hl
    cases hl

theorem pmpaddrAfter_locked {s : State} {i : Fin 16} (h : pmpLocked s.pmpcfg[i] = true) (n : Fin 16) (v : Word) :
    (pmpaddrAfter n v s)[i] = s.pmpaddr[i] := by
  rcases pmpaddrAfter_cases n v s i with hk | ⟨rfl, hh, -⟩
  · exact hk
  · rw [(pmpaddrHeld_iff i s).mpr (.inr (.inl h))] at hh
    cases hh

/-- The address register before a locked entry in TOR mode is its bottom, and is locked with it. -/
theorem pmpaddrAfter_lockedTor {s : State} {i j : Fin 16} (h : pmpLocked s.pmpcfg[i] = true)
    (ht : pmpMode s.pmpcfg[i] = 1#2) (hj : j.val + 1 = i.val) (n : Fin 16) (v : Word) :
    (pmpaddrAfter n v s)[j] = s.pmpaddr[j] := by
  rcases pmpaddrAfter_cases n v s j with hk | ⟨rfl, hh, -⟩
  · exact hk
  · have htor : s.pmpcfg[i].toNat / 8 % 4 = 1 := by rw [← pmpMode_toNat, ht]; rfl
    rw [(pmpaddrHeld_iff j s).mpr (.inr (.inr ⟨i, hj.symm, h, htor⟩))] at hh
    cases hh

/-- The entry is as it was in `s₀`, where it was locked. -/
theorem lockedEntry_stepInvariant {s₀ : State} {i : Fin 16} (hl : pmpLocked s₀.pmpcfg[i] = true) :
    StepInvariant (pmpEntryKept i s₀) where
  control hc h := by rw [hc]; exact h
  advance h := h
  jump _ _ _ h := h
  trap _ _ _ _ _ h := h
  trapReturn _ _ h := h
  csr _ he h := by
    obtain ⟨hcfg, haddr, htor⟩ := h
    have hl' := hcfg ▸ hl
    cases he with
    | pmpcfg n v => exact ⟨(pmpcfgAfter_locked hl' n v).trans hcfg, haddr, htor⟩
    | pmpaddr n v =>
      exact ⟨hcfg, (pmpaddrAfter_locked hl' n v).trans haddr, fun ht j hj =>
        (pmpaddrAfter_lockedTor hl' (hcfg ▸ ht) hj n v).trans (htor ht j hj)⟩
    | _ => exact ⟨hcfg, haddr, htor⟩

/-- Settles O57: only a write of a PMP CSR reaches the entry, and such a write passes by a locked entry and the bottom of its
TOR range. -/
theorem lockedPmpKept : Obligations.LockedPmpKept := by
  intro s t i hl hs
  have hk : pmpEntryKept i s t := (lockedEntry_stepInvariant hl).step hs ⟨rfl, rfl, fun _ _ _ => rfl⟩
  exact ⟨hk, hk.1 ▸ hl⟩

end Sys2Proof.Machine

/-! PROOFS. `mstatus` and its views: what is read, and which fields a write reaches. -/

namespace Sys2Proof.Machine

/-! ### Reading `mstatus` (R107) -/

/-- No bit of `mstatus` lies above XLEN. -/
theorem csrRead_mstatus (s : State) : csrRead .mstatus s = mstatusWord s.cfg s.mstatus := by
  apply BitVec.eq_of_getLsbD_eq
  intro k hk
  rw [csrRead_getLsbD]
  show (decide (k < s.cfg.xlen.bits) && (mstatusWord s.cfg s.mstatus).getLsbD k) = _
  cases hx : s.cfg.xlen with
  | rv64 => simp [Xlen.bits, hk]
  | rv32 =>
    by_cases h32 : k < 32
    · simp [Xlen.bits, h32]
    · have hz : (mstatusWord s.cfg s.mstatus).getLsbD k = false := by
        rw [mstatusWord_getLsbD, hx]
        split <;> first | omega | rfl
      simp [hz]

/-! ### The field MPP (R84, R91) -/

theorem mppBits_toNat (xl : Xlen) (v : Word) : ((truncX xl v).extractLsb' 11 2).toNat = v.toNat / 2 ^ 11 % 4 := by
  rw [BitVec.extractLsb'_toNat, truncX_toNat, Nat.shiftRight_eq_div_pow]
  have := v.isLt
  cases xl <;> simp only [Xlen.bits] <;> omega

theorem legalMpp_of_hasMode {c : Config} {q : Priv} {v : BitVec 2} (old : Priv) (hq : q.level = v.toNat)
    (h : c.hasMode q = true) : legalMpp c old v = q := by
  unfold legalMpp
  cases q with
  | U => rw [← hq]; exact if_pos h
  | S => rw [← hq]; exact if_pos h
  | M => rw [← hq]; rfl

theorem legalMpp_of_not_hasMode {c : Config} {v : BitVec 2} (old : Priv)
    (h : ∀ q : Priv, q.level = v.toNat → c.hasMode q = false) : legalMpp c old v = old := by
  unfold legalMpp
  split
  · rename_i hv
    have hU : c.hasU = false := h .U hv.symm
    rw [hU]; rfl
  · rename_i hv
    have hS : c.hasS = false := h .S hv.symm
    rw [hS]; rfl
  · rename_i hv
    cases h .M hv.symm
  · rfl

/-- The field read back is the field kept, implemented or not. -/
theorem legalMpp_self (c : Config) (p : Priv) {v : BitVec 2} (hv : v.toNat = p.level) : legalMpp c p v = p := by
  cases hp : c.hasMode p with
  | true => exact legalMpp_of_hasMode p hv.symm hp
  | false =>
    refine legalMpp_of_not_hasMode p fun q hq => ?_
    have : q = p := by
      rw [hv] at hq
      revert hq
      cases q <;> cases p <;> decide
    rw [this, hp]

/-- Settles O29: the bits are those of `mstatusWord`, and every writable field lies below bit 32, where the width does not
matter. -/
theorem mstatusAccess : Obligations.MstatusAccess := by
  intro s v
  refine ⟨fun k => csrRead_mstatus s ▸ mstatusWord_getLsbD s.cfg s.mstatus k, _, rfl, ?_⟩
  have low {k : Nat} (hk : k < 32) : (truncX s.cfg.xlen v).getLsbD k = v.getLsbD k := truncX_low _ v hk
  have hmpp := mppBits_toNat s.cfg.xlen v
  refine ⟨low (by norm_num), low (by norm_num), fun q hq hm => ?_, fun hm => ?_, ?_, ?_, ?_⟩
  · exact legalMpp_of_hasMode _ (hq.trans hmpp.symm) hm
  · exact legalMpp_of_not_hasMode _ fun q hq => hm q (hq.trans hmpp)
  · simp only [mstatusWrite, low (show 1 < 32 by norm_num), low (show 5 < 32 by norm_num),
      low (show 8 < 32 by norm_num), low (show 18 < 32 by norm_num), low (show 19 < 32 by norm_num),
      low (show 20 < 32 by norm_num), low (show 22 < 32 by norm_num)]
    split <;> rfl
  · simp only [mstatusWrite, low (show 0 < 32 by norm_num), low (show 4 < 32 by norm_num)]
    split <;> rfl
  · simp only [mstatusWrite, low (show 17 < 32 by norm_num), low (show 21 < 32 by norm_num)]
    split <;> rfl

/-! ### The views (R106, R330) -/

/-- The bits of `mask` are fields of the S-level or U-level view that the configuration has. -/
def viewMask (c : Config) (mask : Word) : Prop :=
  ∀ k, mask.getLsbD k = true →
    (c.hasS = true ∧ k ∈ [1, 5, 8, 18, 19]) ∨ (c.hasN = true ∧ k ∈ [0, 4])

theorem getLsbD_ustatusMask {k : Nat} (h : (0x11 : Word).getLsbD k = true) : k ∈ [0, 4] := by
  have hk := BitVec.lt_of_getLsbD h
  revert h
  interval_cases k <;> simp

theorem getLsbD_sstatusMask {k : Nat} (h : (0xC0122 : Word).getLsbD k = true) : k ∈ [1, 5, 8, 18, 19] := by
  have hk := BitVec.lt_of_getLsbD h
  revert h
  interval_cases k <;> simp

theorem sstatusWriteMask_getLsbD (c : Config) (k : Nat) :
    (sstatusWriteMask c).getLsbD k = ((0xC0122 : Word).getLsbD k || (c.hasN && (0x11 : Word).getLsbD k)) := by
  rw [sstatusWriteMask, BitVec.getLsbD_or]
  cases c.hasN <;> simp

theorem viewMask_ustatus {c : Config} (h : c.hasN = true) : viewMask c 0x11 :=
  fun _ hk => .inr ⟨h, getLsbD_ustatusMask hk⟩

theorem viewMask_sstatus {c : Config} (h : c.hasS = true) : viewMask c (sstatusWriteMask c) := by
  intro k hk
  rw [sstatusWriteMask_getLsbD, Bool.or_eq_true, Bool.and_eq_true] at hk
  exact hk.imp (fun hs => ⟨h, getLsbD_sstatusMask hs⟩) (And.imp_right getLsbD_ustatusMask)

theorem viewMask_hasS {c : Config} {mask : Word} (h : viewMask c mask) {k : Nat} (hk : k ∈ [1, 5, 8, 18, 19])
    (hb : mask.getLsbD k = true) : c.hasS = true := by
  rcases h k hb with ⟨hs, -⟩ | ⟨-, hm⟩
  · exact hs
  · simp only [List.mem_cons, List.not_mem_nil, or_false] at hk hm
    omega

theorem viewMask_hasN {c : Config} {mask : Word} (h : viewMask c mask) {k : Nat} (hk : k ∈ [0, 4])
    (hb : mask.getLsbD k = true) : c.hasN = true := by
  rcases h k hb with ⟨-, hm⟩ | ⟨hn, -⟩
  · simp only [List.mem_cons, List.not_mem_nil, or_false] at hk hm
    omega
  · exact hn

theorem viewMask_mem {c : Config} {mask : Word} (h : viewMask c mask) {k : Nat} (hb : mask.getLsbD k = true) :
    k ∈ [0, 1, 4, 5, 8, 18, 19] := by
  rcases h k hb with ⟨-, hm⟩ | ⟨-, hm⟩ <;> simp only [List.mem_cons, List.not_mem_nil, or_false] at hm ⊢ <;> omega

theorem viewMask_lt {c : Config} {mask : Word} (h : viewMask c mask) {k : Nat} (hb : mask.getLsbD k = true) : k < 32 := by
  have hm := viewMask_mem h hb
  simp only [List.mem_cons, List.not_mem_nil, or_false] at hm
  omega

theorem viewMask_clear {c : Config} {mask : Word} (h : viewMask c mask) {k : Nat} (hk : k ∉ [0, 1, 4, 5, 8, 18, 19]) :
    mask.getLsbD k = false := by
  by_contra hb
  exact hk (viewMask_mem h (by simpa using hb))

/-- No view reaches MPP. -/
theorem mergedMpp_toNat {c : Config} {mask : Word} (h : viewMask c mask) (v : Word) (m : Mstatus) :
    ((mergeUnder mask (mstatusWord c m) v).extractLsb' 11 2).toNat = m.mpp.level := by
  have hbits : (mergeUnder mask (mstatusWord c m) v).extractLsb' 11 2 = BitVec.ofNat 2 m.mpp.level := by
    apply BitVec.eq_of_getLsbD_eq
    intro k hk
    rw [BitVec.getLsbD_extractLsb', mergeUnder_getLsbD, viewMask_clear h (by simp; omega), mstatusWord_getLsbD]
    interval_cases k <;> cases m.mpp <;> rfl
  rw [hbits]
  cases m.mpp <;> rfl

/-- A field that a write reaches where `p`, merged under a bit of a mask that is clear without `p`. -/
theorem writeMerged {p b v old : Bool} (h : b = true → p = true) :
    (if p then (if b then v else old) else old) = if b then v else old := by
  cases p
  · cases b
    · rfl
    · cases h rfl
  · rfl

/-- A write through a view changes the fields under its mask, and no other. -/
theorem mstatusWriteUnder_eq {c : Config} {mask : Word} (h : viewMask c mask) (v : Word) (m : Mstatus) :
    mstatusWriteUnder mask c v m =
      { m with
        uie := if mask.getLsbD 0 then v.getLsbD 0 else m.uie
        sie := if mask.getLsbD 1 then v.getLsbD 1 else m.sie
        upie := if mask.getLsbD 4 then v.getLsbD 4 else m.upie
        spie := if mask.getLsbD 5 then v.getLsbD 5 else m.spie
        spp := if mask.getLsbD 8 then v.getLsbD 8 else m.spp
        sum := if mask.getLsbD 18 then v.getLsbD 18 else m.sum
        mxr := if mask.getLsbD 19 then v.getLsbD 19 else m.mxr } := by
  have hS {k : Nat} (hk : k ∈ [1, 5, 8, 18, 19]) := viewMask_hasS h hk
  have hN {k : Nat} (hk : k ∈ [0, 4]) := viewMask_hasN h hk
  have hno {k : Nat} (hk : k ∉ [0, 1, 4, 5, 8, 18, 19]) := viewMask_clear h hk
  show mstatusWrite c (mergeUnder mask (mstatusWord c m) v) m = _
  simp only [mstatusWrite, legalMpp_self c m.mpp (mergedMpp_toNat h v m), mergeUnder_getLsbD, mstatusWord_getLsbD,
    hno (show 3 ∉ _ by decide), hno (show 7 ∉ _ by decide), hno (show 17 ∉ _ by decide),
    hno (show 20 ∉ _ by decide), hno (show 21 ∉ _ by decide), hno (show 22 ∉ _ by decide),
    writeMerged (hS (show 1 ∈ _ by decide)), writeMerged (hS (show 5 ∈ _ by decide)),
    writeMerged (hS (show 8 ∈ _ by decide)), writeMerged (hS (show 18 ∈ _ by decide)),
    writeMerged (hS (show 19 ∈ _ by decide)), writeMerged (hN (show 0 ∈ _ by decide)),
    writeMerged (hN (show 4 ∈ _ by decide)), Bool.false_eq_true, if_false, ite_self]

/-- What `mstatus` reads after a write through a view. -/
theorem mstatusWord_writeUnder {c : Config} {mask : Word} (h : viewMask c mask) (v : Word) (m : Mstatus) :
    mstatusWord c (mstatusWriteUnder mask c v m) = mergeUnder mask (mstatusWord c m) v := by
  apply BitVec.eq_of_getLsbD_eq
  intro k _
  rw [mergeUnder_getLsbD, mstatusWord_getLsbD, mstatusWord_getLsbD, mstatusWriteUnder_eq h]
  cases hb : mask.getLsbD k with
  | true =>
    have hk := viewMask_mem h hb
    simp only [List.mem_cons, List.not_mem_nil, or_false] at hk
    rcases hk with rfl | rfl | rfl | rfl | rfl | rfl | rfl <;> simp [hb]
  | false => split <;> simp_all

theorem csrRead_mstatus_of_view {c : Csr} {v : Word} {s : State} {mask : Word} (h : viewMask s.cfg mask)
    (hw : csrWrite c v s =
      { s with mstatus := mstatusWriteUnder mask s.cfg (truncX s.cfg.xlen v) s.mstatus }) (k : Nat) :
    (csrRead .mstatus (csrWrite c v s)).getLsbD k =
      if mask.getLsbD k then v.getLsbD k else (csrRead .mstatus s).getLsbD k := by
  rw [hw, csrRead_mstatus, csrRead_mstatus]
  show (mstatusWord s.cfg (mstatusWriteUnder mask s.cfg (truncX s.cfg.xlen v) s.mstatus)).getLsbD k = _
  rw [mstatusWord_writeUnder h, mergeUnder_getLsbD]
  split
  · rename_i hb
    exact truncX_low _ v (viewMask_lt h hb)
  · rfl

theorem sstatusReadMask_eq (xl : Xlen) :
    sstatusReadMask xl = if xl = .rv32 then 0x800DE133 else 0x80000003000DE133 := by cases xl <;> rfl

/-- A view shows what `mstatus` reads under its mask. -/
theorem csrRead_and (c d : Csr) (s : State) (mask : Word) (h : csrValue c s = csrValue d s &&& mask) (k : Nat) :
    (csrRead c s).getLsbD k = ((csrRead d s).getLsbD k && mask.getLsbD k) := by
  rw [csrRead_getLsbD, csrRead_getLsbD, h, BitVec.getLsbD_and, Bool.and_assoc]

/-- Settles O30: both views are `mstatusWriteUnder` with a mask of writable bits. -/
theorem statusViews : Obligations.StatusViews := by
  intro s v k
  refine ⟨rfl, rfl, ?_, csrRead_and .ustatus .mstatus s 0x11 rfl k, fun hS => ⟨rfl, ?_⟩, fun hN => ⟨rfl, ?_⟩⟩
  · rw [← sstatusReadMask_eq]
    exact csrRead_and .sstatus .mstatus s _ rfl k
  · rw [← sstatusWriteMask_getLsbD]
    exact csrRead_mstatus_of_view (viewMask_sstatus hS) rfl k
  · exact csrRead_mstatus_of_view (viewMask_ustatus hN) rfl k

end Sys2Proof.Machine

/-! PROOFS. The integer registers, and the CSRs register by register: what is read, what a write leaves. -/

namespace Sys2Proof.Machine

/-! ### Integer registers (R38) -/

/-- Settles O9, from what a register reads after a write of the same or of another register. -/
theorem integerRegisters : Obligations.IntegerRegisters := by
  intro s rd r v
  refine ⟨readX_zero s, writeX_zero_reg v s, ?_⟩
  rw [ux_writeX, truncX_toNat, wrapX_nat]

/-! ### `mie` and its views (R119, R122, R132, R330) -/

theorem csrRead_low (c : Csr) (s : State) {k : Nat} (hk : k < 32) : (csrRead c s).getLsbD k = (csrValue c s).getLsbD k :=
  truncX_low _ _ hk

theorem mieMask_getLsbD (c : Config) (k : Nat) :
    (mieMask c).getLsbD k =
      ((0x888 : Word).getLsbD k || (c.hasS && (0x222 : Word).getLsbD k) || (c.hasN && (0x111 : Word).getLsbD k)) := by
  rw [mieMask, BitVec.getLsbD_or, lowerIntMask_getLsbD, Bool.or_assoc]

/-- What `mie` reads after a write through a view of it. -/
theorem csrRead_mie_of_view {c : Csr} {v mask : Word} {s : State}
    (hw : csrWrite c v s = { s with mie := mergeUnder mask s.mie (truncX s.cfg.xlen v) }) {k : Nat} (hk : k < 32) :
    (csrRead .mie (csrWrite c v s)).getLsbD k =
      if mask.getLsbD k then v.getLsbD k else (csrRead .mie s).getLsbD k := by
  rw [csrRead_low _ _ hk, csrRead_low _ _ hk, hw]
  show (mergeUnder mask s.mie (truncX s.cfg.xlen v)).getLsbD k = _
  rw [mergeUnder_getLsbD, truncX_low _ _ hk]
  rfl

theorem uDelegatedShown_getLsbD (s : State) (k : Nat) :
    (uDelegated s &&& 0x111).getLsbD k =
      (s.mideleg.getLsbD k && (!s.cfg.hasS || s.sideleg.getLsbD k) && (0x111 : Word).getLsbD k) := by
  rw [BitVec.getLsbD_and, uDelegated_getLsbD]

/-- Settles O32: `sie` and `uie` show and merge into `mie` under the delegated bits. -/
theorem enableRegisters : Obligations.EnableRegisters := by
  rintro s v k du hk rfl
  refine ⟨?_, ?_, ?_, ?_, ?_, rfl, rfl, rfl⟩
  · rw [csrRead_low _ _ hk, ← mieMask_getLsbD]
    show (truncX s.cfg.xlen v &&& mieMask s.cfg).getLsbD k = _
    rw [BitVec.getLsbD_and, truncX_low _ _ hk]
  · rw [csrRead_low _ _ hk, csrRead_low _ _ hk]
    show (s.mie &&& s.mideleg &&& 0x333).getLsbD k = _
    rw [BitVec.getLsbD_and, BitVec.getLsbD_and]
    rfl
  · rw [csrRead_low _ _ hk, csrRead_low _ _ hk]
    show (s.mie &&& uDelegated s &&& 0x111).getLsbD k = _
    rw [BitVec.and_assoc, BitVec.getLsbD_and, uDelegatedShown_getLsbD]
    rfl
  · rw [csrRead_mie_of_view (mask := s.mideleg &&& 0x333) rfl hk, BitVec.getLsbD_and]
  · rw [csrRead_mie_of_view (mask := uDelegated s &&& 0x111) rfl hk, uDelegatedShown_getLsbD]

/-! ### The trap registers (R108 to R111, R142 to R145, R156, R157) -/

/-- `xtvec`. -/
def tvecCsr : Priv → Csr
  | .M => .mtvec
  | .S => .stvec
  | .U => .utvec

/-- `xscratch`. -/
def scratchCsr : Priv → Csr
  | .M => .mscratch
  | .S => .sscratch
  | .U => .uscratch

/-- `xepc`. -/
def epcCsr : Priv → Csr
  | .M => .mepc
  | .S => .sepc
  | .U => .uepc

/-- `xcause`. -/
def causeCsr : Priv → Csr
  | .M => .mcause
  | .S => .scause
  | .U => .ucause

/-- `xtval`. -/
def tvalCsr : Priv → Csr
  | .M => .mtval
  | .S => .stval
  | .U => .utval

theorem csrRead_tvec (x : Priv) (s : State) : csrRead (tvecCsr x) s = truncX s.cfg.xlen (trapRegs x s).tvec := by
  cases x <;> rfl
theorem csrRead_scratch (x : Priv) (s : State) :
    csrRead (scratchCsr x) s = truncX s.cfg.xlen (trapRegs x s).scratch := by cases x <;> rfl
theorem csrRead_epc (x : Priv) (s : State) : csrRead (epcCsr x) s = truncX s.cfg.xlen (trapRegs x s).epc := by
  cases x <;> rfl
theorem csrRead_cause (x : Priv) (s : State) : csrRead (causeCsr x) s = truncX s.cfg.xlen (trapRegs x s).cause := by
  cases x <;> rfl
theorem csrRead_tval (x : Priv) (s : State) : csrRead (tvalCsr x) s = truncX s.cfg.xlen (trapRegs x s).tval := by
  cases x <;> rfl

theorem csrWrite_tvec (x : Priv) (v : Word) (s : State) :
    csrWrite (tvecCsr x) v s =
      setTrapRegs x { trapRegs x s with tvec := legalTvec (trapRegs x s).tvec (truncX s.cfg.xlen v) } s := by
  cases x <;> rfl
theorem csrWrite_scratch (x : Priv) (v : Word) (s : State) :
    csrWrite (scratchCsr x) v s = setTrapRegs x { trapRegs x s with scratch := truncX s.cfg.xlen v } s := by
  cases x <;> rfl
theorem csrWrite_epc (x : Priv) (v : Word) (s : State) :
    csrWrite (epcCsr x) v s = setTrapRegs x { trapRegs x s with epc := alignWord (truncX s.cfg.xlen v) } s := by
  cases x <;> rfl
theorem csrWrite_cause (x : Priv) (v : Word) (s : State) :
    csrWrite (causeCsr x) v s = setTrapRegs x { trapRegs x s with cause := truncX s.cfg.xlen v } s := by
  cases x <;> rfl
theorem csrWrite_tval (x : Priv) (v : Word) (s : State) :
    csrWrite (tvalCsr x) v s = setTrapRegs x { trapRegs x s with tval := truncX s.cfg.xlen v } s := by
  cases x <;> rfl

@[simp] theorem trapRegs_setTrapRegs_self (x : Priv) (r : TrapRegs) (s : State) :
    trapRegs x (setTrapRegs x r s) = r := (trapRegs_setTrapRegs x x r s).trans (if_pos rfl)

theorem csrRead_tvec_after (x : Priv) (v : Word) (s : State) :
    (csrRead (tvecCsr x) (csrWrite (tvecCsr x) v s)).toNat =
      (truncX s.cfg.xlen v).toNat / 4 * 4 +
        (if (truncX s.cfg.xlen v).toNat % 4 < 2 then (truncX s.cfg.xlen v).toNat % 4
          else (csrRead (tvecCsr x) s).toNat % 4) := by
  have hlt := legalTvec_lt (trapRegs x s).tvec (truncX_lt s.cfg.xlen v)
  rw [csrRead_tvec, csrRead_tvec, csrWrite_tvec, setTrapRegs_cfg, trapRegs_setTrapRegs_self, truncX_of_lt hlt,
    legalTvec_toNat, truncX_mod_four _ (trapRegs x s).tvec]

theorem csrRead_epc_after (x : Priv) (v : Word) (s : State) :
    (csrRead (epcCsr x) (csrWrite (epcCsr x) v s)).toNat = (truncX s.cfg.xlen v).toNat / 4 * 4 := by
  have hlt := (alignWord_le (truncX s.cfg.xlen v)).trans_lt (truncX_lt s.cfg.xlen v)
  rw [csrRead_epc, csrWrite_epc, setTrapRegs_cfg, trapRegs_setTrapRegs_self, truncX_of_lt hlt, alignWord_toNat]

/-- Settles O33, for all levels at once: each register is read from and written to the trap registers of its level. -/
theorem trapRegisters : Obligations.TrapRegisters := by
  intro s v x tvec scratch epc cause tval w hw hx
  have hv : (truncX s.cfg.xlen v).toNat = w := by rw [hw, truncX_toNat, wrapX_nat]
  obtain ⟨rfl, rfl, rfl, rfl, rfl⟩ :
      tvec = tvecCsr x ∧ scratch = scratchCsr x ∧ epc = epcCsr x ∧ cause = causeCsr x ∧ tval = tvalCsr x := by
    rcases hx with ⟨rfl, h⟩ | ⟨rfl, h⟩ | ⟨rfl, h⟩ <;>
      simpa only [List.cons.injEq, and_true, tvecCsr, scratchCsr, epcCsr, causeCsr, tvalCsr] using h
  refine ⟨?_, ?_, ?_, ?_, ?_, ?_, ?_, ?_, ?_, ?_⟩
  · rw [csrRead_tvec_after, hv]
  · rw [csrWrite_tvec, trapRegs_setTrapRegs_self]
  · rw [csrRead_scratch, csrWrite_scratch, trapRegs_setTrapRegs_self, setTrapRegs_cfg, truncX_truncX, hv]
  · rw [csrWrite_scratch, trapRegs_setTrapRegs_self]
  · rw [csrRead_epc_after, hv]
  · rw [csrWrite_epc, trapRegs_setTrapRegs_self]
  · rw [csrRead_cause, csrWrite_cause, trapRegs_setTrapRegs_self, setTrapRegs_cfg, truncX_truncX, hv]
  · rw [csrWrite_cause, trapRegs_setTrapRegs_self]
  · rw [csrRead_tval, csrWrite_tval, trapRegs_setTrapRegs_self, setTrapRegs_cfg, truncX_truncX, hv]
  · rw [csrWrite_tval, trapRegs_setTrapRegs_self]

/-! ### Masked registers (R114, R115, R117, R139 to R141) -/

theorem truncX_of_small (xl : Xlen) {v : Word} (h : v.toNat < 2 ^ 32) : truncX xl v = v :=
  truncX_of_lt (h.trans_le (by cases xl <;> decide))

theorem and_small (v : Word) {m : Word} (hm : m.toNat < 2 ^ 32) : (v &&& m).toNat < 2 ^ 32 := by
  rw [BitVec.toNat_and]
  exact Nat.and_lt_two_pow _ hm

/-- Under a mask of low bits the width does not matter. -/
theorem truncX_and_small (xl : Xlen) (v : Word) {m : Word} (hm : m.toNat < 2 ^ 32) : truncX xl v &&& m = v &&& m := by
  rw [← truncX_of_small xl (and_small v hm), truncX_and, truncX_of_small xl hm]

theorem setWidth_and_small (v : Word) (m : BitVec 32) : (v.setWidth 32 &&& m).setWidth 64 = v &&& m.setWidth 64 := by
  apply BitVec.eq_of_getLsbD_eq
  intro k hk
  simp only [BitVec.getLsbD_setWidth, BitVec.getLsbD_and, hk, decide_true, Bool.true_and]
  by_cases h : k < 32
  · simp [h]
  · simp [BitVec.getLsbD_of_ge m k (by omega)]

theorem lowerIntMask_small (c : Config) : (lowerIntMask c).toNat < 2 ^ 32 := by
  unfold lowerIntMask
  cases c.hasS <;> cases c.hasN <;> decide

/-- A register of 64 bits reads back its writable bits. -/
theorem masked_readBack (xl : Xlen) (v : Word) {m : Word} (hm : m.toNat < 2 ^ 32) :
    truncX xl (truncX xl v &&& m) = v &&& m := by
  rw [truncX_and_small xl v hm, truncX_of_small xl (and_small v hm)]

/-- A register of 32 bits reads back its writable bits. -/
theorem masked32_readBack (xl : Xlen) (v : Word) (m : BitVec 32) :
    truncX xl (((truncX xl v).setWidth 32 &&& m).setWidth 64) = v &&& m.setWidth 64 := by
  rw [setWidth_and_small, masked_readBack]
  rw [BitVec.toNat_setWidth]
  exact (Nat.mod_le _ _).trans_lt m.isLt

/-- Settles O34: every mask lies in the low 32 bits. -/
theorem maskedRegisters : Obligations.MaskedRegisters := by
  intro s v
  have store {m : Word} (hm : m.toNat < 2 ^ 32) := truncX_and_small s.cfg.xlen v hm
  refine ⟨masked_readBack _ v (by decide), ?_, masked_readBack _ v (lowerIntMask_small s.cfg), rfl,
    masked_readBack _ v (by decide), ?_, masked_readBack _ v (by decide), ?_,
    masked32_readBack _ v 0x7, rfl, masked32_readBack _ v 0x7, rfl, masked32_readBack _ v 0x5, rfl⟩
  · exact congrArg (fun w => { s with medeleg := w }) (store (m := medelegMask) (by decide))
  · exact congrArg (fun w => { s with sedeleg := w }) (store (m := sedelegMask) (by decide))
  · exact congrArg (fun w => { s with sideleg := w }) (store (m := sidelegMask) (by decide))

/-! ### Counters (R134, R136, R138) -/

theorem counterLow_toNat (xl : Xlen) (k : BitVec 64) : (truncX xl (counterLow xl k)).toNat = k.toNat % 2 ^ xl.bits := by
  rw [counterLow, truncX_truncX, truncX_toNat]

theorem counterHigh_toNat (xl : Xlen) (k : BitVec 64) : (truncX xl (counterHigh k)).toNat = k.toNat / 2 ^ 32 := by
  have hk := k.isLt
  have hc : (counterHigh k).toNat = k.toNat / 2 ^ 32 := by
    rw [counterHigh, BitVec.toNat_setWidth, BitVec.extractLsb'_toNat, Nat.shiftRight_eq_div_pow]
    omega
  rw [truncX_of_small xl (by omega), hc]

theorem halves_toNat (hi lo : BitVec 32) : (hi ++ lo).toNat = hi.toNat * 2 ^ 32 + lo.toNat := by
  rw [BitVec.toNat_append, ← Nat.shiftLeft_add_eq_or_of_lt lo.isLt, Nat.shiftLeft_eq]

theorem setCounterLow_eq (xl : Xlen) (k : BitVec 64) (v : Word) :
    setCounterLow xl k (truncX xl v) = BitVec.ofNat 64 (patched k.toNat 0 (xl.bits / 8) v.toNat) := by
  have hk := k.isLt
  have hv := v.isLt
  apply BitVec.eq_of_toNat_eq
  cases xl with
  | rv32 =>
    rw [setCounterLow, halves_toNat, BitVec.extractLsb'_toNat, BitVec.extractLsb'_toNat, truncX_toNat, BitVec.toNat_ofNat,
      Nat.shiftRight_eq_div_pow]
    norm_num [patched, Xlen.bits]
    omega
  | rv64 =>
    show v.toNat = _
    rw [BitVec.toNat_ofNat]
    norm_num [patched, Xlen.bits]
    omega

theorem setCounterHigh_eq (xl : Xlen) (k : BitVec 64) (v : Word) :
    setCounterHigh k (truncX xl v) = BitVec.ofNat 64 (patched k.toNat 4 4 v.toNat) := by
  have hk := k.isLt
  have hv := v.isLt
  apply BitVec.eq_of_toNat_eq
  rw [setCounterHigh, halves_toNat, BitVec.extractLsb'_toNat, BitVec.extractLsb'_toNat, truncX_toNat, BitVec.toNat_ofNat,
    Nat.shiftRight_eq_div_pow]
  cases xl <;> norm_num [patched, Xlen.bits] <;> omega

/-- Settles O35: a counter is two halves, read and written as the numbers they stand for. -/
theorem counters : Obligations.Counters := by
  rintro s v b rfl
  refine ⟨counterLow_toNat _ _, counterHigh_toNat _ _, counterLow_toNat _ _, counterHigh_toNat _ _, counterLow_toNat _ _,
    counterHigh_toNat _ _, rfl, rfl, rfl, rfl, ?_, ?_, ?_, ?_⟩
  · rw [← setCounterLow_eq]; rfl
  · rw [← setCounterHigh_eq s.cfg.xlen]; rfl
  · rw [← setCounterLow_eq]; rfl
  · rw [← setCounterHigh_eq s.cfg.xlen]; rfl

/-! ### Constant registers (R75 to R82, R137, R156) -/

/-- MXL is bit 30 alone on RV32 and bit 63 alone on RV64 (R75, R76). -/
theorem misaValue_eq (c : Config) :
    misaValue c = bitAt (c.xlen == .rv32) 30 ||| bitAt (c.xlen == .rv64) 63 ||| bitAt true 8 ||| bitAt c.hasN 13 |||
      bitAt c.hasS 18 ||| bitAt c.hasU 20 := by
  unfold misaValue
  cases c.xlen <;> rfl

theorem misaValue_getLsbD (c : Config) (k : Nat) :
    (misaValue c).getLsbD k =
      (k == 8 || (c.hasU && k == 20) || (c.hasS && k == 18) || (c.hasN && k == 13) || (c.xlen == .rv32 && k == 30) ||
        (c.xlen == .rv64 && k == 63)) := by
  rw [misaValue_eq]
  simp only [BitVec.getLsbD_or, bitAt_getLsbD _ _ _ (show 8 < 64 by norm_num), bitAt_getLsbD _ _ _ (show 13 < 64 by norm_num),
    bitAt_getLsbD _ _ _ (show 18 < 64 by norm_num), bitAt_getLsbD _ _ _ (show 20 < 64 by norm_num),
    bitAt_getLsbD _ _ _ (show 30 < 64 by norm_num), bitAt_getLsbD _ _ _ (show 63 < 64 by norm_num)]
  rw [Bool.eq_iff_iff]
  simp only [Bool.or_eq_true, Bool.and_eq_true, decide_eq_true_eq, beq_iff_eq]
  tauto

theorem truncX_zero (xl : Xlen) : truncX xl 0 = 0 := by cases xl <;> rfl

theorem truncX_toNat_wrapX (xl : Xlen) (v : Word) : (truncX xl v).toNat = wrapX xl v.toNat := by
  rw [truncX_toNat, wrapX_nat]

/-- Settles O36: no write reaches these registers, and `misa` is `misaValue` bit by bit. -/
theorem constantRegisters : Obligations.ConstantRegisters := by
  intro s v n k hk
  refine ⟨?_, ?_, truncX_toNat_wrapX _ _, truncX_toNat_wrapX _ _, truncX_toNat_wrapX _ _, ?_⟩
  · rw [csrRead_getLsbD, decide_eq_true hk, Bool.true_and]
    exact misaValue_getLsbD s.cfg k
  · have hid : (s.cfg.mvendorid.setWidth 64).toNat = s.cfg.mvendorid.toNat :=
      BitVec.toNat_setWidth_of_le (by norm_num)
    show (truncX s.cfg.xlen (s.cfg.mvendorid.setWidth 64)).toNat = _
    rw [truncX_of_small _ (hid ▸ s.cfg.mvendorid.isLt), hid]
  · have hz := truncX_zero s.cfg.xlen
    intro c hc
    simp only [List.mem_cons, List.not_mem_nil, or_false] at hc
    rcases hc with rfl | rfl | rfl | rfl | rfl | rfl | rfl
    case inr.inr.inr.inr.inr.inr => exact ⟨fun h => absurd rfl h, rfl⟩
    all_goals exact ⟨fun _ => hz, rfl⟩

end Sys2Proof.Machine

/-! PROOFS. Trap returns, how the privilege mode changes, and what U-mode cannot change. -/

namespace Sys2Proof.Machine

/-! ### Trap returns (R90, R353 to R355) -/

theorem execReturn_legal (x : Priv) (i : Instr) (s : State) {legal : Bool} (h : legal = true) :
    execReturn x legal i s = .next (retire (returnFromTrap x s)) := if_pos h

theorem mppAfterReturn_eq (c : Config) : (if c.hasU then Priv.U else .M) = if c.modes = .m then .M else .U := by
  unfold Config.hasU
  cases c.modes <;> rfl

/-- Settles O44: each legal return is `returnFromTrap` of its level, retired. -/
theorem trapReturns : Obligations.TrapReturns := by
  intro s
  refine ⟨fun hM => ?_, fun hmodes hp => ?_, fun hN hmodes => ?_⟩
  · have hlegal : mretLegal s = true := by simp [mretLegal, hM]
    refine ⟨_, execReturn_legal .M .mret s hlegal, rfl, rfl, ?_, rfl, rfl⟩
    rw [← mppAfterReturn_eq]
    rfl
  · have hlegal : sretLegal s = true := by
      rcases hp with hp | ⟨hp, htsr⟩
      · simp [sretLegal, Config.hasS, hmodes, hp]
      · simp [sretLegal, Config.hasS, hmodes, hp, htsr]
    exact ⟨_, execReturn_legal .S .sret s hlegal, rfl, rfl, rfl, rfl, rfl⟩
  · have hlegal : s.cfg.hasN = true := by simp [Config.hasN, Config.hasU, hN, hmodes]
    exact ⟨_, execReturn_legal .U .uret s hlegal, rfl, rfl, rfl, rfl, rfl⟩

/-! ### Changes of mode (R34, R502) -/

@[simp] theorem takeTrap_priv (b : Bool) (c : Nat) (v e : Word) (s : State) :
    (takeTrap b c v e s).priv = trapTarget b c s := rfl

@[simp] theorem takeException_priv (r : Raised) (s : State) : (takeException r s).priv = excTarget r.exc.code s := rfl

theorem level_le_excTarget (c : Nat) (s : State) : s.priv.level ≤ (excTarget c s).level := level_le_maxPriv _ _

/-- An interrupt that can be taken is destined for the current mode or a higher one (R521). -/
theorem level_le_intTarget {k : Nat} {s : State} (h : canTake k s = true) : s.priv.level ≤ (intTarget k s).level := by
  simp only [canTake, globallyEnabled, Bool.and_eq_true, Bool.or_eq_true, decide_eq_true_eq, beq_iff_eq] at h
  obtain ⟨⟨hlt | ⟨heq, -⟩, -⟩, -⟩ := h
  · exact hlt.le
  · rw [heq]

theorem level_le_M (p : Priv) : p.level ≤ Priv.M.level := by cases p <;> decide

/-- The mode SRET returns to is not above S. -/
theorem returnMode_S_le (m : Mstatus) : (returnMode .S m).level ≤ Priv.S.level := by
  show (if m.spp then Priv.S else .U).level ≤ _
  cases m.spp <;> decide

/-- The mode after an instruction: that of a trap entry, as before, or that of a trap return, not above the present one. -/
theorem priv_of_effect {i : Instr} {s t : State} (h : Effect i s t) :
    (∃ r, t = takeException r s) ∨ t.priv = s.priv ∨
      (i ∈ [Instr.mret, .sret, .uret] ∧ t.priv.level ≤ s.priv.level) := by
  cases h with
  | trap r => exact .inl ⟨r, rfl⟩
  | move => exact .inr (.inl rfl)
  | write => exact .inr (.inl rfl)
  | jump => exact .inr (.inl rfl)
  | store sz ea v r =>
    refine .inr (.inl ?_)
    rw [retire_priv, advancePc_priv, regionWrite_frame]
  | csr => exact .inr (.inl (csrComplete_priv ..))
  | mret hi hM =>
    refine .inr (.inr ⟨by simp [hi], ?_⟩)
    rw [hM]
    exact level_le_M _
  | sret hi _ hp =>
    refine .inr (.inr ⟨by simp [hi], (returnMode_S_le s.mstatus).trans ?_⟩)
    rcases hp with hp | hp <;> rw [hp]
    decide
  | uret hi => exact .inr (.inr ⟨by simp [hi], Nat.zero_le _⟩)
  | wfi => exact .inr (.inl rfl)

/-- Settles O60: a trap entry never lowers the mode, a trap return never raises it, and nothing else changes it. -/
theorem privilegeChanges : Obligations.PrivilegeChanges := by
  intro s t hs
  cases effect_of_step hs with
  | stalled => exact ⟨fun h => absurd h (lt_irrefl _), fun h => absurd h (lt_irrefl _)⟩
  | interrupt k hk =>
    obtain ⟨-, hc⟩ := nextInterrupt_canTake hk
    exact ⟨fun _ => ⟨_, _, _, _, rfl⟩, fun h => absurd h (Nat.not_lt.mpr (level_le_intTarget hc))⟩
  | raised r => exact ⟨fun _ => ⟨_, _, _, _, rfl⟩, fun h => absurd h (Nat.not_lt.mpr (level_le_excTarget r.exc.code _))⟩
  | executed w i u hf hd _ he =>
    rw [passTime_priv]
    rcases priv_of_effect he with ⟨r, rfl⟩ | hp | ⟨hi, hle⟩
    · exact ⟨fun _ => ⟨_, _, _, _, rfl⟩, fun h => absurd h (Nat.not_lt.mpr (level_le_excTarget r.exc.code _))⟩
    · rw [hp]
      exact ⟨fun h => absurd h (lt_irrefl _), fun h => absurd h (lt_irrefl _)⟩
    · exact ⟨fun h => absurd hle (Nat.not_le.mpr h), fun _ => ⟨w, i, hf, hd, hi⟩⟩

/-! ### What U-mode cannot change (R32, R33, R44, R122) -/

/-- A state that differs in user registers, memory, the platform's registers and what U-mode is given. -/
theorem keptPrivileged_of_user {s t : State}
    (ht : t = { s with
      xregs := t.xregs, pc := t.pc, priv := t.priv, mstatus := t.mstatus, utrap := t.utrap, mie := t.mie, mip := t.mip
      minstret := t.minstret, wfiStalled := t.wfiStalled, mtime := t.mtime, mtimecmp := t.mtimecmp, msip := t.msip
      mem := t.mem })
    (hstatus : t.mstatus = { s.mstatus with uie := t.mstatus.uie, upie := t.mstatus.upie })
    (hmie : ∀ k, userInterrupt s k = false → t.mie.getLsbD k = s.mie.getLsbD k)
    (hmip : t.mip = { s.mip with usip := t.mip.usip }) (husip : userInterrupt s 0 = false → t.mip = s.mip)
    (hret : t.minstret = s.minstret ∨ t.minstret = s.minstret + 1) : keptPrivileged s t := by
  rw [ht]
  exact ⟨rfl, rfl, rfl, rfl, rfl, rfl, rfl, rfl, rfl, rfl, rfl, rfl, rfl, hstatus, hmie, hmip, husip, hret⟩

theorem keptPrivileged_refl (s : State) : keptPrivileged s s :=
  keptPrivileged_of_user rfl rfl (fun _ _ => rfl) rfl (fun _ => rfl) (.inl rfl)

/-- What comes after an update that keeps the privileged state: user registers, memory and the retirement. -/
theorem keptPrivileged_of_eq {s u t : State} (h : keptPrivileged s u)
    (ht : t = { u with
      xregs := t.xregs, pc := t.pc, minstret := t.minstret, wfiStalled := t.wfiStalled, mtime := t.mtime
      mtimecmp := t.mtimecmp, msip := t.msip, mem := t.mem })
    (hret : t.minstret = s.minstret ∨ t.minstret = s.minstret + 1) : keptPrivileged s t := by
  obtain ⟨hcfg, hmtrap, hstrap, hmedeleg, hmideleg, hsedeleg, hsideleg, hmcounteren, hscounteren, hinhibit, hmcycle,
    hpmpcfg, hpmpaddr, hstatus, hmie, hmip, husip, -⟩ := h
  rw [ht]
  exact ⟨hcfg, hmtrap, hstrap, hmedeleg, hmideleg, hsedeleg, hsideleg, hmcounteren, hscounteren, hinhibit, hmcycle,
    hpmpcfg, hpmpaddr, hstatus, hmie, hmip, husip, hret⟩

theorem retire_minstret_cases (s : State) : (retire s).minstret = s.minstret ∨ (retire s).minstret = s.minstret + 1 := by
  rw [retire_minstret]
  split
  · exact .inl rfl
  · exact .inr rfl

theorem keptPrivileged_enterTrap_U (b : Bool) (c : Nat) (v e : Word) (s : State) :
    keptPrivileged s (enterTrap .U b c v e s) :=
  keptPrivileged_of_user rfl rfl (fun _ _ => rfl) rfl (fun _ => rfl) (.inl rfl)

theorem keptPrivileged_returnFromTrap_U (s : State) : keptPrivileged s (retire (returnFromTrap .U s)) :=
  keptPrivileged_of_user rfl rfl (fun _ _ => rfl) rfl (fun _ => rfl) (retire_minstret_cases _)

/-- The registers at user-level addresses (R44, R59). -/
def isUserCsr : Csr → Bool
  | .ustatus | .uie | .utvec | .uscratch | .uepc | .ucause | .utval | .uip => true
  | .cycle | .time | .instret | .hpmcounter _ | .cycleh | .timeh | .instreth | .hpmcounterh _ => true
  | _ => false

theorem isUserCsr_of_level {a : CsrAddr} {c : Csr} (hc : csrOfAddr a = some c) (hl : csrLevel a = 0) :
    isUserCsr c = true := by
  have hlevel : a.toNat / 256 % 4 = 0 := by
    rw [← hl, csrLevel, BitVec.extractLsb'_toNat, Nat.shiftRight_eq_div_pow]
  unfold csrOfAddr at hc
  repeat' split at hc
  -- An address of another level, a user-level register, or no register at all.
  all_goals first
    | omega
    | (cases hc; rfl)
    | cases hc

theorem userInterrupt_eq (s : State) (k : Nat) : userInterrupt s k = (uDelegated s &&& 0x111).getLsbD k := by
  have h111 : (0x111 : Word).getLsbD k = (k == 0 || k == 4 || k == 8) := by
    by_cases hk : k < 64
    · interval_cases k <;> rfl
    · rw [BitVec.getLsbD_of_ge _ _ (by omega)]
      simp
      omega
  have hS : (s.cfg.modes != .msu) = !s.cfg.hasS := rfl
  rw [uDelegatedShown_getLsbD, userInterrupt, h111, hS]

theorem mstatusWriteUnder_ustatus {c : Config} (h : c.hasN = true) (v : Word) (m : Mstatus) :
    mstatusWriteUnder 0x11 c v m = { m with uie := v.getLsbD 0, upie := v.getLsbD 4 } := by
  rw [mstatusWriteUnder_eq (viewMask_ustatus h)]
  rfl

/-- A write of `mip` that selects USIP alone. -/
theorem mipWrite_usip {mask : Word} (h : ∀ k, mask.getLsbD k = true → k = 0) (v : Word) (m : MipBits) :
    mipWrite mask v m = { m with usip := if mask.getLsbD 0 then v.getLsbD 0 else m.usip } := by
  have hno {k : Nat} (hk : k ≠ 0) : mask.getLsbD k = false := by
    by_contra hb
    exact hk (h k (by simpa using hb))
  simp only [mipWrite, hno (show 1 ≠ 0 by decide), hno (show 4 ≠ 0 by decide), hno (show 5 ≠ 0 by decide),
    hno (show 8 ≠ 0 by decide), hno (show 9 ≠ 0 by decide), Bool.false_eq_true, if_false]

theorem uipMask_getLsbD_zero (s : State) : (uDelegated s &&& 0x1).getLsbD 0 = userInterrupt s 0 := by
  rw [userInterrupt_eq, BitVec.getLsbD_and, BitVec.getLsbD_and]
  rfl

/-- A write of a user-level register stays within what U-mode is given. -/
theorem keptPrivileged_csrWrite {c : Csr} {s : State} (hu : isUserCsr c = true) (hx : csrExists s.cfg c = true)
    (v : Word) : keptPrivileged s (csrWrite c v s) := by
  cases c with
  | ustatus =>
    have hw : (csrWrite .ustatus v s).mstatus = _ := mstatusWriteUnder_ustatus hx (truncX s.cfg.xlen v) s.mstatus
    refine keptPrivileged_of_user rfl ?_ (fun _ _ => rfl) rfl (fun _ => rfl) (.inl rfl)
    rw [hw]
  | uie =>
    refine keptPrivileged_of_user rfl rfl (fun k hk => ?_) rfl (fun _ => rfl) (.inl rfl)
    rw [userInterrupt_eq] at hk
    show (mergeUnder (uDelegated s &&& 0x111) s.mie (truncX s.cfg.xlen v)).getLsbD k = _
    rw [mergeUnder_getLsbD, hk]
    rfl
  | uip =>
    have hw : (csrWrite .uip v s).mip = _ := mipWrite_usip (fun _ => uip_mask) (truncX s.cfg.xlen v) s.mip
    rw [uipMask_getLsbD_zero] at hw
    refine keptPrivileged_of_user rfl rfl (fun _ _ => rfl) ?_ (fun h0 => ?_) (.inl rfl)
    · rw [hw]
    · rw [hw, h0]
      rfl
  | utvec | uscratch | uepc | ucause | utval =>
    exact keptPrivileged_of_user rfl rfl (fun _ _ => rfl) rfl (fun _ => rfl) (.inl rfl)
  | cycle | time | instret | hpmcounter _ | cycleh | timeh | instreth | hpmcounterh _ => exact keptPrivileged_refl s
  | _ => cases hu

theorem csrWrite_minstret_of_user {c : Csr} (hu : isUserCsr c = true) (v : Word) (s : State) :
    (csrWrite c v s).minstret = s.minstret := by
  cases c with
  | minstret | minstreth => cases hu
  | _ => rfl

theorem csrComplete_minstret_cases (c : Csr) (w : Bool) (rd : Reg) (f : Word → Word) (s : State) :
    (csrComplete c w rd f s).minstret = (csrWritten c w f s).minstret ∨
      (csrComplete c w rd f s).minstret = (csrWritten c w f s).minstret + 1 := by
  have he : csrComplete c w rd f s = retireCsr c w (advancePc (writeX rd (csrRead c s) (csrWritten c w f s))) := rfl
  rw [he, retireCsr]
  split
  · exact .inl rfl
  · exact retire_minstret_cases (advancePc (writeX rd (csrRead c s) (csrWritten c w f s)))

theorem keptPrivileged_csrComplete {c : Csr} {s : State} (hu : isUserCsr c = true) (hx : csrExists s.cfg c = true)
    (w : Bool) (rd : Reg) (f : Word → Word) : keptPrivileged s (csrComplete c w rd f s) := by
  have hw : keptPrivileged s (csrWritten c w f s) :=
    csrWritten_cases c w f s (keptPrivileged_refl s) (keptPrivileged_csrWrite hu hx)
  have hm : (csrWritten c w f s).minstret = s.minstret :=
    csrWritten_cases (P := fun t => t.minstret = s.minstret) c w f s rfl (csrWrite_minstret_of_user hu · s)
  exact keptPrivileged_of_eq hw (by rw [csrComplete_frame]) (hm ▸ csrComplete_minstret_cases c w rd f s)

/-- Settles O59: U-mode reaches user-level registers only, a trap taken in U-mode and URET touch the U-level stack alone,
and the other trap returns are not legal there. -/
theorem userIsolation : Obligations.UserIsolation := by
  intro i s t hs hx ht
  have hrefl := keptPrivileged_refl s
  cases effect_of_exec hx with
  | trap r =>
    have hU : trapTarget false r.exc.code s = .U := ht
    rw [takeException, takeTrap, hU]
    exact keptPrivileged_enterTrap_U ..
  | move => exact keptPrivileged_of_eq hrefl rfl (retire_minstret_cases _)
  | write => exact keptPrivileged_of_eq hrefl rfl (retire_minstret_cases _)
  | jump => exact keptPrivileged_of_eq hrefl rfl (retire_minstret_cases _)
  | wfi => exact keptPrivileged_of_eq hrefl rfl (retire_minstret_cases _)
  | store sz ea v r =>
    rw [regionWrite_frame]
    exact keptPrivileged_of_eq hrefl rfl (retire_minstret_cases _)
  | csr a c w rd f hc =>
    obtain ⟨haddr, hex, hlevel⟩ := csrAccess_exists hc
    rw [hs] at hlevel
    exact keptPrivileged_csrComplete (isUserCsr_of_level haddr (Nat.le_zero.mp hlevel)) hex w rd f
  | mret _ hM => rw [hs] at hM; cases hM
  | sret _ _ hp => rw [hs] at hp; rcases hp with hp | hp <;> cases hp
  | uret => exact keptPrivileged_returnFromTrap_U s

end Sys2Proof.Machine

/-! PROOFS. Every invariant holds after reset. -/

namespace Sys2Proof.Machine

/-- The trap registers after reset: legal ones, with `mcause` 0. -/
theorem trapRegs_hartReset (x : Priv) (u s : State) :
    trapRegs x (hartReset u s) =
      if x = .M then { legalTrapRegs s.cfg.xlen (trapRegs x u) with cause := 0 }
      else legalTrapRegs s.cfg.xlen (trapRegs x u) := by cases x <;> rfl

theorem trapRegsLegal_hartReset (x : Priv) (u s : State) : trapRegsLegal (trapRegs x (hartReset u s)) := by
  rw [trapRegs_hartReset]
  split <;> exact ⟨legalTrapRegs_aligned _ _, legalTvec_mode _⟩

theorem trapRegsFit_hartReset (x : Priv) (u s : State) : trapRegsFit s.cfg.xlen (trapRegs x (hartReset u s)) := by
  have hfit := legalTrapRegs_fit s.cfg.xlen (trapRegs x u)
  rw [trapRegs_hartReset]
  split
  · obtain ⟨htvec, hscratch, hepc, -, htval⟩ := hfit
    exact ⟨htvec, hscratch, hepc, Nat.two_pow_pos _, htval⟩
  · exact hfit

theorem and_right_of_eq_true {a b : Bool} (h : (a && b) = true) : b = true := (Bool.and_eq_true_iff.mp h).2

theorem mstatusLegal_legalMstatus (c : Config) (m : Mstatus) : MstatusLegal c (legalMstatus c m) where
  mpp := legalMstatus_hasMode c m
  sie := and_right_of_eq_true
  spie := and_right_of_eq_true
  spp := and_right_of_eq_true
  sum := and_right_of_eq_true
  mxr := and_right_of_eq_true
  tvm := and_right_of_eq_true
  tsr := and_right_of_eq_true
  uie := and_right_of_eq_true
  upie := and_right_of_eq_true
  mprv := and_right_of_eq_true
  tw := and_right_of_eq_true

theorem mipLegal_legalMip (c : Config) (m : MipBits) : MipLegal c (legalMip c m) where
  usip := and_right_of_eq_true
  ssip := and_right_of_eq_true
  utip := and_right_of_eq_true
  stip := and_right_of_eq_true
  ueipSw := and_right_of_eq_true
  seipSw := and_right_of_eq_true

theorem modes_hartReset (u s : State) : legalModes (hartReset u s) ∧ absentZero (hartReset u s) := by
  rw [legalModes_and_absentZero_iff]
  exact ⟨rfl, { mstatusLegal_legalMstatus s.cfg u.mstatus with mprv := nofun }, mipLegal_legalMip s.cfg u.mip⟩

theorem masks_hartReset (u s : State) : maskedCsrs (hartReset u s) :=
  ⟨within_and _ _, within_and _ _, within_and _ _, within_and _ _, within_and _ _, and_and_not _ _, and_and_not _ _,
    and_and_not _ _⟩

theorem pmpByteLegal_zero (g : Nat) : pmpByteLegal g 0 := ⟨rfl, nofun, fun _ h => absurd h (by decide)⟩

theorem pmpByteLegal_resetPmpcfg (c : Config) (i : Nat) (b : Byte) : pmpByteLegal c.pmpG (resetPmpcfg c i b) := by
  unfold resetPmpcfg
  split
  · exact legalPmpcfg_legal (pmpByteLegal_zero _) _
  · exact pmpByteLegal_zero _

theorem pmp_hartReset (u s : State) : legalPmp (hartReset u s) := by
  rw [legalPmp_iff]
  intro i
  rw [hartReset_pmpcfg, hartReset_pmpaddr]
  exact ⟨pmpByteLegal_resetPmpcfg _ _ _, fun hi => ⟨if_neg (Nat.not_lt.mpr hi), if_neg (Nat.not_lt.mpr hi)⟩,
    resetPmpaddr_within _ _ _⟩

/-- Reset leaves every element legal for its field (R165, D24). -/
theorem legalState_hartReset (u : State) {s : State} (h : legalResetVector s.cfg) : legalState (hartReset u s) := by
  obtain ⟨halign, hfit⟩ := h
  obtain ⟨haligned, htvecs⟩ :=
    (alignedPcs_and_legalTvecs_iff (hartReset u s)).mpr ⟨halign, fun x => trapRegsLegal_hartReset x u s⟩
  obtain ⟨hmodes, habsent⟩ := modes_hartReset u s
  exact ⟨canonicalMemory_wf u.mem, haligned, htvecs, hmodes, habsent, masks_hartReset u s, pmp_hartReset u s, hfit,
    fun x => trapRegsFit_hartReset x u s⟩

/-- `State.reset` is a reset that finds every unspecified element as it leaves it (log 1 to 7). -/
theorem hartReset_reset : hartReset State.reset State.reset = State.reset := by rfl

/-- Settles O56: the reset values are legal ones, and `State.reset` is such a reset. -/
theorem invariantsAtReset : Obligations.InvariantsAtReset := by
  refine ⟨fun u s h => legalState_hartReset u h, ?_⟩
  have hvector : legalResetVector State.reset.cfg := by unfold legalResetVector; decide
  have hlegal : legalState State.reset := hartReset_reset ▸ legalState_hartReset State.reset hvector
  obtain ⟨hmem, haligned, htvecs, hmodes, habsent, hmasks, hpmp, hfit⟩ := hlegal
  exact ⟨hmem, haligned, htvecs, hmodes, habsent, hmasks, hpmp, hfit, by unfold mapDisjoint; decide⟩

end Sys2Proof.Machine

/-! PROOFS. What an instruction and a step can do to memory, and the two invariants that follow: the canonical form and the
isolation of bytes outside a granted store. -/

namespace Sys2Proof.Machine

/-! ### The memory an instruction leaves -/

/-- What executing `i` in `s` may leave in memory: the memory of `s`, or that memory after an admitted store to RAM at the
effective address of `i`. -/
inductive MemEffect (i : Instr) (s : State) : Memory → Prop
  | kept : MemEffect i s s.mem
  | stored (sz : MemSize) (rs2 rs1 : Reg) (imm : BitVec 12) (v : Word) (r : Region) (hi : i = storeOf sz rs2 rs1 imm)
      (hc : checkAccess .W (effAddr rs1 imm s) sz.bytes s = .ok r) (hr : r.kind = .ram) :
      MemEffect i s (writeLE s.mem (effAddr rs1 imm s).toNat sz.bytes v)

theorem deviceWrite_mem (d : Device) (off n : Nat) (v : Word) (s : State) : (deviceWrite d off n v s).mem = s.mem := by
  cases d <;> rfl

/-- No region of ROM admits a store (R209). -/
theorem kind_ne_rom_of_checkAccess {ea : Word} {n : Nat} {s : State} {r : Region} (h : checkAccess .W ea n s = .ok r) :
    r.kind ≠ .rom := by
  intro hr
  obtain ⟨-, -, -, -, -, -, hp⟩ := checkAccess_ok h
  rw [hr] at hp
  exact hp rfl

theorem memEffect_of_effect {i : Instr} {s t : State} (h : Effect i s t) : MemEffect i s t.mem := by
  cases h with
  | store sz ea v r hc hi =>
    obtain ⟨rs2, rs1, imm, hi, rfl⟩ := hi
    show MemEffect i s (regionWrite r _ _ v s).mem
    cases hr : r.kind with
    | ram =>
      rw [regionWrite_memory (.inl hr)]
      exact .stored sz rs2 rs1 imm v r hi hc hr
    | rom => exact absurd hr (kind_ne_rom_of_checkAccess hc)
    | dev d =>
      rw [regionWrite_device hr, deviceWrite_mem]
      exact .kept
  | csr a c w rd f => rw [csrComplete_mem]; exact .kept
  | _ => exact .kept

/-- A step leaves memory alone, or executes the instruction it fetches and leaves what that instruction may leave. -/
theorem mem_of_step {s t : State} (h : step s = .next t) :
    t.mem = s.mem ∨ ∃ w i, fetch (awaken s) = .ok w ∧ decodeWord s.cfg.xlen w = .ok i ∧ MemEffect i (awaken s) t.mem := by
  cases effect_of_step h with
  | executed w i u hf hd _ he =>
    rw [passTime_mem]
    exact .inr ⟨w, i, hf, hd, memEffect_of_effect he⟩
  | _ => exact .inl rfl

/-! ### The canonical form (log 5) -/

theorem MemEffect.wf {i : Instr} {s : State} {m : Memory} (h : MemEffect i s m) (hs : Memory.wf s.mem = true) :
    Memory.wf m = true := by
  cases h with
  | kept => exact hs
  | stored => exact writeLE_wf hs _ _ _

/-- Settles O50: memory changes by little-endian writes only, and those keep the canonical form. -/
theorem memoryFormKept : Obligations.MemoryFormKept := by
  intro s t hs h
  obtain hm | ⟨w, i, -, -, hm⟩ := mem_of_step h
  · rw [hm]; exact hs
  · exact hm.wf hs

/-! ### Isolation (R209, R230, R240) -/

/-- A byte that reads differently lies in the store of the instruction. -/
theorem MemEffect.store_of_ne {i : Instr} {s : State} {m : Memory} (h : MemEffect i s m) {a : Nat}
    (ha : memRead m a ≠ memRead s.mem a) :
    ∃ sz rs2 rs1 imm r, i = storeOf sz rs2 rs1 imm ∧ checkAccess .W (effAddr rs1 imm s) sz.bytes s = .ok r ∧
      r.kind = .ram ∧ (effAddr rs1 imm s).toNat ≤ a ∧ a < (effAddr rs1 imm s).toNat + sz.bytes := by
  cases h with
  | kept => exact absurd rfl ha
  | stored sz rs2 rs1 imm v r hi hc hr =>
    have hin := not_imp_comm.mp (fun h => memRead_writeLE_outside s.mem h v) ha
    exact ⟨sz, rs2, rs1, imm, r, hi, hc, hr, hin⟩

theorem storeOf_isStore (sz : MemSize) (rs2 rs1 : Reg) (imm : BitVec 12) :
    (storeOf sz rs2 rs1 imm, sz.bytes) ∈
      [(Instr.sb rs2 rs1 imm, 1), (.sh rs2 rs1 imm, 2), (.sw rs2 rs1 imm, 4), (.sd rs2 rs1 imm, 8)] := by
  cases sz <;> simp [storeOf, MemSize.bytes]

/-- A hart that wakes has the protection it had: the PMP decision does not read the stall. -/
theorem pmpCheck_awaken (addr n : Nat) (t : AccessType) (p : Priv) (s : State) :
    pmpCheck addr n t p (awaken s) = pmpCheck addr n t p s := by
  have hscan : ∀ l, pmpScan addr n t p (awaken s) l = pmpScan addr n t p s l := by
    intro l
    induction l with
    | nil => rfl
    | cons i l ih => rw [pmpScan, pmpScan, ih]; rfl
  exact hscan (pmpImplemented s.cfg)

/-- Settles O58: a byte that changes lies in a store to RAM that passed every check. -/
theorem memoryIsolation : Obligations.MemoryIsolation := by
  intro s t a h ha
  obtain hm | ⟨w, i, hf, hd, hm⟩ := mem_of_step h
  · exact absurd (congrArg (memRead · a) hm) ha
  · obtain ⟨sz, rs2, rs1, imm, r, rfl, hc, hram, hlo, hhi⟩ := hm.store_of_ne ha
    obtain ⟨halign, -, hpmp, hmem, hbase, hend, -⟩ := checkAccess_ok hc
    rw [pmpCheck_awaken] at hpmp
    exact ⟨w, _, rs2, rs1, imm, _, sz.bytes, hf, hd, storeOf_isStore sz rs2 rs1 imm, rfl, halign nofun, hlo, hhi, hpmp, r,
      hmem, hram, hbase, hend⟩

end Sys2Proof.Machine

/-! PROOFS. The PMP decision over the implemented entries, and what an entry matches in each of its modes. -/

namespace Sys2Proof.Machine

/-! ### The decision (R230) -/

/-- The entry that decides grants M-mode what it does not lock, and everyone what its permission bit allows. -/
theorem pmpGrants_iff (b : Byte) (t : AccessType) (p : Priv) :
    pmpGrants b t p = true ↔
      (p = .M ∧ b.getLsbD 7 = false) ∨ b.getLsbD (match t with | .R => 0 | .W => 1 | .X => 2) = true := by
  have hbit : pmpPermits b t = b.getLsbD (match t with | .R => 0 | .W => 1 | .X => 2) := by cases t <;> rfl
  simp only [pmpGrants, hbit, pmpLocked, Bool.or_eq_true, Bool.and_eq_true, beq_iff_eq, Bool.not_eq_true']

/-- Settles O39: the implemented entries are those below `pmpEntries`, scanned in rising order. -/
theorem pmpDecision : Obligations.PmpDecision := by
  intro s addr n t p hn hentries
  have hmem := mem_pmpImplemented s.cfg hentries
  rw [pmpCheck, pmpScan_iff addr n t p s hn _ (pmpImplemented_sorted s.cfg)]
  simp only [hmem, pmpGrants_iff]
  refine or_congr Iff.rfl (exists_congr fun i => and_congr_right fun hi => and_congr_left' ?_)
  exact ⟨fun h j hji => h j (Nat.lt_trans hji hi) hji, fun h j _ hji => h j hji⟩

/-! ### Matching (R221 to R225) -/

section

variable {s : State} {i : Fin 16}

theorem pmpMatches_off (h : s.pmpcfg[i].toNat / 8 % 4 = 0) (y : Nat) : pmpMatches i s y = false := by
  simp only [pmpMatches, pmpMode_toNat, h]

theorem pmpMatches_tor (h : s.pmpcfg[i].toNat / 8 % 4 = 1) (y : Nat) :
    pmpMatches i s y = true ↔ torBottom i s ≤ y ∧ y < torBound i s := by
  simp only [pmpMatches, pmpMode_toNat, h, Bool.and_eq_true, decide_eq_true_eq]

theorem pmpMatches_na4 (h : s.pmpcfg[i].toNat / 8 % 4 = 2) (y : Nat) :
    pmpMatches i s y = true ↔ y / 4 = (pmpAddrValue i s).toNat := by
  simp only [pmpMatches, pmpMode_toNat, h, beq_iff_eq]

theorem pmpMatches_napot (h : s.pmpcfg[i].toNat / 8 % 4 = 3) (y : Nat) :
    pmpMatches i s y = napotMatches (pmpAddrValue i s) y := by
  simp only [pmpMatches, pmpMode_toNat, h]

/-- A TOR bound drops the low G bits of its register (log 21). -/
theorem torBound_eq (i : Fin 16) (s : State) :
    torBound i s = s.pmpaddr[i].toNat / 2 ^ s.cfg.pmpG * 2 ^ s.cfg.pmpG * 4 := by
  rw [torBound, clearLow_toNat]

/-- The bottom of a TOR range is the bound of the preceding entry, if there is one (R223). -/
theorem torBottom_le_iff (i : Fin 16) (s : State) (y : Nat) :
    torBottom i s ≤ y ↔ ∀ j : Fin 16, j.val + 1 = i.val → torBound j s ≤ y := by
  unfold torBottom
  split
  · exact ⟨fun _ j hj => by omega, fun _ => Nat.zero_le y⟩
  · constructor
    · intro h j hj
      have hpred : ⟨i.val - 1, by omega⟩ = j := Fin.ext (Nat.sub_eq_of_eq_add hj.symm)
      exact hpred ▸ h
    · exact fun h => h _ (by simp only; omega)

/-- The address register as NA4 and NAPOT matching read it (R154): under a granularity of 2 or more its low bits are ones. -/
theorem pmpAddrValue_toNat (h : 2 ≤ s.pmpcfg[i].toNat / 8 % 4) (hg : s.cfg.pmpG < 54) :
    (pmpAddrValue i s).toNat =
      if 2 ≤ s.cfg.pmpG then
        s.pmpaddr[i].toNat / 2 ^ (s.cfg.pmpG - 1) * 2 ^ (s.cfg.pmpG - 1) + (2 ^ (s.cfg.pmpG - 1) - 1)
      else s.pmpaddr[i].toNat := by
  rw [pmpAddrValue, pmpMode_napot_or_na4, if_pos (decide_eq_true h)]
  split
  · exact setLow_toNat _ _ (by omega)
  · rfl

/-- Setting the low bits of an address register keeps it within its 54 bits. -/
theorem pmpAddrValue_lt (h : 2 ≤ s.pmpcfg[i].toNat / 8 % 4) (hg : s.cfg.pmpG < 54) (ha : s.pmpaddr[i].toNat < 2 ^ 54) :
    (pmpAddrValue i s).toNat < 2 ^ 54 := by
  rw [pmpAddrValue_toNat h hg]
  split
  · have hpos := Nat.two_pow_pos (s.cfg.pmpG - 1)
    have hdvd : 2 ^ (s.cfg.pmpG - 1) ∣ 2 ^ 54 := Nat.pow_dvd_pow 2 (by omega)
    obtain ⟨k, hk⟩ := hdvd
    have hq : s.pmpaddr[i].toNat / 2 ^ (s.cfg.pmpG - 1) < k := Nat.div_lt_of_lt_mul (hk ▸ ha)
    have hle := Nat.mul_le_mul_right (2 ^ (s.cfg.pmpG - 1)) (Nat.succ_le_of_lt hq)
    rw [Nat.succ_mul, mul_comm k, ← hk] at hle
    omega
  · exact ha

end

/-- Settles O40, mode by mode. -/
theorem pmpMatching : Obligations.PmpMatching := by
  rintro s i y mode a g rfl rfl rfl
  refine ⟨fun hoff => pmpMatches_off hoff y, fun htor => ?_, fun hna4 hg => ?_, fun hnapot ha hg hy t v hv ht => ?_⟩
  · rw [pmpMatches_tor htor, torBottom_le_iff]
    simp only [torBound_eq]
  · rw [pmpMatches_na4 hna4, pmpAddrValue_toNat hna4.ge (by omega), if_neg (by omega)]
    omega
  · rw [← pmpAddrValue_toNat (by omega) hg] at hv
    subst hv
    rw [pmpMatches_napot hnapot]
    exact napotMatches_iff _ t y (pmpAddrValue_lt (by omega) hg ha) ht hy

end Sys2Proof.Machine

/-! PROOFS. The checks on one access, in their order, and loads and stores of the device registers. -/

namespace Sys2Proof.Machine

/-! ### The checks (R240) -/

/-- Loads and stores run at MPP under MPRV, fetches never do (R236). -/
theorem effPriv_eq (t : AccessType) (s : State) :
    effPriv t s = if t ≠ .X ∧ s.mstatus.mprv = true then s.mstatus.mpp else s.priv := by
  cases t <;> simp [effPriv]

section

variable {t : AccessType} {ea : Word} {n : Nat} {s : State}

theorem checkAccess_misaligned (ht : t ≠ .X) (h : ea.toNat % n ≠ 0) :
    checkAccess t ea n s = .error { exc := misalignedExc t, tval := ea } := if_pos ⟨ht, h⟩

/-- Past the alignment check an access fails by its address, by PMP or by the memory map, with one exception: an admitted
access has passed all three. -/
theorem checkAccess_fault (ha : t = .X ∨ ea.toNat % n = 0)
    (h : 2 ^ s.cfg.palen ≤ ea.toNat ∨ pmpCheck ea.toNat n t (effPriv t s) s = false ∨
      ∀ r ∈ s.cfg.memMap, ¬ regionServes r t ea.toNat n) :
    checkAccess t ea n s = .error { exc := accessFaultExc t, tval := ea } := by
  cases hc : checkAccess t ea n s with
  | ok r =>
    obtain ⟨-, hlt, hpmp, hr, hserves⟩ := checkAccess_ok hc
    obtain h | h | h := h
    · exact absurd hlt (Nat.not_lt.mpr h)
    · exact absurd (hpmp.symm.trans h) nofun
    · exact absurd hserves (h r hr)
  | error e =>
    obtain rfl | ⟨ht, hmis, -⟩ := checkAccess_error hc
    · rfl
    · exact absurd ha (not_or_intro ht hmis)

theorem checkAccess_admit {r : Region} (ha : t = .X ∨ ea.toNat % n = 0) (hlt : ea.toNat < 2 ^ s.cfg.palen)
    (hpmp : pmpCheck ea.toNat n t (effPriv t s) s = true) (hr : findRegion t ea.toNat n s = some r) :
    checkAccess t ea n s = .ok r := by
  rw [checkAccess, if_neg (fun h => ha.elim h.1 h.2), if_neg (Nat.not_le.mpr hlt), if_neg (by rw [hpmp]; nofun), hr]

end

/-- Settles O26: the checks one after the other; with disjoint regions the one that serves an access is the one found. -/
theorem accessChecks : Obligations.AccessChecks := by
  rintro s t ea n p hmap hn rfl
  rw [← effPriv_eq]
  refine ⟨checkAccess_misaligned, fun ha => ⟨checkAccess_fault ha, fun r hr hlt hpmp hserves => ?_⟩⟩
  exact checkAccess_admit ha hlt hpmp (findRegion_of_serves hmap hn hr hserves)

/-! ### What a device accepts (R210, log 10) -/

theorem deviceAccepts_of_checkAccess {t : AccessType} {ea : Word} {n : Nat} {s : State} {r : Region} {d : Device}
    (hd : r.kind = .dev d) (h : checkAccess t ea n s = .ok r) : deviceAccepts d (ea.toNat - r.base) n = true := by
  obtain ⟨-, -, -, -, hserves⟩ := checkAccess_ok h
  obtain ⟨-, hp⟩ := (regionServes_iff _ _ _ _).mp hserves
  rw [regionPermits, hd] at hp
  exact (Bool.and_eq_true_iff.mp hp).2

/-- A word at offset 0, and, of the 64-bit registers, the upper word and the doubleword. -/
theorem deviceAccepts_cases {d : Device} {off n : Nat} (h : deviceAccepts d off n = true) :
    n = 4 ∧ off = 0 ∨ d ≠ .msip ∧ (n = 4 ∧ off = 4 ∨ n = 8 ∧ off = 0) := by
  cases d with
  | msip => exact .inl (by simpa [deviceAccepts] using h)
  | _ =>
    simp [deviceAccepts] at h ⊢
    omega

theorem deviceAccepts_dword {d : Device} {off : Nat} (h : deviceAccepts d off 8 = true) : off = 0 := by
  obtain ⟨h4, -⟩ | ⟨-, ⟨h4, -⟩ | ⟨-, hoff⟩⟩ := deviceAccepts_cases h
  · cases h4
  · cases h4
  · exact hoff

/-! ### The 64-bit registers, by halves and whole -/

theorem readReg64_toNat {off n : Nat} (h : n = 4 ∧ off = 0 ∨ n = 4 ∧ off = 4 ∨ n = 8 ∧ off = 0) (v : BitVec 64) :
    (readReg64 v off n).toNat = v.toNat / 256 ^ off % 256 ^ n := by
  have hv := v.isLt
  obtain ⟨rfl, rfl⟩ | ⟨rfl, rfl⟩ | ⟨rfl, rfl⟩ := h
  · rw [show readReg64 v 0 4 = (v.extractLsb' 0 32).setWidth 64 from rfl, BitVec.toNat_setWidth, BitVec.extractLsb'_toNat]
    norm_num
    omega
  · rw [show readReg64 v 4 4 = (v.extractLsb' 32 32).setWidth 64 from rfl, BitVec.toNat_setWidth,
      BitVec.extractLsb'_toNat, Nat.shiftRight_eq_div_pow]
    norm_num
    omega
  · rw [show readReg64 v 0 8 = v from rfl]
    norm_num
    omega

theorem writeReg64_eq {off n : Nat} (h : n = 4 ∧ off = 0 ∨ n = 4 ∧ off = 4 ∨ n = 8 ∧ off = 0) (old : BitVec 64)
    (v : Word) : writeReg64 old off n v = BitVec.ofNat 64 (patched old.toNat off n v.toNat) := by
  have hold := old.isLt
  obtain ⟨rfl, rfl⟩ | ⟨rfl, rfl⟩ | ⟨rfl, rfl⟩ := h
  · apply BitVec.eq_of_toNat_eq
    rw [show writeReg64 old 0 4 v = old.extractLsb' 32 32 ++ v.extractLsb' 0 32 from rfl, halves_toNat,
      BitVec.extractLsb'_toNat, BitVec.extractLsb'_toNat, BitVec.toNat_ofNat, Nat.shiftRight_eq_div_pow]
    norm_num [patched]
    omega
  · exact setCounterHigh_eq .rv64 old v
  · exact setCounterLow_eq .rv64 old v

/-! ### The device registers as numbers -/

theorem deviceValue_lt (d : Device) (s : State) : deviceValue d s < 256 ^ 8 := by
  cases d with
  | mtime => exact s.mtime.isLt
  | mtimecmp => exact s.mtimecmp.isLt
  | msip => cases hm : s.msip <;> simp [deviceValue, hm]

/-- A read that the device accepts answers the bytes at its offset. -/
theorem deviceRead_toNat {d : Device} {off n : Nat} (h : deviceAccepts d off n = true) (s : State) :
    (deviceRead d off n s).toNat = deviceValue d s / 256 ^ off % 256 ^ n := by
  have hcases := deviceAccepts_cases h
  cases d with
  | mtime => exact readReg64_toNat (hcases.imp_right And.right) s.mtime
  | mtimecmp => exact readReg64_toNat (hcases.imp_right And.right) s.mtimecmp
  | msip =>
    obtain ⟨rfl, rfl⟩ | ⟨hd, -⟩ := hcases
    · cases hm : s.msip <;> simp [deviceRead, deviceValue, bitAt, hm]
    · exact absurd rfl hd

theorem deviceRead_word {d : Device} {off : Nat} (h : deviceAccepts d off 4 = true) (s : State) :
    (deviceRead d off 4 s).toNat = deviceValue d s / 256 ^ off % 2 ^ 32 := by
  rw [deviceRead_toNat h]
  norm_num

theorem deviceRead_dword {d : Device} {off : Nat} (h : deviceAccepts d off 8 = true) (s : State) :
    (deviceRead d off 8 s).toNat = deviceValue d s := by
  rw [deviceRead_toNat h, deviceAccepts_dword h, pow_zero, Nat.div_one, Nat.mod_eq_of_lt (deviceValue_lt d s)]

/-- A write that the device accepts replaces the bytes at its offset, and nothing of another register. -/
theorem deviceWrite_eq {d : Device} {off n : Nat} (h : deviceAccepts d off n = true) (v : Word) (s : State) :
    deviceWrite d off n v s =
      { s with
        mtime := if d = .mtime then BitVec.ofNat 64 (patched s.mtime.toNat off n v.toNat) else s.mtime
        mtimecmp := if d = .mtimecmp then BitVec.ofNat 64 (patched s.mtimecmp.toNat off n v.toNat) else s.mtimecmp
        msip := if d = .msip then v.toNat.testBit 0 else s.msip } := by
  have hcases := (deviceAccepts_cases h).imp_right And.right
  cases d with
  | msip => rfl
  | _ => rw [deviceWrite, writeReg64_eq hcases]; rfl

/-! ### Loads and stores -/

/-- A sign-extended word, on XLEN bits. -/
theorem truncX_sext32 (xl : Xlen) (v : Word) : (truncX xl (sext32 v)).toNat = wrapX xl (signed32 v.toNat) :=
  truncX_eq_wrapX xl _ _ (sext32_eq v)

theorem signed32_mod (n : Nat) : signed32 ((n % 2 ^ 32 : Nat) : Int) = signed32 n := by
  rw [signed32, signed32, Int.natCast_mod]
  exact Int.emod_bmod n (2 ^ 32)

section

variable {i : Instr} {sz : MemSize} {rs1 : Reg} {imm : BitVec 12} {s : State} {r : Region} {d : Device}

theorem writesReg_of_deviceLoad {ext : Word → Word} {rd : Reg} {m : Nat} (hi : exec i s = loadInstr sz ext rd rs1 imm s)
    (hd : r.kind = .dev d) (hc : checkAccess .R (effAddr rs1 imm s) sz.bytes s = .ok r)
    (hv : (truncX s.cfg.xlen (ext (deviceRead d ((effAddr rs1 imm s).toNat - r.base) sz.bytes s))).toNat = m) :
    writesReg i rd m s := by
  rw [loadInstr_ok hc, regionRead_device hd] at hi
  exact writesReg_of_finishRd hi hv

theorem storesDevice_of_storeInstr {rs2 : Reg} (hi : exec i s = storeInstr sz rs2 rs1 imm s) (hd : r.kind = .dev d)
    (hc : checkAccess .W (effAddr rs1 imm s) sz.bytes s = .ok r) :
    storesDevice i d ((effAddr rs1 imm s).toNat - r.base) sz.bytes (ux rs2 s) s := by
  rw [storeInstr_ok hc, regionWrite_device hd, deviceWrite_eq (deviceAccepts_of_checkAccess hd hc)] at hi
  exact ⟨_, hi, fun _ => rfl, advancePc_movedOn s, rfl, fun _ => rfl, rfl⟩

end

/-- Settles O25: an admitted access is one the device accepts, and reads or replaces the bytes at its offset. -/
theorem deviceAccesses : Obligations.DeviceAccesses := by
  rintro s rd rs1 rs2 imm r d ea off rfl hd rfl
  refine ⟨fun hc => ?_, fun hc hx => ?_, storesDevice_of_storeInstr (sz := .word) rfl hd, fun hc hx => ?_⟩
  · have hread := deviceRead_word (deviceAccepts_of_checkAccess hd hc) s
    refine ⟨writesReg_of_deviceLoad (sz := .word) rfl hd hc ?_,
      fun hx => writesReg_of_deviceLoad (sz := .word) (if_pos hx) hd hc ?_⟩
    · rw [truncX_sext32, MemSize.bytes, hread, signed32_mod]
      norm_cast
    · rw [hx, truncX, id, MemSize.bytes, hread]
  · have hread := deviceRead_dword (deviceAccepts_of_checkAccess hd hc) s
    refine writesReg_of_deviceLoad (sz := .dword) (if_pos hx) hd hc ?_
    rw [hx, truncX, id, MemSize.bytes, hread]
  · rw [← deviceAccepts_dword (deviceAccepts_of_checkAccess hd hc)]
    exact storesDevice_of_storeInstr (sz := .dword) (if_pos hx) hd hc

end Sys2Proof.Machine

/-! PROOFS. The encoding: decoding and encoding undo each other, the table of R293 leaves no choice, and a word or term that
it has no row for raises IllegalInstruction. -/

namespace Sys2Proof

open Machine

/-! ### Decoding an encoded instruction -/

/-- Every instruction has its row: the round trip of its constructor. -/
theorem decodeWord_encode {xl : Xlen} {i : Instr} (h : i.wellFormed xl = true) : decodeWord xl (encode i) = .ok i := by
  cases i with
  | csrrw rd csr rs1 => exact Laws.RoundTrip.csrrw _ _ _ xl h
  | csrrs rd csr rs1 => exact Laws.RoundTrip.csrrs _ _ _ xl h
  | csrrc rd csr rs1 => exact Laws.RoundTrip.csrrc _ _ _ xl h
  | csrrwi rd csr uimm => exact Laws.RoundTrip.csrrwi _ _ _ xl h
  | csrrsi rd csr uimm => exact Laws.RoundTrip.csrrsi _ _ _ xl h
  | csrrci rd csr uimm => exact Laws.RoundTrip.csrrci _ _ _ xl h
  | ecall => exact Laws.RoundTrip.ecall xl h
  | ebreak => exact Laws.RoundTrip.ebreak xl h
  | mret => exact Laws.RoundTrip.mret xl h
  | sret => exact Laws.RoundTrip.sret xl h
  | uret => exact Laws.RoundTrip.uret xl h
  | wfi => exact Laws.RoundTrip.wfi xl h
  | sfenceVma rs1 rs2 => exact Laws.RoundTrip.sfenceVma _ _ xl h
  | lui rd imm => exact Laws.RoundTrip.lui _ _ xl h
  | auipc rd imm => exact Laws.RoundTrip.auipc _ _ xl h
  | jal rd imm => exact Laws.RoundTrip.jal _ _ xl h
  | jalr rd rs1 imm => exact Laws.RoundTrip.jalr _ _ _ xl h
  | beq rs1 rs2 imm => exact Laws.RoundTrip.beq _ _ _ xl h
  | bne rs1 rs2 imm => exact Laws.RoundTrip.bne _ _ _ xl h
  | blt rs1 rs2 imm => exact Laws.RoundTrip.blt _ _ _ xl h
  | bge rs1 rs2 imm => exact Laws.RoundTrip.bge _ _ _ xl h
  | bltu rs1 rs2 imm => exact Laws.RoundTrip.bltu _ _ _ xl h
  | bgeu rs1 rs2 imm => exact Laws.RoundTrip.bgeu _ _ _ xl h
  | lb rd rs1 imm => exact Laws.RoundTrip.lb _ _ _ xl h
  | lh rd rs1 imm => exact Laws.RoundTrip.lh _ _ _ xl h
  | lw rd rs1 imm => exact Laws.RoundTrip.lw _ _ _ xl h
  | lbu rd rs1 imm => exact Laws.RoundTrip.lbu _ _ _ xl h
  | lhu rd rs1 imm => exact Laws.RoundTrip.lhu _ _ _ xl h
  | sb rs2 rs1 imm => exact Laws.RoundTrip.sb _ _ _ xl h
  | sh rs2 rs1 imm => exact Laws.RoundTrip.sh _ _ _ xl h
  | sw rs2 rs1 imm => exact Laws.RoundTrip.sw _ _ _ xl h
  | addi rd rs1 imm => exact Laws.RoundTrip.addi _ _ _ xl h
  | slti rd rs1 imm => exact Laws.RoundTrip.slti _ _ _ xl h
  | sltiu rd rs1 imm => exact Laws.RoundTrip.sltiu _ _ _ xl h
  | xori rd rs1 imm => exact Laws.RoundTrip.xori _ _ _ xl h
  | ori rd rs1 imm => exact Laws.RoundTrip.ori _ _ _ xl h
  | andi rd rs1 imm => exact Laws.RoundTrip.andi _ _ _ xl h
  | slli rd rs1 shamt => exact Laws.RoundTrip.slli _ _ _ xl h
  | srli rd rs1 shamt => exact Laws.RoundTrip.srli _ _ _ xl h
  | srai rd rs1 shamt => exact Laws.RoundTrip.srai _ _ _ xl h
  | add rd rs1 rs2 => exact Laws.RoundTrip.add _ _ _ xl h
  | sub rd rs1 rs2 => exact Laws.RoundTrip.sub _ _ _ xl h
  | sll rd rs1 rs2 => exact Laws.RoundTrip.sll _ _ _ xl h
  | slt rd rs1 rs2 => exact Laws.RoundTrip.slt _ _ _ xl h
  | sltu rd rs1 rs2 => exact Laws.RoundTrip.sltu _ _ _ xl h
  | xor rd rs1 rs2 => exact Laws.RoundTrip.xor _ _ _ xl h
  | srl rd rs1 rs2 => exact Laws.RoundTrip.srl _ _ _ xl h
  | sra rd rs1 rs2 => exact Laws.RoundTrip.sra _ _ _ xl h
  | or rd rs1 rs2 => exact Laws.RoundTrip.or _ _ _ xl h
  | and rd rs1 rs2 => exact Laws.RoundTrip.and _ _ _ xl h
  | fence rd rs1 fm pred succ => exact Laws.RoundTrip.fence _ _ _ _ _ xl h
  | fenceI rd rs1 imm => exact Laws.RoundTrip.fenceI _ _ _ xl h
  | lwu rd rs1 imm => exact Laws.RoundTrip.lwu _ _ _ xl h
  | ld rd rs1 imm => exact Laws.RoundTrip.ld _ _ _ xl h
  | sd rs2 rs1 imm => exact Laws.RoundTrip.sd _ _ _ xl h
  | addiw rd rs1 imm => exact Laws.RoundTrip.addiw _ _ _ xl h
  | slliw rd rs1 shamt => exact Laws.RoundTrip.slliw _ _ _ xl h
  | srliw rd rs1 shamt => exact Laws.RoundTrip.srliw _ _ _ xl h
  | sraiw rd rs1 shamt => exact Laws.RoundTrip.sraiw _ _ _ xl h
  | addw rd rs1 rs2 => exact Laws.RoundTrip.addw _ _ _ xl h
  | subw rd rs1 rs2 => exact Laws.RoundTrip.subw _ _ _ xl h
  | sllw rd rs1 rs2 => exact Laws.RoundTrip.sllw _ _ _ xl h
  | srlw rd rs1 rs2 => exact Laws.RoundTrip.srlw _ _ _ xl h
  | sraw rd rs1 rs2 => exact Laws.RoundTrip.sraw _ _ _ xl h

/-- The bytes of a word are decoded as the word is, and the bytes after them are given back. -/
theorem decodeBytes_bytesOfWord {xl : Xlen} {w : InstWord} {i : Instr} (h : decodeWord xl w = .ok i) (rest : List Byte) :
    decodeBytes xl (bytesOfWord w ++ rest) = .ok (i, rest) := by
  simp only [bytesOfWord, List.cons_append, List.nil_append, decodeBytes, wordOfBytes_bytesOfWord, h]

/-- Settles O1: each constructor has its row in the table, and four bytes in memory order give their word back. -/
theorem decodeOfEncode : Obligations.DecodeOfEncode :=
  fun _ _ rest h => ⟨decodeWord_encode h, decodeBytes_bytesOfWord (decodeWord_encode h) rest⟩

/-! ### Encoding a decoded word -/

/-- A row loses nothing: whatever word it fits is the word of the instruction it builds, which exists on the width. -/
def Row.Exact (r : Row) : Prop :=
  ∀ xl w, r.available xl = true → r.fits xl w = true → encode (r.build w) = w ∧ (r.build w).wellFormed xl = true

/-- Two words are equal when they agree on the bits that a mask fixes and on the bits that it leaves free. -/
theorem eq_of_and_or_eq {e w mask : InstWord} (hfix : e &&& mask = w &&& mask) (hfree : e ||| mask = w ||| mask) : e = w := by
  apply BitVec.eq_of_getLsbD_eq
  intro k _
  have hk := congrArg (BitVec.getLsbD · k) hfix
  have hk' := congrArg (BitVec.getLsbD · k) hfree
  simp only [BitVec.getLsbD_and, BitVec.getLsbD_or] at hk hk'
  cases hm : mask.getLsbD k
  · simpa [hm] using hk'
  · simpa [hm] using hk

/-- What the mask of MXLEN = 32 fixes, that of MXLEN = 64 fixes too, but for the top bit of the shift amount (R283). -/
theorem and_mask64_of_mask32 {w pattern : InstWord} (h : w &&& 0xfe00707f = pattern)
    (hp : pattern &&& 0xfc00707f = pattern) : w &&& 0xfc00707f = pattern := by
  rw [← hp, ← h, BitVec.and_assoc]
  rfl

theorem fShamt_lt_of_mask32 {w pattern : InstWord} (h : w &&& 0xfe00707f = pattern)
    (hp : pattern.getLsbD 25 = false) : (fShamt w).toNat < 32 := by
  have htop : (fShamt w).msb = false := by simpa [fShamt, BitVec.msb_eq_getLsbD_last, ← h] using hp
  have := BitVec.msb_eq_false_iff_two_mul_lt.mp htop
  omega

section

variable {pattern mask : InstWord} {build : InstWord → Instr}

/-- For a row with one mask: the word encoded from the instruction that it builds has the row's pattern under the mask, and
the free bits of the word that it was built from. -/
theorem Row.exact_row (hfix : ∀ w, encode (build w) &&& mask = pattern)
    (hfree : ∀ w, encode (build w) ||| mask = w ||| mask) (hwf : ∀ xl w, (build w).wellFormed xl = true) :
    (row pattern mask build).Exact := by
  intro xl w _ hf
  have hw : w &&& mask = pattern := by cases xl <;> exact beq_iff_eq.mp hf
  exact ⟨eq_of_and_or_eq ((hfix w).trans hw.symm) (hfree w), hwf xl w⟩

theorem Row.exact_row64 (hfix : ∀ w, encode (build w) &&& mask = pattern)
    (hfree : ∀ w, encode (build w) ||| mask = w ||| mask) (hwf : ∀ w, (build w).wellFormed .rv64 = true) :
    (row64 pattern mask build).Exact := by
  intro xl w ha hf
  cases xl with
  | rv32 => cases ha
  | rv64 => exact ⟨eq_of_and_or_eq ((hfix w).trans (beq_iff_eq.mp hf).symm) (hfree w), hwf w⟩

/-- A shift row on MXLEN = 32 also requires the top bit of the shift amount to be 0 (R283). -/
theorem Row.exact_rowShift (hp : pattern &&& 0xfc00707f = pattern) (hp25 : pattern.getLsbD 25 = false)
    (hfix : ∀ w, encode (build w) &&& 0xfc00707f = pattern)
    (hfree : ∀ w, encode (build w) ||| 0xfc00707f = w ||| 0xfc00707f)
    (hwf : ∀ xl w, xl = .rv64 ∨ (fShamt w).toNat < 32 → (build w).wellFormed xl = true) :
    (rowShift pattern build).Exact := by
  intro xl w _ hf
  have hw : w &&& 0xfc00707f = pattern ∧ (xl = .rv64 ∨ (fShamt w).toNat < 32) := by
    cases xl with
    | rv64 => exact ⟨beq_iff_eq.mp hf, .inl rfl⟩
    | rv32 =>
      have h32 : w &&& 0xfe00707f = pattern := beq_iff_eq.mp hf
      exact ⟨and_mask64_of_mask32 h32 hp, .inr (fShamt_lt_of_mask32 h32 hp25)⟩
  exact ⟨eq_of_and_or_eq ((hfix w).trans hw.1.symm) (hfree w), hwf xl w hw.2⟩

end

/-! ### A word encoded from the operand fields of `w` has the bits of `w` that the mask of the format leaves free -/

theorem encI_or_mask (w : InstWord) (f3 : BitVec 3) (op : BitVec 7) :
    encI (fImmI w) (fRs1 w) f3 (fRd w) op ||| 0x0000707f = w ||| 0x0000707f := by
  apply BitVec.eq_of_getLsbD_eq
  intro k hk
  simp only [encI, fImmI, fRs1, fRd, BitVec.getLsbD_or, BitVec.getLsbD_append, BitVec.getLsbD_extractLsb']
  interval_cases k <;> simp

/-- The immediate of FENCE is its three fields (R290). -/
theorem fence_fields_eq_fImmI (w : InstWord) : fFm w ++ fPred w ++ fSucc w = fImmI w := by
  rw [fFm, fPred, fSucc, fImmI, BitVec.extractLsb'_append_extractLsb'_eq_extractLsb' (by rfl),
    BitVec.extractLsb'_append_extractLsb'_eq_extractLsb' (by rfl)]

theorem encR_or_mask (w : InstWord) (f7 : BitVec 7) (f3 : BitVec 3) (op : BitVec 7) :
    encR f7 (fRs2 w) (fRs1 w) f3 (fRd w) op ||| 0xfe00707f = w ||| 0xfe00707f := by
  apply BitVec.eq_of_getLsbD_eq
  intro k hk
  simp only [encR, fRs2, fRs1, fRd, BitVec.getLsbD_or, BitVec.getLsbD_append, BitVec.getLsbD_extractLsb']
  interval_cases k <;> simp

/-- As `encR_or_mask`, where the mask fixes `rd` too (SFENCE.VMA). -/
theorem encR_or_mask1 (w : InstWord) (f7 : BitVec 7) (f3 : BitVec 3) (rd : Reg) (op : BitVec 7) :
    encR f7 (fRs2 w) (fRs1 w) f3 rd op ||| 0xfe007fff = w ||| 0xfe007fff := by
  apply BitVec.eq_of_getLsbD_eq
  intro k hk
  simp only [encR, fRs2, fRs1, BitVec.getLsbD_or, BitVec.getLsbD_append, BitVec.getLsbD_extractLsb']
  interval_cases k <;> simp

theorem encS_or_mask (w : InstWord) (f3 : BitVec 3) (op : BitVec 7) :
    encS (fImmS w) (fRs2 w) (fRs1 w) f3 op ||| 0x0000707f = w ||| 0x0000707f := by
  apply BitVec.eq_of_getLsbD_eq
  intro k hk
  simp only [encS, fImmS, fRs2, fRs1, BitVec.getLsbD_or, BitVec.getLsbD_append, BitVec.getLsbD_extractLsb']
  interval_cases k <;> simp

theorem encB_or_mask (w : InstWord) (f3 : BitVec 3) (op : BitVec 7) :
    encB (fImmB w) (fRs2 w) (fRs1 w) f3 op ||| 0x0000707f = w ||| 0x0000707f := by
  apply BitVec.eq_of_getLsbD_eq
  intro k hk
  simp only [encB, fImmB, fRs2, fRs1, BitVec.getLsbD_or, BitVec.getLsbD_append, BitVec.getLsbD_extractLsb']
  interval_cases k <;> simp

theorem encU_or_mask (w : InstWord) (op : BitVec 7) :
    encU (fImmU w) (fRd w) op ||| 0x0000007f = w ||| 0x0000007f := by
  apply BitVec.eq_of_getLsbD_eq
  intro k hk
  simp only [encU, fImmU, fRd, BitVec.getLsbD_or, BitVec.getLsbD_append, BitVec.getLsbD_extractLsb']
  interval_cases k <;> simp

theorem encJ_or_mask (w : InstWord) (op : BitVec 7) :
    encJ (fImmJ w) (fRd w) op ||| 0x0000007f = w ||| 0x0000007f := by
  apply BitVec.eq_of_getLsbD_eq
  intro k hk
  simp only [encJ, fImmJ, fRd, BitVec.getLsbD_or, BitVec.getLsbD_append, BitVec.getLsbD_extractLsb']
  interval_cases k <;> simp

theorem encShift_or_mask (w : InstWord) (f6 : BitVec 6) (f3 : BitVec 3) (op : BitVec 7) :
    encShift f6 (fShamt w) (fRs1 w) f3 (fRd w) op ||| 0xfc00707f = w ||| 0xfc00707f := by
  apply BitVec.eq_of_getLsbD_eq
  intro k hk
  simp only [encShift, fShamt, fRs1, fRd, BitVec.getLsbD_or, BitVec.getLsbD_append, BitVec.getLsbD_extractLsb']
  interval_cases k <;> simp

/-! ### Every row is exact -/

theorem rowsSystem_exact : ∀ r ∈ rowsSystem, r.Exact := by
  simp only [rowsSystem, List.forall_mem_cons]
  and_intros
  iterate 6 exact Row.exact_row (fun _ => encI_mask _ _ _ _ _) (fun w => encI_or_mask w _ _) (fun _ _ => rfl)
  iterate 6 exact Row.exact_row (fun _ => rfl) (fun _ => BitVec.or_allOnes.trans BitVec.or_allOnes.symm) (fun _ _ => rfl)
  · exact Row.exact_row (fun _ => encR_mask1 _ _ _ _ _ _) (fun w => encR_or_mask1 w _ _ _ _) (fun _ _ => rfl)
  · exact List.forall_mem_nil _

theorem rowsControl_exact : ∀ r ∈ rowsControl, r.Exact := by
  simp only [rowsControl, List.forall_mem_cons]
  and_intros
  iterate 2 exact Row.exact_row (fun _ => encU_mask _ _ _) (fun w => encU_or_mask w _) (fun _ _ => rfl)
  · exact Row.exact_row (fun _ => encJ_mask _ _ _) (fun w => encJ_or_mask w _) (fun _ _ => rfl)
  · exact Row.exact_row (fun _ => encI_mask _ _ _ _ _) (fun w => encI_or_mask w _ _) (fun _ _ => rfl)
  iterate 6 exact Row.exact_row (fun _ => encB_mask _ _ _ _ _) (fun w => encB_or_mask w _ _) (fun _ _ => rfl)
  · exact List.forall_mem_nil _

theorem rowsMemory_exact : ∀ r ∈ rowsMemory, r.Exact := by
  simp only [rowsMemory, List.forall_mem_cons]
  and_intros
  iterate 5 exact Row.exact_row (fun _ => encI_mask _ _ _ _ _) (fun w => encI_or_mask w _ _) (fun _ _ => rfl)
  iterate 3 exact Row.exact_row (fun _ => encS_mask _ _ _ _ _) (fun w => encS_or_mask w _ _) (fun _ _ => rfl)
  · exact List.forall_mem_nil _

theorem rowsImm_exact : ∀ r ∈ rowsImm, r.Exact := by
  simp only [rowsImm, List.forall_mem_cons]
  and_intros
  iterate 6 exact Row.exact_row (fun _ => encI_mask _ _ _ _ _) (fun w => encI_or_mask w _ _) (fun _ _ => rfl)
  iterate 3
    exact Row.exact_rowShift rfl rfl (fun _ => encShift_mask _ _ _ _ _ _) (fun w => encShift_or_mask w _ _ _)
      (fun _ _ h => by simpa [Instr.wellFormed, Instr.rv64Only, Instr.shamtFits] using h)
  · exact List.forall_mem_nil _

theorem rowsReg_exact : ∀ r ∈ rowsReg, r.Exact := by
  simp only [rowsReg, List.forall_mem_cons]
  and_intros
  iterate 10 exact Row.exact_row (fun _ => encR_mask _ _ _ _ _ _) (fun w => encR_or_mask w _ _ _) (fun _ _ => rfl)
  · exact List.forall_mem_nil _

theorem rowsFence_exact : ∀ r ∈ rowsFence, r.Exact := by
  simp only [rowsFence, List.forall_mem_cons]
  and_intros
  · refine Row.exact_row (fun _ => encI_mask _ _ _ _ _) (fun w => ?_) (fun _ _ => rfl)
    rw [encode, fence_fields_eq_fImmI, encI_or_mask]
  · exact Row.exact_row (fun _ => encI_mask _ _ _ _ _) (fun w => encI_or_mask w _ _) (fun _ _ => rfl)
  · exact List.forall_mem_nil _

theorem rowsRv64_exact : ∀ r ∈ rowsRv64, r.Exact := by
  simp only [rowsRv64, List.forall_mem_cons]
  and_intros
  iterate 2 exact Row.exact_row64 (fun _ => encI_mask _ _ _ _ _) (fun w => encI_or_mask w _ _) (fun _ => rfl)
  · exact Row.exact_row64 (fun _ => encS_mask _ _ _ _ _) (fun w => encS_or_mask w _ _) (fun _ => rfl)
  · exact Row.exact_row64 (fun _ => encI_mask _ _ _ _ _) (fun w => encI_or_mask w _ _) (fun _ => rfl)
  iterate 8 exact Row.exact_row64 (fun _ => encR_mask _ _ _ _ _ _) (fun w => encR_or_mask w _ _ _) (fun _ => rfl)
  · exact List.forall_mem_nil _

theorem rows_exact : ∀ r ∈ rows, r.Exact := by
  simp only [rows, List.forall_mem_append]
  exact ⟨⟨⟨⟨⟨⟨rowsSystem_exact, rowsControl_exact⟩, rowsMemory_exact⟩, rowsImm_exact⟩, rowsReg_exact⟩, rowsFence_exact⟩,
    rowsRv64_exact⟩

/-- Settles O2: the word fits the row that decoded it, and every row is exact. -/
theorem encodeOfDecode : Obligations.EncodeOfDecode := by
  intro xl w i h
  obtain ⟨r, hr, havail, hfits, rfl⟩ := decodeWord_ok_inv h
  exact rows_exact r hr xl w havail hfits

/-! ### Words that no row fits -/

/-- A word that no available row fits raises IllegalInstruction with itself as trap value (R287, R288). -/
theorem execWord_of_no_row {w : InstWord} {s : State}
    (h : ∀ r ∈ rows, r.available s.cfg.xlen = true → r.fits s.cfg.xlen w = false) :
    execWord w s = .next (takeException { exc := .illegalInstruction, tval := w.setWidth 64 } s) := by
  obtain ⟨e, he⟩ := decodeWord_error_iff.mpr h
  rw [execWord, he]
  rfl

/-- Settles O3: two rows of the table differ in a bit that both fix, and the decoder takes the first row that fits. -/
theorem decodeUniqueRow : Obligations.DecodeUniqueRow := by
  intro xl w
  refine ⟨fun r => decodeWord_of_fits, rows_clash.imp ?_, ?_⟩
  · rintro r q hclash ⟨-, hr, -, hq⟩
    exact Row.not_fits_both hclash xl w hr hq
  · rintro h s rfl
    exact execWord_of_no_row h

/-- A row fixes the major opcode of the words it fits, as one that this hart decodes; one of OP-IMM-32 or OP-32 exists on
MXLEN = 64 only (R284). -/
theorem rows_majorOpcode :
    ∀ r ∈ rows, r.mask32.extractLsb' 0 7 = 0x7F ∧ r.mask64.extractLsb' 0 7 = 0x7F ∧
      r.pattern.toNat % 128 ∈ [0x03, 0x0F, 0x13, 0x17, 0x1B, 0x23, 0x33, 0x37, 0x3B, 0x63, 0x67, 0x6F, 0x73] ∧
      (r.pattern.toNat % 128 ∈ [0x1B, 0x3B] → r.rv64Only = true) := by
  decide

theorem Row.majorOpcode_of_fits {r : Row} {xl : Xlen} {w : InstWord} (hmask : (r.mask xl).extractLsb' 0 7 = 0x7F)
    (hfits : r.fits xl w = true) : w.toNat % 128 = r.pattern.toNat % 128 := by
  have hw : w &&& r.mask xl = r.pattern := beq_iff_eq.mp hfits
  have hlow : w.extractLsb' 0 7 = r.pattern.extractLsb' 0 7 := by
    rw [← hw, BitVec.extractLsb'_and, hmask]
    exact BitVec.and_allOnes.symm
  simpa using congrArg BitVec.toNat hlow

/-- Only words of the major opcodes that the hart of the width decodes fit an available row (R284). -/
theorem majorOpcode_of_row {r : Row} {xl : Xlen} {w : InstWord} (hr : r ∈ rows) (havail : r.available xl = true)
    (hfits : r.fits xl w = true) :
    w.toNat % 128 ∈ [0x03, 0x0F, 0x13, 0x17, 0x1B, 0x23, 0x33, 0x37, 0x3B, 0x63, 0x67, 0x6F, 0x73] ∧
      (xl = .rv32 → w.toNat % 128 ∉ [0x1B, 0x3B]) := by
  obtain ⟨h32, h64, hmem, hrv64⟩ := rows_majorOpcode r hr
  have hmask : (r.mask xl).extractLsb' 0 7 = 0x7F := by cases xl <;> assumption
  rw [Row.majorOpcode_of_fits hmask hfits]
  refine ⟨hmem, ?_⟩
  rintro rfl hlong
  rw [Row.available, hrv64 hlong] at havail
  cases havail

/-- Settles O5: a word that a row fits has a major opcode of the table, which none of these words has. -/
theorem reservedWordsTrap : Obligations.ReservedWordsTrap := by
  intro w s hreserved
  refine execWord_of_no_row fun r hr havail => Bool.eq_false_iff.mpr fun hfits => ?_
  obtain ⟨hmajor, hwidth⟩ := majorOpcode_of_row hr havail hfits
  have hlow : w.toNat % 4 = 3 ∧ w.toNat % 32 ≠ 31 := by
    simp only [List.mem_cons, List.not_mem_nil, or_false] at hmajor
    omega
  obtain hshort | hlong | hunknown | ⟨hx, hword⟩ := hreserved
  · exact hshort hlow.1
  · exact hlow.2 hlong
  · exact hunknown hmajor
  · exact hwidth hx hword

/-! ### Terms without an encoding on MXLEN = 32 -/

theorem onRv64_rv32 {i : Instr} {s : State} (o : Host.Outcome State Fault Refusal) (h : s.cfg.xlen = .rv32) :
    onRv64 i s o = raise (illegal i) s := if_neg (by simp [h])

theorem shiftImm_of_not_fits {i : Instr} {shamt : BitVec 6} {s : State} (rd : Reg) (v : Word)
    (h : (s.cfg.xlen == .rv64 || decide (shamt.toNat < 32)) = false) :
    shiftImm i shamt rd v s = raise (illegal i) s := if_neg (by simpa using h)

theorem exec_of_rv64Only {s : State} (hx : s.cfg.xlen = .rv32) : ∀ {i : Instr}, i.rv64Only = true →
    exec i s = raise (illegal i) s
  | .lwu .., _ | .ld .., _ | .sd .., _ | .addiw .., _ | .slliw .., _ | .srliw .., _ | .sraiw .., _ | .addw .., _
  | .subw .., _ | .sllw .., _ | .srlw .., _ | .sraw .., _ => onRv64_rv32 _ hx

theorem exec_of_not_shamtFits {s : State} : ∀ {i : Instr}, i.shamtFits s.cfg.xlen = false →
    exec i s = raise (illegal i) s
  | .slli .., h | .srli .., h | .srai .., h => shiftImm_of_not_fits _ _ h

/-- Settles O21: an ill-formed term is an RV64-only instruction or a shift by too much, and each meaning refuses it. -/
theorem rv64OnlyTrap : Obligations.Rv64OnlyTrap := by
  intro s i hx hwf
  have hcases : i.rv64Only = true ∨ i.shamtFits .rv32 = false := by
    cases h : i.rv64Only
    · exact .inr (by simpa [Instr.wellFormed, h] using hwf)
    · exact .inl rfl
  obtain h64 | hshamt := hcases
  · exact exec_of_rv64Only hx h64
  · exact exec_of_not_shamtFits (hx ▸ hshamt)

end Sys2Proof

/-! PROOFS. The CSR instructions: a permitted access completes, and exactly the accesses of R321 are refused. -/

namespace Sys2Proof.Machine

/-! ### A permitted access (R320, R322 to R328) -/

theorem isMinstret_iff (c : Csr) : isMinstret c = true ↔ c = .minstret ∨ c = .minstreth := by
  cases c <;> simp [isMinstret]

/-- A write of `minstret` stands as it is; any other access counts itself (R328). -/
theorem retireCsr_minstret (c : Csr) (w : Bool) (s : State) :
    (retireCsr c w s).minstret =
      if (w = true ∧ (c = .minstret ∨ c = .minstreth)) ∨ s.mcountinhibit.getLsbD 2 = true then s.minstret
      else s.minstret + 1 := by
  simp only [retireCsr, Bool.and_eq_true, isMinstret_iff]
  by_cases h : w = true ∧ (c = .minstret ∨ c = .minstreth)
  · rw [if_pos h, if_pos (.inl h)]
  · rw [if_neg h, retire_minstret, if_congr (or_iff_right h) rfl rfl]

theorem csrComplete_wroteReg (c : Csr) (w : Bool) (rd : Reg) (f : Word → Word) (s : State) :
    wroteReg rd (csrRead c s).toNat s (csrComplete c w rd f s) := by
  intro r
  have hr : ux r (csrComplete c w rd f s) = ux r (writeX rd (csrRead c s) s) :=
    congrArg BitVec.toNat (readX_congr (csrComplete_xregs c w rd f s) (csrComplete_cfg c w rd f s) r)
  have hfit : truncX s.cfg.xlen (csrRead c s) = csrRead c s := truncX_truncX _ _
  rw [hr, ux_writeX, hfit]

theorem csrInstr_of_access {i : Instr} {a : CsrAddr} {w : Bool} {c : Csr} {s : State} (h : csrAccess a w s = some c)
    (rd : Reg) (f : Word → Word) : csrInstr i a w rd f s = .next (csrComplete c w rd f s) := by
  rw [csrInstr, h]

/-- A CSR instruction on a permitted address completes, with the value its operation gives on the base. -/
theorem accessesCsr_of_csrInstr {i : Instr} {a : CsrAddr} {w : Bool} {c : Csr} {rd : Reg} {f : Word → Word} {s : State}
    (hi : exec i s = csrInstr i a w rd f s) (h : csrAccess a w s = some c) :
    accessesCsr i c w rd (f (csrRmwBase c s)) s := by
  refine ⟨_, csrWritten c w f s, hi.trans (csrInstr_of_access h rd f), rfl, csrComplete_wroteReg c w rd f s, ?_, ?_,
    csrComplete_frame c w rd f s, retireCsr_minstret c w _⟩
  · rw [movedOn, csrComplete_pc]
    exact advancePc_movedOn s
  · intro x
    rw [csrComplete_mem]

/-- Only the pending registers have a base of their own (R323, R331). -/
theorem csrRmwBase_eq_csrRead {c : Csr} (h : c ∉ [Csr.mip, .sip, .uip]) (s : State) : csrRmwBase c s = csrRead c s := by
  cases c with
  | mip | sip | uip => exact absurd (by decide) h
  | _ => rfl

/-- Settles O27: each form is `csrInstr` with its own operation on the base. -/
theorem csrInstrComplete : Obligations.CsrInstrComplete := by
  intro s rd rs1 uimm a c
  refine ⟨fun h => ⟨?_, ?_⟩, fun h => ⟨?_, ?_⟩, fun h => ⟨?_, ?_⟩, fun h => csrRmwBase_eq_csrRead h s⟩
  · exact accessesCsr_of_csrInstr (f := fun _ => readX rs1 s) rfl h
  · exact accessesCsr_of_csrInstr (f := fun _ => zextUimm uimm) rfl h
  · exact accessesCsr_of_csrInstr (f := (· ||| readX rs1 s)) rfl h
  · exact accessesCsr_of_csrInstr (f := (· &&& ~~~(readX rs1 s))) rfl h
  · exact accessesCsr_of_csrInstr (f := (· ||| zextUimm uimm)) rfl h
  · exact accessesCsr_of_csrInstr (f := (· &&& ~~~(zextUimm uimm))) rfl h

/-! ### The accesses that R321 refuses -/

/-- Check 5 of R321 fails: the mode is below M and an enable bit it needs is clear (R139, R140). -/
theorem counterOk_eq_false_iff (c : Csr) (s : State) :
    counterOk c s = false ↔
      ∃ b, counterBit c = some b ∧ s.priv ≠ .M ∧
        (s.mcounteren.getLsbD b = false ∨ (s.priv = .U ∧ s.cfg.hasS = true ∧ s.scounteren.getLsbD b = false)) := by
  unfold counterOk
  cases counterBit c with
  | none => simp
  | some b =>
    simp only [Option.some.injEq, exists_eq_left', counterEnabled]
    cases s.priv with
    | M => simp
    | S => simp
    | U =>
      simp only [Bool.and_eq_false_iff, Bool.or_eq_false_iff, Bool.not_eq_false', ne_eq, reduceCtorEq, not_false_eq_true,
        true_and]

theorem satpOk_eq_false_iff (c : Csr) (s : State) :
    satpOk c s = false ↔ c = .satp ∧ s.priv = .S ∧ s.mstatus.tvm = true := by
  simp [satpOk, and_assoc]

theorem csrLevel_above_iff (a : CsrAddr) (p : Priv) :
    decide (csrLevel a ≤ p.level) = false ↔ p.level < (a.extractLsb' 8 2).toNat := by
  rw [decide_eq_false_iff_not, Nat.not_le]
  rfl

theorem csrReadOnly_iff (a : CsrAddr) : csrReadOnly a = true ↔ (a.extractLsb' 10 2).toNat = 3 := by
  rw [csrReadOnly, beq_iff_eq, ← BitVec.toNat_inj]
  rfl

/-- An access is refused when one of the checks of R321 fails. -/
theorem csrAccess_eq_none_iff (a : CsrAddr) (w : Bool) (s : State) : csrAccess a w s = none ↔ csrForbidden a w s := by
  rw [csrAccess, csrForbidden]
  cases csrOfAddr a with
  | none => simp
  | some c =>
    have hnone (b : Bool) : (if b then some c else none) = none ↔ b = false := by cases b <;> simp
    refine (hnone _).trans ?_
    simp only [Bool.and_eq_false_iff, Bool.not_eq_false', Bool.and_eq_true, ← counterOk_eq_false_iff,
      ← satpOk_eq_false_iff, ← csrLevel_above_iff, ← csrReadOnly_iff]
    tauto

/-- A refused access is IllegalInstruction with the word of the instruction as trap value. -/
theorem raises_of_csrInstr {i : Instr} {a : CsrAddr} {w : Bool} {rd : Reg} {f : Word → Word} {s : State}
    (hi : exec i s = csrInstr i a w rd f s) (h : csrForbidden a w s) :
    raises i .illegalInstruction ((encode i).setWidth 64) s := by
  rw [raises, hi, csrInstr, (csrAccess_eq_none_iff a w s).mpr h]
  rfl

/-! ### The tables (R59, R161, R139) -/

/-- The model agrees with a line of the tables. -/
def CsrRow.Right (c : Config) (r : CsrRow) : Prop :=
  csrOfAddr (BitVec.ofNat 12 r.addr) = some r.reg ∧ csrExists c r.reg = r.present ∧ counterBit r.reg = r.guard

theorem csrRows29_right {c : Config} {addr : Nat} {reg : Nat → Csr} {present guarded : Bool}
    (haddr : ∀ k < 29, csrOfAddr (BitVec.ofNat 12 (addr + k)) = some (reg (k + 3)))
    (hreg : ∀ k, csrExists c (reg k) = present ∧ counterBit (reg k) = if guarded then some k else none) :
    ∀ r ∈ csrRows29 addr reg present guarded, r.Right c := by
  simp only [csrRows29, List.forall_mem_map, List.mem_range]
  exact fun k hk => ⟨haddr k hk, hreg (k + 3)⟩

theorem csrTableU_right (c : Config) : ∀ r ∈ csrTableU c, r.Right c := by
  rw [csrTableU, List.forall_mem_append, List.forall_mem_append]
  refine ⟨⟨?_, csrRows29_right (by decide) fun k => ⟨rfl, rfl⟩⟩, csrRows29_right (by decide) fun k => ⟨rfl, rfl⟩⟩
  repeat refine List.forall_mem_cons.mpr ⟨⟨rfl, rfl, rfl⟩, ?_⟩
  exact List.forall_mem_nil _

/-- The registers of delegation to U-mode need S-mode and EXT_N, and S-mode brings U-mode with it (R31, R161). -/
theorem hasS_and_hasN (c : Config) : (c.hasS && c.hasN) = (c.modes == .msu && c.extN) := by
  unfold Config.hasS Config.hasN Config.hasU
  cases c.modes with
  | m | mu => rfl
  | msu => exact Bool.and_true c.extN

theorem csrTableS_right (c : Config) : ∀ r ∈ csrTableS c, r.Right c := by
  have hdeleg := hasS_and_hasN c
  rw [csrTableS]
  refine List.forall_mem_cons.mpr ⟨⟨rfl, rfl, rfl⟩, ?_⟩
  refine List.forall_mem_cons.mpr ⟨⟨rfl, hdeleg, rfl⟩, ?_⟩
  refine List.forall_mem_cons.mpr ⟨⟨rfl, hdeleg, rfl⟩, ?_⟩
  repeat refine List.forall_mem_cons.mpr ⟨⟨rfl, rfl, rfl⟩, ?_⟩
  exact List.forall_mem_nil _

theorem entries_ne_zero (n : Nat) : (n != 0) = decide (0 < n) := by
  cases n <;> simp

theorem csrExists_pmpcfg (c : Config) (n : Fin 4) :
    csrExists c (.pmpcfg n) = (decide (0 < c.pmpEntries) && (c.xlen == .rv32 || n.val % 2 == 0)) := by
  rw [← entries_ne_zero]
  rfl

theorem csrTableM_right (c : Config) : ∀ r ∈ csrTableM c, r.Right c := by
  have heven (n : Fin 4) (h : (n.val % 2 == 0) = true) : csrExists c (.pmpcfg n) = decide (0 < c.pmpEntries) := by
    rw [csrExists_pmpcfg, h, Bool.or_true, Bool.and_true]
  have hodd (n : Fin 4) (h : (n.val % 2 == 0) = false) :
      csrExists c (.pmpcfg n) = (decide (0 < c.pmpEntries) && c.xlen == .rv32) := by
    rw [csrExists_pmpcfg, h, Bool.or_false]
  simp only [csrTableM, List.forall_mem_append]
  refine ⟨⟨⟨⟨?_, ?_⟩, csrRows29_right (by decide) fun k => ⟨rfl, rfl⟩⟩, csrRows29_right (by decide) fun k => ⟨rfl, rfl⟩⟩,
    csrRows29_right (by decide) fun k => ⟨rfl, rfl⟩⟩
  · have haddr : ∀ n : Fin 4, csrOfAddr (BitVec.ofNat 12 (0x3A0 + n.val)) = some (.pmpcfg n) := by decide
    iterate 17 refine List.forall_mem_cons.mpr ⟨⟨rfl, rfl, rfl⟩, ?_⟩
    refine List.forall_mem_cons.mpr ⟨⟨haddr 0, heven 0 rfl, rfl⟩, ?_⟩
    refine List.forall_mem_cons.mpr ⟨⟨haddr 1, hodd 1 rfl, rfl⟩, ?_⟩
    refine List.forall_mem_cons.mpr ⟨⟨haddr 2, heven 2 rfl, rfl⟩, ?_⟩
    refine List.forall_mem_cons.mpr ⟨⟨haddr 3, hodd 3 rfl, rfl⟩, ?_⟩
    repeat refine List.forall_mem_cons.mpr ⟨⟨rfl, rfl, rfl⟩, ?_⟩
    exact List.forall_mem_nil _
  · have haddr : ∀ i : Fin 16, csrOfAddr (BitVec.ofNat 12 (0x3B0 + i.val)) = some (.pmpaddr i) := by decide
    simp only [List.forall_mem_map]
    exact fun i _ => ⟨haddr i, entries_ne_zero _, rfl⟩

theorem csrTable_right (c : Config) : ∀ r ∈ csrTable c, r.Right c := by
  simp only [csrTable, List.forall_mem_append]
  exact ⟨⟨csrTableU_right c, csrTableS_right c⟩, csrTableM_right c⟩

/-- The addresses of the tables, which are those of every configuration. -/
def csrAddrs : List Nat := (csrTable Config.default).map CsrRow.addr

theorem csrTable_addrs (c : Config) : (csrTable c).map CsrRow.addr = csrAddrs := by
  simp only [csrAddrs, csrTable, csrTableU, csrTableS, csrTableM, csrRows29, List.map_append, List.map_cons, List.map_map,
    Function.comp_def]

theorem mem_csrAddrs_of_range {lo hi n : Nat} (h : lo ≤ n ∧ n ≤ hi) (hrange : ∀ k < hi + 1 - lo, lo + k ∈ csrAddrs) :
    n ∈ csrAddrs := by
  have hn := hrange (n - lo) (by omega)
  rwa [Nat.add_sub_cancel' h.1] at hn

/-- An address that names a register is one of the tables. -/
theorem mem_csrAddrs_of_csrOfAddr {a : CsrAddr} {r : Csr} (h : csrOfAddr a = some r) : a.toNat ∈ csrAddrs := by
  unfold csrOfAddr at h
  split at h
  case h_48 =>
    iterate 7
      split at h
      · rename_i hn
        exact mem_csrAddrs_of_range hn (by decide)
    cases h
  all_goals
    rename_i ha
    rw [ha]
    decide

/-- An address that no line has names no register. -/
theorem csrOfAddr_eq_none {c : Config} {a : CsrAddr} (h : ∀ r ∈ csrTable c, r.addr ≠ a.toNat) : csrOfAddr a = none := by
  refine Option.eq_none_iff_forall_ne_some.mpr fun r hr => ?_
  have hmem := mem_csrAddrs_of_csrOfAddr hr
  rw [← csrTable_addrs c] at hmem
  obtain ⟨q, hq, ha⟩ := List.mem_map.mp hmem
  exact h q hq ha

/-- Settles O28: the tables line by line, and the checks of `csrAccess` one by one. -/
theorem csrAccessRefused : Obligations.CsrAccessRefused := by
  intro s rd rs1 uimm a
  refine ⟨csrTable_right s.cfg, csrOfAddr_eq_none, fun w => csrAccess_eq_none_iff a w s, fun h => ⟨?_, ?_⟩, fun h => ⟨?_, ?_⟩,
    fun h => ⟨?_, ?_⟩⟩
  all_goals exact raises_of_csrInstr rfl h

end Sys2Proof.Machine

/-! PROOFS. The pending registers and the PMP CSRs: what is read, what a set or clear computes from, what a write leaves. -/

namespace Sys2Proof.Machine

/-! ### `mip`, `sip` and `uip` (R331) -/

/-- No bit of a value of `mip` lies above bit 11. -/
theorem mipBit_of_ge {s : State} {k : Nat} (h : 12 ≤ k) : mipBit s k = false :=
  mipBit_of_not_mem s k (by simp; omega)

/-- A view of `mip` that shows the bits under `mask`, as it is read. -/
theorem csrRead_of_mipView {c : Csr} {s : State} {mask : Word} (h : csrValue c s = mipValue s &&& mask) (k : Nat) :
    (csrRead c s).getLsbD k = (mipBit s k && mask.getLsbD k) := by
  rw [csrRead_getLsbD, h, BitVec.getLsbD_and, mipValue_getLsbD]
  by_cases hk : k < 12
  · rw [decide_eq_true (lt_bits_of_lt s.cfg.xlen (by omega)), Bool.true_and]
  · rw [mipBit_of_ge (by omega), Bool.false_and, Bool.and_false]

/-- The base of such a view. -/
theorem mipSwValue_and_getLsbD (s : State) (mask : Word) (k : Nat) :
    (mipSwValue s &&& mask).getLsbD k = (mipSwBit s k && mask.getLsbD k) := by
  rw [BitVec.getLsbD_and, mipSwValue_getLsbD]

theorem mipSwBit_eq (s : State) (k : Nat) :
    mipSwBit s k = if k = 8 then s.mip.ueipSw else if k = 9 then s.mip.seipSw else mipBit s k := by
  unfold mipSwBit
  split
  · rfl
  · rfl
  · rename_i h8 h9
    rw [if_neg h8, if_neg h9]

theorem mipWrite_truncX (xl : Xlen) (mask v : Word) (m : MipBits) : mipWrite mask (truncX xl v) m = mipWrite mask v m := by
  simp only [mipWrite, truncX_low xl v (show 0 < 32 by norm_num), truncX_low xl v (show 1 < 32 by norm_num),
    truncX_low xl v (show 4 < 32 by norm_num), truncX_low xl v (show 5 < 32 by norm_num),
    truncX_low xl v (show 8 < 32 by norm_num), truncX_low xl v (show 9 < 32 by norm_num)]

/-- A write of a view of `mip` changes the stored bits under its mask. -/
theorem csrWrite_mip (v : Word) (s : State) : csrWrite .mip v s = { s with mip := mipWrite (lowerIntMask s.cfg) v s.mip } :=
  congrArg (fun m => { s with mip := m }) (mipWrite_truncX s.cfg.xlen _ v s.mip)

/-- `sip` reaches USIP, SSIP and the software bit of UEIP. -/
theorem csrWrite_sip (v : Word) (s : State) :
    csrWrite .sip v s =
      { s with mip :=
        { s.mip with
          usip := if s.mideleg.getLsbD 0 && (lowerIntMask s.cfg).getLsbD 0 then v.getLsbD 0 else s.mip.usip
          ssip := if s.mideleg.getLsbD 1 && (lowerIntMask s.cfg).getLsbD 1 then v.getLsbD 1 else s.mip.ssip
          ueipSw := if s.mideleg.getLsbD 8 && (lowerIntMask s.cfg).getLsbD 8 then v.getLsbD 8 else s.mip.ueipSw } } := by
  have hin {k : Nat} (hk : (0x103 : Word).getLsbD k = true) : (s.mideleg &&& lowerIntMask s.cfg &&& 0x103).getLsbD k =
      (s.mideleg.getLsbD k && (lowerIntMask s.cfg).getLsbD k) := by
    rw [BitVec.getLsbD_and, hk, Bool.and_true, BitVec.getLsbD_and]
  have hout {k : Nat} (hk : (0x103 : Word).getLsbD k = false) :
      (s.mideleg &&& lowerIntMask s.cfg &&& 0x103).getLsbD k = false := by
    rw [BitVec.getLsbD_and, hk, Bool.and_false]
  refine congrArg (fun m => { s with mip := m }) ((mipWrite_truncX s.cfg.xlen _ v s.mip).trans ?_)
  simp only [mipWrite, hin (k := 0) rfl, hin (k := 1) rfl, hin (k := 8) rfl, hout (k := 4) rfl, hout (k := 5) rfl,
    hout (k := 9) rfl, Bool.false_eq_true, if_false]

theorem csrWrite_uip (v : Word) (s : State) :
    csrWrite .uip v s =
      { s with mip :=
        { s.mip with usip := if (uDelegated s).getLsbD 0 then v.getLsbD 0 else s.mip.usip } } := by
  have hw : mipWrite (uDelegated s &&& 0x1) (truncX s.cfg.xlen v) s.mip = _ := mipWrite_usip (fun _ => uip_mask) _ _
  rw [truncX_low _ _ (by norm_num), BitVec.getLsbD_and, show (0x1 : Word).getLsbD 0 = true from rfl, Bool.and_true] at hw
  exact congrArg (fun m => { s with mip := m }) hw

/-- Settles O31: the three registers are views of the same bits, each under its mask. -/
theorem pendingRegisters : Obligations.PendingRegisters := by
  rintro s v k pend soft wm du hpend hsoft hwm hdu
  replace hpend : pend = mipBit s := hpend
  subst hpend
  replace hsoft : soft = mipSwBit s := hsoft.trans (funext fun i => (mipSwBit_eq s i).symm)
  have hmask (i : Nat) : (lowerIntMask s.cfg).getLsbD i = wm i := by rw [hwm, lowerIntMask_getLsbD]
  have hshown (i : Nat) : (uDelegated s &&& 0x111).getLsbD i = du i := by rw [hdu, uDelegatedShown_getLsbD]
  subst hsoft
  refine ⟨?_, ?_, ?_, mipSwValue_getLsbD s k, ?_, ?_, ?_, ?_, ?_, fun c => ⟨csrWrite_lines c v s, csrWrite_msip c v s,
    csrWrite_mtime c v s, csrWrite_mtimecmp c v s⟩⟩
  · rw [csrRead_of_mipView rfl, mieMask, BitVec.getLsbD_or, hmask]
  · rw [csrRead_of_mipView (BitVec.and_assoc ..), BitVec.getLsbD_and, Bool.and_assoc]
  · rw [csrRead_of_mipView (BitVec.and_assoc ..), hshown]
  · show (mipSwValue s &&& s.mideleg &&& 0x333).getLsbD k = _
    rw [BitVec.and_assoc, mipSwValue_and_getLsbD, BitVec.getLsbD_and, Bool.and_assoc]
  · show (mipSwValue s &&& uDelegated s &&& 0x111).getLsbD k = _
    rw [BitVec.and_assoc, mipSwValue_and_getLsbD, hshown]
  · simp only [csrWrite_mip, mipWrite, hmask]
  · simp only [csrWrite_sip, hmask]
  · have h0 : (uDelegated s).getLsbD 0 = du 0 := by
      rw [← hshown, BitVec.getLsbD_and, show (0x111 : Word).getLsbD 0 = true from rfl, Bool.and_true]
    rw [csrWrite_uip, h0]

/-! ### `pmpcfg` (R332) -/

/-- What `pmpcfg` shows, byte by byte. -/
theorem csrRead_pmpcfg_byte (s : State) (n : Fin 4) {j : Nat} (hj : j < s.cfg.xlen.bits / 8) :
    (csrRead (.pmpcfg n) s).toNat / 256 ^ j % 256 = (pmpByte (4 * n.val + j) s).toNat := by
  have hper := pmpPerCsr_eq s.cfg.xlen
  have hle : pmpPerCsr s.cfg.xlen ≤ 8 := by cases s.cfg.xlen <;> decide
  have hlt : (pmpcfgWord s (4 * n.val) (pmpPerCsr s.cfg.xlen)).toNat < 2 ^ s.cfg.xlen.bits :=
    (pmpcfgWord_lt s _ _ hle).trans_eq (by cases s.cfg.xlen <;> rfl)
  have hread : csrRead (.pmpcfg n) s = pmpcfgWord s (4 * n.val) (pmpPerCsr s.cfg.xlen) := truncX_of_lt hlt
  rw [hread, pmpcfgWord_byte s _ _ hle j (hper ▸ hj)]

theorem pmpByte_of_eq {i : Fin 16} {m : Nat} (h : i.val = m) (s : State) : pmpByte m s = s.pmpcfg[i] := by
  subst h
  exact dif_pos i.isLt

/-- Byte `j` of the value written is that of the operand, where the register has a byte `j`. -/
theorem truncX_byte {xl : Xlen} (v : Word) {j : Nat} (hj : j < xl.bits / 8) :
    (truncX xl v).extractLsb' (8 * j) 8 = BitVec.ofNat 8 (v.toNat / 256 ^ j) := by
  rw [← extractByte_eq]
  apply BitVec.eq_of_getLsbD_eq
  intro k hk
  have hlt : 8 * j + k < xl.bits := by omega
  rw [BitVec.getLsbD_extractLsb', BitVec.getLsbD_extractLsb', truncX_getLsbD, decide_eq_true hlt, Bool.true_and]

/-- Settles O37: a read is the covered bytes in place, and a write puts the legal value of its byte into each entry that it
covers and that is open. -/
theorem pmpcfgAccess : Obligations.PmpcfgAccess := by
  rintro s n v i j per b old - rfl hi rfl rfl
  have hafter (m : Fin 16) : (csrWrite (.pmpcfg n) v s).pmpcfg[m] = _ :=
    pmpcfgAfter_getElem n (truncX s.cfg.xlen v) s m
  simp only [pmpPerCsr_eq] at hafter
  refine ⟨fun hj => ?_, rfl, fun m hm => ?_, fun hj => ⟨fun hheld => ?_, fun hi16 hopen k => ?_⟩⟩
  · rw [csrRead_pmpcfg_byte s n hj, pmpByte_of_eq hi]
  · rw [hafter, if_neg (by omega)]
  · rw [hafter, if_neg]
    rintro ⟨-, -, hlt, hopen⟩
    rcases hheld with hle | hlocked
    · omega
    · exact absurd (hopen.symm.trans hlocked) (by decide)
  · have hcovered : 4 * n.val ≤ i.val ∧ i.val < 4 * n.val + s.cfg.xlen.bits / 8 ∧ i.val < s.cfg.pmpEntries ∧
        pmpLocked s.pmpcfg[i] = false := ⟨by omega, by omega, hi16, hopen⟩
    have hbyte : i.val - 4 * n.val = j := by omega
    rw [hafter, if_pos hcovered, hbyte, truncX_byte v hj]
    exact legalPmpcfg_getLsbD _ _ _ k

/-! ### `pmpaddr` (R333) -/

/-- What `pmpaddr` shows under each granularity and mode (R154). -/
theorem pmpAddrValue_getLsbD (n : Fin 16) (s : State) {k : Nat} (hk : k < 64) :
    (pmpAddrValue n s).getLsbD k =
      if s.pmpcfg[n].getLsbD 4 then s.pmpaddr[n].getLsbD k || decide (2 ≤ s.cfg.pmpG ∧ k + 2 ≤ s.cfg.pmpG)
      else s.pmpaddr[n].getLsbD k && decide (s.cfg.pmpG ≤ k) := by
  rw [pmpAddrValue, pmpMode_getLsbD _ 1 (by norm_num)]
  split
  · split
    · rename_i hg
      rw [BitVec.getLsbD_or, lowOnes_getLsbD]
      congr 1
      simp only [hk, decide_true, Bool.true_and, decide_eq_decide]
      omega
    · rename_i hg
      rw [decide_eq_false (fun h => hg h.1), Bool.or_false]
  · rw [BitVec.getLsbD_and, BitVec.getLsbD_not, lowOnes_getLsbD]
    rw [decide_eq_true hk, Bool.true_and, Bool.true_and, ← decide_not]
    simp only [Nat.not_lt]

theorem csrWrite_pmpaddr_of_held {n : Fin 16} {s : State} (h : pmpaddrHeld n s = true) (v : Word) :
    csrWrite (.pmpaddr n) v s = s := by
  show { s with pmpaddr := pmpaddrAfter n (truncX s.cfg.xlen v) s } = s
  rw [pmpaddrAfter, if_pos h]

theorem csrWrite_pmpaddr_of_open {n : Fin 16} {s : State} (h : pmpaddrHeld n s = false) (v : Word) :
    csrWrite (.pmpaddr n) v s =
      { s with pmpaddr := s.pmpaddr.set n.val (truncX s.cfg.xlen v &&& pmpaddrMask s.cfg) n.isLt } := by
  show { s with pmpaddr := pmpaddrAfter n (truncX s.cfg.xlen v) s } = _
  rw [pmpaddrAfter, h]
  rfl

/-- Settles O38: a write either is held off or stores the bits that the width and PALEN leave. -/
theorem pmpaddrAccess : Obligations.PmpaddrAccess := by
  intro s n v k hk
  have hk64 : k < 64 := hk.trans_le (by cases s.cfg.xlen <;> decide)
  refine ⟨?_, fun hheld => csrWrite_pmpaddr_of_held ((pmpaddrHeld_iff n s).mpr hheld) v, fun hi hl htor => ?_⟩
  · rw [csrRead_getLsbD, decide_eq_true hk, Bool.true_and]
    exact pmpAddrValue_getLsbD n s hk64
  · have hopen : pmpaddrHeld n s = false := by
      rw [Bool.eq_false_iff, ne_eq, pmpaddrHeld_iff]
      rintro (hle | hlocked | ⟨m, hm, hlocked, hmode⟩)
      · omega
      · exact absurd (hl.symm.trans hlocked) (by decide)
      · rcases htor m hm with h | h
        · exact absurd (h.symm.trans hlocked) (by decide)
        · exact h hmode
    refine ⟨_, csrWrite_pmpaddr_of_open hopen v, ?_⟩
    rw [BitVec.getLsbD_and, truncX_getLsbD, decide_eq_true hk, Bool.true_and, pmpaddrMask, lowOnes_getLsbD,
      decide_eq_true hk64, Bool.true_and]
    congr 1
    rw [decide_eq_decide]
    omega

end Sys2Proof.Machine

/-! PROOFS. The words that the spec writes out. -/

namespace Sys2Proof

open Machine

theorem decodeWord_of_encode {xl : Xlen} {w : InstWord} {i : Instr} (hw : encode i = w) (hi : i.wellFormed xl = true) :
    decodeWord xl w = .ok i := hw ▸ decodeWord_encode hi

/-- Settles O4: each word is the encoding of its instruction. -/
theorem sampleWordsDecode : Obligations.SampleWordsDecode := by
  refine ⟨?_, ?_, ?_, ?_, ?_, ?_, ?_, ?_, ?_, ?_, ?_, ?_⟩ <;> exact decodeWord_of_encode rfl rfl

end Sys2Proof

/-! PROOFS. The privileged instructions: the environment calls, WFI and SFENCE.VMA, and where each is refused. -/

namespace Sys2Proof.Machine

/-! ### Taking an exception (R351, R352, R520) -/

theorem eq_takeException_of_raise {r : Raised} {s t : State} (h : raise r s = .next t) : t = takeException r s :=
  (Host.Outcome.next.inj h).symm

/-- An instruction that raises an exception has no effect of its own: it does not retire (R520). -/
theorem takeException_kept (r : Raised) (s : State) :
    (takeException r s).minstret = s.minstret ∧ keptRegs s (takeException r s) ∧ keptMem s (takeException r s) :=
  ⟨takeException_minstret r s,
    fun x => congrArg BitVec.toNat (readX_congr (takeException_xregs r s) (takeException_cfg r s) x),
    fun a => congrArg (memRead · a) (takeException_mem r s)⟩

/-- Settles O43: both raise, with the code of R510, and taking an exception keeps the rest. -/
theorem environmentCalls : Obligations.EnvironmentCalls := by
  intro s
  refine ⟨?_, rfl, ?_⟩
  · have hcall : exec .ecall s = .next (takeTrap false (ecallExc s.priv).code 0 s.pc s) := rfl
    rw [hcall]
    cases s.priv <;> rfl
  · rintro t (hcall | hbreak)
    · rw [eq_takeException_of_raise hcall]
      exact takeException_kept _ s
    · rw [eq_takeException_of_raise hbreak]
      exact takeException_kept _ s

/-! ### Where a privileged instruction is legal (R350, R353 to R357) -/

theorem hasS_iff (c : Config) : c.hasS = true ↔ c.modes = .msu := beq_iff_eq

theorem hasS_eq_false_iff (c : Config) : c.hasS = false ↔ c.modes ≠ .msu := beq_eq_false_iff_ne

theorem hasN_eq_false_iff (c : Config) : c.hasN = false ↔ c.extN = false ∨ c.modes = .m := by
  rw [Config.hasN, Bool.and_eq_false_iff, Config.hasU, bne_eq_false_iff_eq]

theorem mretLegal_eq_false_iff (s : State) : mretLegal s = false ↔ s.priv ≠ .M := beq_eq_false_iff_ne

theorem sretLegal_eq_false_iff (s : State) :
    sretLegal s = false ↔ s.cfg.modes ≠ .msu ∨ s.priv = .U ∨ (s.priv = .S ∧ s.mstatus.tsr = true) := by
  rw [sretLegal, Bool.and_eq_false_iff, hasS_eq_false_iff]
  cases s.priv <;> simp

theorem sfenceLegal_eq_false_iff (s : State) :
    sfenceLegal s = false ↔ s.cfg.modes ≠ .msu ∨ s.priv = .U ∨ (s.priv = .S ∧ s.mstatus.tvm = true) := by
  rw [sfenceLegal, Bool.and_eq_false_iff, hasS_eq_false_iff]
  cases s.priv <;> simp

theorem sfenceLegal_iff (s : State) :
    sfenceLegal s = true ↔ s.cfg.modes = .msu ∧ (s.priv = .M ∨ (s.priv = .S ∧ s.mstatus.tvm = false)) := by
  rw [sfenceLegal, Bool.and_eq_true, hasS_iff]
  cases s.priv <;> simp

theorem wfiLegal_iff (s : State) :
    wfiLegal s = true ↔ s.priv = .M ∨ (s.priv = .S ∧ s.mstatus.tw = false) ∨
      (s.priv = .U ∧ s.cfg.modes ≠ .msu ∧ s.mstatus.tw = false) := by
  cases hp : s.priv <;> simp [wfiLegal, hp, hasS_eq_false_iff]

theorem wfiLegal_eq_false_iff (s : State) :
    wfiLegal s = false ↔ (s.priv = .S ∧ s.mstatus.tw = true) ∨
      (s.priv = .U ∧ (s.cfg.modes = .msu ∨ s.mstatus.tw = true)) := by
  cases hp : s.priv <;> simp [wfiLegal, hp, hasS_iff, Bool.and_eq_false_iff, -Bool.and_eq_false_imp]

/-! ### WFI and SFENCE.VMA where they are legal (R356, R357) -/

theorem exec_wfi_legal {s : State} (h : wfiLegal s = true) :
    exec .wfi s = .next (retire (advancePc { s with wfiStalled := true })) := if_pos h

theorem exec_sfenceVma_legal (rs1 rs2 : Reg) {s : State} (h : sfenceLegal s = true) :
    exec (.sfenceVma rs1 rs2) s = finishPlain s := if_pos h

/-- Settles O45: a legal SFENCE.VMA ends as a plain instruction, and a legal WFI does so with the stall set. -/
theorem wfiAndSfence : Obligations.WfiAndSfence := by
  intro s rs1 rs2
  refine ⟨fun hwfi => ?_, fun hmodes hp => ?_⟩
  · exact ⟨_, exec_wfi_legal ((wfiLegal_iff s).mpr hwfi), rfl, fun _ => rfl, advancePc_movedOn s, rfl, fun _ => rfl, rfl⟩
  · exact onlyMoves_of_finishPlain (exec_sfenceVma_legal rs1 rs2 ((sfenceLegal_iff s).mpr ⟨hmodes, hp⟩))

/-! ### Where they are not (R350, R530) -/

theorem append_toNat {m n : Nat} (x : BitVec m) (y : BitVec n) : (x ++ y).toNat = x.toNat * 2 ^ n + y.toNat := by
  rw [BitVec.toNat_append, ← Nat.shiftLeft_add_eq_or_of_lt y.isLt, Nat.shiftLeft_eq]

/-- The word of the R format as a number. -/
theorem encR_toNat (f7 : BitVec 7) (rs2 rs1 : Reg) (f3 : BitVec 3) (rd : Reg) (op : BitVec 7) :
    (encR f7 rs2 rs1 f3 rd op).toNat =
      f7.toNat * 2 ^ 25 + rs2.toNat * 2 ^ 20 + rs1.toNat * 2 ^ 15 + f3.toNat * 2 ^ 12 + rd.toNat * 2 ^ 7 + op.toNat := by
  simp only [encR, append_toNat]
  ring

theorem sfenceVma_word (rs1 rs2 : Reg) :
    (encode (.sfenceVma rs1 rs2)).setWidth 64 =
      BitVec.ofNat 64 (0x12000073 + rs2.toNat * 2 ^ 20 + rs1.toNat * 2 ^ 15) := by
  have hword : (encode (.sfenceVma rs1 rs2)).toNat = 0x12000073 + rs2.toNat * 2 ^ 20 + rs1.toNat * 2 ^ 15 := by
    rw [encode, encR_toNat]
    simp only [BitVec.reduceToNat]
    omega
  rw [← hword, BitVec.ofNat_toNat]

/-- An instruction that ends in `raise (illegal i)` raises IllegalInstruction with its word as trap value. -/
theorem raises_illegal {i : Instr} {w : Word} {s : State} (h : exec i s = raise (illegal i) s)
    (hw : (encode i).setWidth 64 = w) : raises i .illegalInstruction w s := hw ▸ h

theorem execReturn_illegal (x : Priv) (i : Instr) (s : State) {legal : Bool} (h : legal = false) :
    execReturn x legal i s = raise (illegal i) s := if_neg (ne_true_of_eq_false h)

theorem exec_wfi_illegal {s : State} (h : wfiLegal s = false) : exec .wfi s = raise (illegal .wfi) s :=
  if_neg (ne_true_of_eq_false h)

theorem exec_sfenceVma_illegal (rs1 rs2 : Reg) {s : State} (h : sfenceLegal s = false) :
    exec (.sfenceVma rs1 rs2) s = raise (illegal (.sfenceVma rs1 rs2)) s := if_neg (ne_true_of_eq_false h)

/-- Settles O46: each setting of R350 is where the check of the instruction fails, and a failed check raises. -/
theorem privilegedInstrTrap : Obligations.PrivilegedInstrTrap := by
  intro s rs1 rs2
  refine ⟨fun h => ?mret, fun h => ?sret, fun h => ?uret, fun h => ?wfi, fun h => ?sfence⟩
  case mret => exact raises_illegal (execReturn_illegal .M .mret s ((mretLegal_eq_false_iff s).mpr h)) rfl
  case sret => exact raises_illegal (execReturn_illegal .S .sret s ((sretLegal_eq_false_iff s).mpr h)) rfl
  case uret => exact raises_illegal (execReturn_illegal .U .uret s ((hasN_eq_false_iff s.cfg).mpr h)) rfl
  case wfi => exact raises_illegal (exec_wfi_illegal ((wfiLegal_eq_false_iff s).mpr h)) rfl
  case sfence =>
    exact raises_illegal (exec_sfenceVma_illegal rs1 rs2 ((sfenceLegal_eq_false_iff s).mpr h)) (sfenceVma_word rs1 rs2)

end Sys2Proof.Machine

/-! PROOFS. The base integer instructions: what each writes to its register, where it goes, and when its target traps. -/

namespace Sys2Proof.Machine

/-! ### Upper immediates and fences (R403, R404, R440, R441) -/

/-- Settles O10: the upper immediate, and its sum with `pc`, as numbers modulo 2^64. -/
theorem upperImmediates : Obligations.UpperImmediates := by
  intro s rd imm
  have hsum := add_eq_ofInt (ofInt_toNat s.pc) (immU_eq imm)
  exact ⟨writesReg_of_ofInt rfl (immU_eq imm) rfl, writesReg_of_ofInt rfl hsum rfl⟩

/-- Settles O18: neither fence looks at its fields. -/
theorem fencesOnlyMove : Obligations.FencesOnlyMove := fun _ _ _ _ _ _ _ =>
  ⟨onlyMoves_of_finishPlain rfl, onlyMoves_of_finishPlain rfl⟩

/-! ### Jumps and branches (R402, R405 to R412) -/

/-- Settles O11: clearing bit 0 of a JALR target leaves a multiple of 4 exactly when bit 1 of the sum is clear. -/
theorem jumpsLink : Obligations.JumpsLink := by
  intro s rd rs1 imm20 imm12
  refine ⟨jumpsTo_of_jumpLink rfl (jalTarget_toNat imm20 s), fun hbit1 => ?_⟩
  exact jumpsTo_of_jumpLink rfl (jalrTarget_toNat rs1 imm12 s) (by omega)

theorem cmpNe_regs (r q : Reg) (s : State) :
    (!cmpEq s.cfg.xlen (readX r s) (readX q s)) = true ↔ ux r s ≠ ux q s := by
  rw [Bool.not_eq_true', ← Bool.not_eq_true, cmpEq_regs]

theorem cmpGe_regs (r q : Reg) (s : State) :
    (!cmpLt s.cfg.xlen (readX r s) (readX q s)) = true ↔ sx q s ≤ sx r s := by
  rw [Bool.not_eq_true', ← Bool.not_eq_true, cmpLt_regs, Int.not_lt]

theorem cmpGeu_regs (r q : Reg) (s : State) :
    (!cmpLtu s.cfg.xlen (readX r s) (readX q s)) = true ↔ ux q s ≤ ux r s := by
  rw [Bool.not_eq_true', ← Bool.not_eq_true, cmpLtu_regs, Nat.not_lt]

section

variable {i : Instr} {s : State} {target : Word}

theorem raises_of_transferTo {dest : Word} {commit : State} (hi : exec i s = transferTo dest commit s)
    (ht : target.toNat = dest.toNat) (hm : target.toNat % 4 ≠ 0) : raises i .instrAddrMisaligned target s := by
  obtain rfl := BitVec.eq_of_toNat_eq ht
  exact hi.trans (transferTo_misaligned commit s hm)

theorem raises_of_branch {b : Bool} {imm : BitVec 12} (hi : exec i s = branch b imm s) (hb : b = true)
    (ht : target.toNat = wrapX s.cfg.xlen (s.pc.toNat + 2 * imm.toInt)) (hm : target.toNat % 4 ≠ 0) :
    raises i .instrAddrMisaligned target s :=
  raises_of_transferTo (hi.trans (if_pos hb)) (ht.trans (branchTarget_toNat imm s).symm) hm

/-- A branch on a condition `P` of the registers. -/
theorem branchesTo_of_iff {b : Bool} {P : Prop} [Decidable P] {imm : BitVec 12} {dest next : Nat}
    (hi : exec i s = branch b imm s) (hb : b = true ↔ P)
    (hd : dest = wrapX s.cfg.xlen (s.pc.toNat + 2 * imm.toInt)) (hn : next = wrapX s.cfg.xlen (s.pc.toNat + 4))
    (ha : P → dest % 4 = 0) : branchesTo i (if P then dest else next) s := by
  have hnext : next = (s.pc.toNat + 4) % 2 ^ s.cfg.xlen.bits := hn.trans (wrapX_nat _ (s.pc.toNat + 4))
  have h := branchesTo_of_branch hi rfl ((branchTarget_toNat imm s).trans hd.symm) hnext (fun e => ha (hb.mp e))
  simpa only [hb] using h

end

/-- Settles O12: a jump, and a branch whose comparison holds, transfer control to the target. -/
theorem misalignedTargetsTrap : Obligations.MisalignedTargetsTrap := by
  intro s rd rs1 rs2 imm20 imm target hm
  refine ⟨fun ht => ?jal, fun ht => ?jalr, fun ht => ⟨?beq, ?bne, ?blt, ?bge, ?bltu, ?bgeu⟩⟩
  case jal => exact raises_of_transferTo rfl (ht.trans (jalTarget_toNat imm20 s).symm) hm
  case jalr => exact raises_of_transferTo rfl (ht.trans (jalrTarget_toNat rs1 imm s).symm) hm
  case beq => exact fun h => raises_of_branch rfl ((cmpEq_regs rs1 rs2 s).mpr h) ht hm
  case bne => exact fun h => raises_of_branch rfl ((cmpNe_regs rs1 rs2 s).mpr h) ht hm
  case blt => exact fun h => raises_of_branch rfl ((cmpLt_regs rs1 rs2 s).mpr h) ht hm
  case bge => exact fun h => raises_of_branch rfl ((cmpGe_regs rs1 rs2 s).mpr h) ht hm
  case bltu => exact fun h => raises_of_branch rfl ((cmpLtu_regs rs1 rs2 s).mpr h) ht hm
  case bgeu => exact fun h => raises_of_branch rfl ((cmpGeu_regs rs1 rs2 s).mpr h) ht hm

/-- Settles O13: each comparison of words is the comparison of the numbers in the registers. -/
theorem branchesComplete : Obligations.BranchesComplete := by
  intro s rs1 rs2 imm dest next hd hn
  refine ⟨?beq, ?bne, ?blt, ?bge, ?bltu, ?bgeu⟩
  case beq => exact branchesTo_of_iff rfl (cmpEq_regs rs1 rs2 s) hd hn
  case bne => exact branchesTo_of_iff rfl (cmpNe_regs rs1 rs2 s) hd hn
  case blt => exact branchesTo_of_iff rfl (cmpLt_regs rs1 rs2 s) hd hn
  case bge => exact branchesTo_of_iff rfl (cmpGe_regs rs1 rs2 s) hd hn
  case bltu => exact branchesTo_of_iff rfl (cmpLtu_regs rs1 rs2 s) hd hn
  case bgeu => exact branchesTo_of_iff rfl (cmpGeu_regs rs1 rs2 s) hd hn

/-! ### Sums, comparisons and bitwise operations (R421 to R426, R430 to R439) -/

theorem truncX_imm12_toNat (xl : Xlen) (imm : BitVec 12) : (truncX xl (imm12 imm)).toNat = wrapX xl imm.toInt :=
  truncX_eq_wrapX xl _ _ (imm12_eq imm)

/-- A sign-extended immediate is the same signed number on either width. -/
theorem imm12_bmod (xl : Xlen) (imm : BitVec 12) : Int.bmod (imm12 imm).toNat (2 ^ xl.bits) = imm.toInt := by
  have hlo : -2 ^ 11 ≤ imm.toInt := imm.le_toInt
  have hhi : imm.toInt < 2 ^ 11 := imm.toInt_lt
  rw [bmod_word xl _ _ (imm12_eq imm)]
  exact bmod_of_small xl (by omega) (by omega)

theorem cmpLt_imm (r : Reg) (imm : BitVec 12) (s : State) :
    cmpLt s.cfg.xlen (readX r s) (imm12 imm) = true ↔ sx r s < imm.toInt := by
  rw [cmpLt_iff, imm12_bmod]; rfl

theorem cmpLtu_imm (r : Reg) (imm : BitVec 12) (s : State) :
    cmpLtu s.cfg.xlen (readX r s) (imm12 imm) = true ↔ ux r s < wrapX s.cfg.xlen imm.toInt := by
  rw [cmpLtu_iff, truncX_readX, truncX_imm12_toNat]; rfl

/-- Settles O14: the sum, the two comparisons, and the three bitwise operations, which act on the low XLEN bits of either
operand alone. -/
theorem regImmResults : Obligations.RegImmResults := by
  rintro s rd rs1 imm c rfl
  refine ⟨?addi, ?slti, ?sltiu, ?xori, ?ori, ?andi⟩
  case addi => exact writesReg_of_ofInt rfl (add_eq_ofInt (readX_eq_ofInt rs1 s) (imm12_eq imm)) rfl
  case slti => exact writesReg_of_bool rfl (cmpLt_imm rs1 imm s)
  case sltiu => exact writesReg_of_bool rfl (cmpLtu_imm rs1 imm s)
  case xori =>
    refine writesReg_of_finishRd rfl ?_
    rw [truncX_xor, truncX_readX, BitVec.toNat_xor, truncX_imm12_toNat, ux]
  case ori =>
    refine writesReg_of_finishRd rfl ?_
    rw [truncX_or, truncX_readX, BitVec.toNat_or, truncX_imm12_toNat, ux]
  case andi =>
    refine writesReg_of_finishRd rfl ?_
    rw [truncX_and, truncX_readX, BitVec.toNat_and, truncX_imm12_toNat, ux]

/-- Settles O16: as O14, with a register in the place of the immediate. -/
theorem regRegResults : Obligations.RegRegResults := by
  intro s rd rs1 rs2
  have h1 := readX_eq_ofInt rs1 s
  have h2 := readX_eq_ofInt rs2 s
  refine ⟨?add, ?sub, ?slt, ?sltu, ?xor, ?or, ?and⟩
  case add => exact writesReg_of_ofInt rfl (add_eq_ofInt h1 h2) rfl
  case sub => exact writesReg_of_ofInt rfl (sub_eq_ofInt h1 h2) rfl
  case slt => exact writesReg_of_bool rfl (cmpLt_regs rs1 rs2 s)
  case sltu => exact writesReg_of_bool rfl (cmpLtu_regs rs1 rs2 s)
  case xor =>
    refine writesReg_of_finishRd rfl ?_
    rw [truncX_xor, truncX_readX, truncX_readX, BitVec.toNat_xor, ux, ux]
  case or =>
    refine writesReg_of_finishRd rfl ?_
    rw [truncX_or, truncX_readX, truncX_readX, BitVec.toNat_or, ux, ux]
  case and =>
    refine writesReg_of_finishRd rfl ?_
    rw [truncX_and, truncX_readX, truncX_readX, BitVec.toNat_and, ux, ux]

/-! ### Shifts (R427 to R429, R432, R436, R437) -/

section

variable {i : Instr} {rd rs1 : Reg} {n : Nat} {s : State}

theorem writesReg_of_shiftLeft (hi : exec i s = finishRd rd (readX rs1 s <<< n) s) :
    writesReg i rd (wrapX s.cfg.xlen (ux rs1 s * 2 ^ n)) s :=
  writesReg_of_ofInt hi (ofInt_shiftLeft (readX_eq_ofInt rs1 s) n) rfl

theorem writesReg_of_shiftRightU (hi : exec i s = finishRd rd (shiftRightU s.cfg.xlen (readX rs1 s) n) s) :
    writesReg i rd (ux rs1 s / 2 ^ n) s := by
  refine writesReg_of_toNat hi ?_ (Nat.lt_of_le_of_lt (Nat.div_le_self _ _) (readX_lt rs1 s))
  rw [shiftRightU_toNat, truncX_readX, ux]

theorem writesReg_of_shiftRightS (hi : exec i s = finishRd rd (shiftRightS s.cfg.xlen (readX rs1 s) n) s) :
    writesReg i rd (wrapX s.cfg.xlen (sx rs1 s / 2 ^ n)) s :=
  writesReg_of_ofInt hi (shiftRightS_eq _ _ n) rfl

end

/-- Settles O15: an amount below XLEN is not reserved, so each is the shift of its name. -/
theorem shiftImmResults : Obligations.ShiftImmResults := fun _ _ _ _ hlt =>
  ⟨writesReg_of_shiftLeft (shiftImm_of_lt hlt), writesReg_of_shiftRightU (shiftImm_of_lt hlt),
    writesReg_of_shiftRightS (shiftImm_of_lt hlt)⟩

/-- Settles O17: the low 5 or 6 bits of a register are its value modulo XLEN. -/
theorem regShiftResults : Obligations.RegShiftResults := by
  rintro s rd rs1 rs2 n rfl
  rw [← shiftAmount_eq]
  exact ⟨writesReg_of_shiftLeft rfl, writesReg_of_shiftRightU rfl, writesReg_of_shiftRightS rfl⟩

/-! ### The word instructions of RV64 (R445 to R453) -/

section

variable {i : Instr} {rd rs1 : Reg} {s : State}

/-- An instruction that sign-extends the low 32 bits of a word, where the word is `m` modulo 2^64. -/
theorem writesReg_of_sext32 {v : Word} {m : Int} (hx : s.cfg.xlen = .rv64)
    (hi : exec i s = onRv64 i s (finishRd rd (sext32 v) s)) (hv : v = BitVec.ofInt 64 m) :
    writesReg i rd (wrapX .rv64 (signed32 m)) s := by
  rw [onRv64_rv64 hx] at hi
  exact writesReg_of_ofInt hi ((sext32_eq v).trans (by rw [signed32_ofInt hv])) (by rw [hx])

theorem wordShiftRight_eq_ofInt (r : Reg) (n : Nat) (s : State) :
    truncX .rv32 (readX r s) >>> n = BitVec.ofInt 64 (ux r s % 2 ^ 32 / 2 ^ n) := by
  rw [ofInt_toNat (truncX .rv32 (readX r s) >>> n), BitVec.toNat_ushiftRight, Nat.shiftRight_eq_div_pow, truncX_toNat]
  push_cast
  rfl

variable {n : Nat} (hx : s.cfg.xlen = .rv64)

include hx

theorem writesReg_of_shiftLeftW (hi : exec i s = onRv64 i s (finishRd rd (shiftLeftW (readX rs1 s) n) s)) :
    writesReg i rd (wrapX .rv64 (signed32 (ux rs1 s * 2 ^ n))) s :=
  writesReg_of_sext32 hx hi (ofInt_shiftLeft (readX_eq_ofInt rs1 s) n)

theorem writesReg_of_shiftRightUW (hi : exec i s = onRv64 i s (finishRd rd (shiftRightUW (readX rs1 s) n) s)) :
    writesReg i rd (wrapX .rv64 (signed32 (ux rs1 s % 2 ^ 32 / 2 ^ n))) s :=
  writesReg_of_sext32 hx hi (wordShiftRight_eq_ofInt rs1 n s)

theorem writesReg_of_shiftRightSW (hi : exec i s = onRv64 i s (finishRd rd (shiftRightSW (readX rs1 s) n) s)) :
    writesReg i rd (wrapX .rv64 (signed32 (ux rs1 s) / 2 ^ n)) s := by
  rw [onRv64_rv64 hx] at hi
  exact writesReg_of_ofInt hi (shiftRightSW_eq _ n) (by rw [hx]; rfl)

end

/-- Settles O19: the low 32 bits of a sum or difference of words are those of the sum or difference of the numbers. -/
theorem wordArithResults : Obligations.WordArithResults := by
  intro s rd rs1 rs2 imm hx
  have h1 := readX_eq_ofInt rs1 s
  have h2 := readX_eq_ofInt rs2 s
  exact ⟨writesReg_of_sext32 hx rfl (add_eq_ofInt h1 (imm12_eq imm)), writesReg_of_sext32 hx rfl (add_eq_ofInt h1 h2),
    writesReg_of_sext32 hx rfl (sub_eq_ofInt h1 h2)⟩

/-- Settles O20: the forms by a register shift by its value modulo 32. -/
theorem wordShiftResults : Obligations.WordShiftResults := by
  rintro s rd rs1 rs2 shamt n hx rfl
  rw [← shiftAmountW_eq]
  exact ⟨writesReg_of_shiftLeftW hx rfl, writesReg_of_shiftRightUW hx rfl, writesReg_of_shiftRightSW hx rfl,
    writesReg_of_shiftLeftW hx rfl, writesReg_of_shiftRightUW hx rfl, writesReg_of_shiftRightSW hx rfl⟩

end Sys2Proof.Machine

/-! PROOFS. Loads and stores of main memory, and the exceptions of an access that fails its checks. -/

namespace Sys2Proof.Machine

section

variable {i : Instr} {sz : MemSize} {rd rs1 rs2 : Reg} {imm : BitVec 12} {s : State} {r : Region}

/-! ### Loads (R413 to R417, R442, R443) -/

theorem MemSize.bytes_le (sz : MemSize) : sz.bytes ≤ 8 := by cases sz <;> decide

theorem word_fits_xlen (xl : Xlen) : 2 ^ 32 ≤ 2 ^ xl.bits := by cases xl <;> decide

/-- A load from main memory that extends the sign of the `k` bits it reads. -/
theorem writesReg_of_signedLoad {ext : Word → Word} {k : Nat} (hr : isMemory r)
    (hi : exec i s = loadInstr sz ext rd rs1 imm s) (hext : ∀ v, ext v = BitVec.ofInt 64 (Int.bmod v.toNat (2 ^ k)))
    (hc : checkAccess .R (effAddr rs1 imm s) sz.bytes s = .ok r) :
    writesReg i rd (wrapX s.cfg.xlen (Int.bmod (leNat s.mem (effAddr rs1 imm s).toNat sz.bytes) (2 ^ k))) s := by
  rw [loadInstr_ok hc, regionRead_memory hr] at hi
  rw [← readLE_toNat _ _ _ sz.bytes_le]
  exact writesReg_of_ofInt hi (hext _) rfl

/-- A load from main memory of a value that fits XLEN bits, without its sign. -/
theorem writesReg_of_unsignedLoad (hr : isMemory r) (hi : exec i s = loadInstr sz id rd rs1 imm s)
    (hfit : 256 ^ sz.bytes ≤ 2 ^ s.cfg.xlen.bits)
    (hc : checkAccess .R (effAddr rs1 imm s) sz.bytes s = .ok r) :
    writesReg i rd (leNat s.mem (effAddr rs1 imm s).toNat sz.bytes) s := by
  rw [loadInstr_ok hc, regionRead_memory hr] at hi
  exact writesReg_of_toNat hi (readLE_toNat _ _ _ sz.bytes_le) (Nat.lt_of_lt_of_le (leNat_lt _ _ _) hfit)

/-! ### Stores (R418 to R420, R444) -/

theorem storesBytes_of_storeInstr (hr : isMemory r) (hwf : Memory.wf s.mem = true)
    (hi : exec i s = storeInstr sz rs2 rs1 imm s) (hc : checkAccess .W (effAddr rs1 imm s) sz.bytes s = .ok r) :
    storesBytes i (effAddr rs1 imm s).toNat sz.bytes (ux rs2 s) s := by
  rw [storeInstr_ok hc, regionWrite_memory hr] at hi
  exact ⟨_, hi, fun a => memRead_writeLE hwf _ _ a _, fun _ => rfl, advancePc_movedOn s, rfl, rfl⟩

/-! ### Accesses that fail (R233, R240) -/

theorem checkAccess_error_exc {t : AccessType} {ea : Word} {n : Nat} {e : Raised} (hc : checkAccess t ea n s = .error e) :
    e.tval = ea ∧ (e.exc = misalignedExc t ∨ e.exc = accessFaultExc t) := by
  obtain rfl | ⟨-, -, rfl⟩ := checkAccess_error hc
  · exact ⟨rfl, .inr rfl⟩
  · exact ⟨rfl, .inl rfl⟩

theorem raises_of_loadInstr {ext : Word → Word} {e : Raised} (hi : exec i s = loadInstr sz ext rd rs1 imm s)
    (hc : checkAccess .R (effAddr rs1 imm s) sz.bytes s = .error e) : raises i e.exc (effAddr rs1 imm s) s := by
  obtain ⟨htval, -⟩ := checkAccess_error_exc hc
  rw [← htval]
  exact hi.trans (loadInstr_error hc)

theorem raises_of_storeInstr {e : Raised} (hi : exec i s = storeInstr sz rs2 rs1 imm s)
    (hc : checkAccess .W (effAddr rs1 imm s) sz.bytes s = .error e) : raises i e.exc (effAddr rs1 imm s) s := by
  obtain ⟨htval, -⟩ := checkAccess_error_exc hc
  rw [← htval]
  exact hi.trans (storeInstr_error hc)

end

/-- Settles O22: each load reads the bytes at its effective address and extends them by their sign or by zeros. -/
theorem loadsFromMemory : Obligations.LoadsFromMemory := by
  rintro s rd rs1 imm r ea rfl
  have hword := word_fits_xlen s.cfg.xlen
  refine ⟨effAddr_toNat rs1 imm s, fun hr => ⟨fun hc => ⟨?lb, ?lbu⟩, fun hc => ⟨?lh, ?lhu⟩,
    fun hc => ⟨?lw, fun hx => ?lwu⟩, fun hc hx => ?ld⟩⟩
  case lb => exact writesReg_of_signedLoad (sz := .byte) hr rfl sext8_eq hc
  case lh => exact writesReg_of_signedLoad (sz := .half) hr rfl sext16_eq hc
  case lw => exact writesReg_of_signedLoad (sz := .word) hr rfl sext32_eq hc
  case lbu => exact writesReg_of_unsignedLoad (sz := .byte) hr rfl (Nat.le_trans (by decide) hword) hc
  case lhu => exact writesReg_of_unsignedLoad (sz := .half) hr rfl (Nat.le_trans (by decide) hword) hc
  case lwu => exact writesReg_of_unsignedLoad (sz := .word) hr (onRv64_rv64 hx) hword hc
  case ld => exact writesReg_of_unsignedLoad (sz := .dword) hr (onRv64_rv64 hx) (by rw [hx]; decide) hc

/-- Settles O23: writing in the canonical form changes the bytes of the access alone. -/
theorem storesToMemory : Obligations.StoresToMemory := by
  rintro s rs2 rs1 imm r ea rfl hr hwf
  refine ⟨?sb, ?sh, ?sw, fun hc hx => ?sd⟩
  case sb => exact storesBytes_of_storeInstr (sz := .byte) hr hwf rfl
  case sh => exact storesBytes_of_storeInstr (sz := .half) hr hwf rfl
  case sw => exact storesBytes_of_storeInstr (sz := .word) hr hwf rfl
  case sd => exact storesBytes_of_storeInstr (sz := .dword) hr hwf (onRv64_rv64 hx) hc

/-- Settles O24: a load or store takes the exception that its check names. -/
theorem accessExceptions : Obligations.AccessExceptions := by
  rintro s rd rs1 rs2 imm ea e rfl
  refine ⟨fun n => checkAccess_error_exc, fun n => checkAccess_error_exc, fun hc => ⟨?lb, ?lbu⟩, fun hc => ⟨?lh, ?lhu⟩,
    fun hc => ⟨?lw, fun hx => ?lwu⟩, fun hc hx => ?ld, ?sb, ?sh, ?sw, fun hc hx => ?sd⟩
  case lb => exact raises_of_loadInstr (sz := .byte) rfl hc
  case lbu => exact raises_of_loadInstr (sz := .byte) rfl hc
  case lh => exact raises_of_loadInstr (sz := .half) rfl hc
  case lhu => exact raises_of_loadInstr (sz := .half) rfl hc
  case lw => exact raises_of_loadInstr (sz := .word) rfl hc
  case lwu => exact raises_of_loadInstr (sz := .word) (onRv64_rv64 hx) hc
  case ld => exact raises_of_loadInstr (sz := .dword) (onRv64_rv64 hx) hc
  case sb => exact raises_of_storeInstr (sz := .byte) rfl
  case sh => exact raises_of_storeInstr (sz := .half) rfl
  case sw => exact raises_of_storeInstr (sz := .word) rfl
  case sd => exact raises_of_storeInstr (sz := .dword) (onRv64_rv64 hx) hc

end Sys2Proof.Machine

/-! PROOFS. What a step does: whether the hart wakes, what runs at a boundary, and the platform's move after it. -/

namespace Sys2Proof.Machine

/-! ### The parameters (R520, `00_scope.md` section 4) -/

theorem config_stepInvariant (c : Config) : StepInvariant (fun s => s.cfg = c) where
  control hc h := by rw [hc]; exact h
  advance h := h
  jump _ _ _ h := h
  trap _ _ _ _ _ h := h
  trapReturn _ _ h := h
  csr _ he h := (csrEffect_cfg he).trans h

/-- Settles O8: every step has one of the effects of `StepEffect`, and none of them reaches the parameters. -/
theorem stepAlwaysNext : Obligations.StepAlwaysNext := by
  intro s
  obtain ⟨t, hstep, -⟩ := step_effect s
  exact ⟨t, hstep, (config_stepInvariant s.cfg).step hstep rfl⟩

/-! ### A boundary (R520) -/

section

variable {s : State}

theorem step_of_stalled (hs : s.wfiStalled = true) (hw : wakes s = false) : step s = .next (passTime s) :=
  if_pos (by rw [hs, hw]; rfl)

theorem step_of_awake (h : s.wfiStalled = false ∨ wakes s = true) : step s = thenPassTime (runAwake (awaken s)) := by
  refine if_neg ?_
  rcases h with h | h <;> simp [h]

theorem runAwake_interrupt {i : Nat} (h : nextInterrupt s = some i) : runAwake s = .next (takeInterrupt i s) := by
  simp only [runAwake, h]

theorem runAwake_error {e : Raised} (hi : nextInterrupt s = none) (hf : fetch s = .error e) :
    runAwake s = raise e s := by
  simp only [runAwake, hi, execAtPc, hf]

theorem runAwake_decoded {w : InstWord} {i : Instr} (hi : nextInterrupt s = none) (hf : fetch s = .ok w)
    (hd : decodeWord s.cfg.xlen w = .ok i) : runAwake s = exec i s := by
  simp only [runAwake, hi, execAtPc, hf, execWord, hd]

/-- A fetch is not checked for alignment, so it fails with an access fault alone (R240, log 13). -/
theorem fetch_error {e : Raised} (h : fetch s = .error e) : e = { exc := .instrAccessFault, tval := s.pc } := by
  unfold fetch at h
  split at h
  · cases h
  · rename_i hc
    cases h
    rcases checkAccess_error hc with he | ⟨hX, -⟩
    · exact he
    · exact absurd rfl hX

end

/-! ### The platform's move (R136, R141, R328) -/

theorem cycleHeld_iff (s : State) : cycleHeld s = true ↔ s.mcountinhibit.getLsbD 0 = true ∨ s.mcycleWritten = true :=
  Bool.or_eq_true_iff

/-- Settles O6: an awake hart with no interrupt to take runs the instruction it decodes, and the platform moves. -/
theorem stepRunsDecoded : Obligations.StepRunsDecoded := by
  intro s t w i hawake hint hfetch hdecode hexec
  rw [step_of_awake hawake, runAwake_decoded hint hfetch hdecode, hexec]
  simp only [thenPassTime, passTime, cycleHeld_iff]

/-! ### Waking (R356) -/

/-- The interrupts of the order of R522 are those that `mip` can show. -/
theorem mem_intOrder_of_mipBit {s : State} {k : Nat} (h : mipBit s k = true) : k ∈ intOrder := by
  have hperm : [0, 1, 3, 4, 5, 7, 8, 9, 11].Perm intOrder := by decide
  by_contra hk
  rw [mipBit_of_not_mem s k (mt hperm.mem_iff.mp hk)] at h
  cases h

theorem wakes_iff (s : State) :
    wakes s = true ↔ s.lines.wake = true ∨ ∃ k, s.mie.getLsbD k = true ∧ mipBit s k = true := by
  rw [wakes, Bool.or_eq_true, or_comm, List.any_eq_true]
  refine or_congr_right (exists_congr fun k => ?_)
  rw [Bool.and_eq_true]
  exact and_iff_right_of_imp fun ⟨_, hp⟩ => mem_intOrder_of_mipBit hp

/-- Settles O7: the boundary's cases in their order: asleep, an interrupt, a fetch that fails. -/
theorem stepBeforeExecution : Obligations.StepBeforeExecution := by
  intro s
  refine ⟨wakes_iff s, step_of_stalled, fun hawake => ⟨fun i hint => ?interrupt, fun e hint hfetch => ?fault⟩⟩
  case interrupt =>
    rw [step_of_awake hawake, runAwake_interrupt hint]
    rfl
  case fault =>
    rw [step_of_awake hawake, runAwake_error hint hfetch, fetch_error hfetch]
    rfl

end Sys2Proof.Machine

/-! PROOFS. Traps: where they go, what their entry writes, and which interrupt is taken. -/

namespace Sys2Proof.Machine

/-! ### Routing (R551, R552) -/

theorem delegExists_eq_false_iff (c : Config) :
    delegExists c = false ↔ c.modes = .m ∨ (c.modes = .mu ∧ c.extN = false) := by
  rw [delegExists, Bool.or_eq_false_iff, hasS_eq_false_iff, hasN_eq_false_iff]
  cases c.modes <;> simp

/-- The mode a trap is delegated to, from its bit in the M-level delegation register and its bit in the S-level one: what
R551 and R552 have in common. -/
def delegatedMode (c : Config) (fromM fromS : Bool) : Priv :=
  if delegExists c && fromM then (if c.hasS then (if c.hasN && fromS then .U else .S) else .U) else .M

theorem intTarget_eq (c : Nat) (s : State) :
    intTarget c s = delegatedMode s.cfg (s.mideleg.getLsbD c) (s.sideleg.getLsbD c) := by
  unfold intTarget delegatedMode
  cases delegExists s.cfg <;> cases s.mideleg.getLsbD c <;> rfl

theorem excDelegate_eq (c : Nat) (s : State) :
    excDelegate c s = delegatedMode s.cfg (s.medeleg.getLsbD c) (s.sedeleg.getLsbD c) := rfl

section

variable {c : Config} {fromM : Bool}

theorem delegatedMode_kept (h : c.modes = .m ∨ (c.modes = .mu ∧ c.extN = false) ∨ fromM = false) (fromS : Bool) :
    delegatedMode c fromM fromS = .M := by
  rw [← or_assoc, ← delegExists_eq_false_iff] at h
  exact if_neg (by rcases h with h | h <;> simp [h])

theorem delegatedMode_mu (hm : c.modes = .mu) (hn : c.extN = true) (fromS : Bool) : delegatedMode c true fromS = .U := by
  simp [delegatedMode, delegExists, Config.hasS, Config.hasN, Config.hasU, hm, hn]

theorem delegatedMode_msu (hm : c.modes = .msu) (fromS : Bool) :
    delegatedMode c true fromS = if c.extN = true ∧ fromS = true then .U else .S := by
  simp [delegatedMode, delegExists, Config.hasS, Config.hasN, Config.hasU, hm]

end

/-- Settles O42: interrupts and exceptions are delegated alike, and an exception is then raised to the current mode. -/
theorem trapRouting : Obligations.TrapRouting := by
  intro s c d
  have hint : trapTarget true c s = _ := intTarget_eq c s
  have hexc : trapTarget false c s = if (excDelegate c s).level < s.priv.level then s.priv else excDelegate c s := rfl
  refine ⟨fun h => ?_, fun hm hn hd => ?_, fun hm hd => ?_, fun h => ?_, level_le_excTarget c s⟩
  · rw [hint, delegatedMode_kept h]
  · rw [hint, hd, delegatedMode_mu hm hn]
  · rw [hint, hd, delegatedMode_msu hm]
  · rw [hexc]
    have hd : excDelegate c s = d := by
      rw [excDelegate_eq]
      rcases h with ⟨h, rfl⟩ | ⟨hm, hn, hb, rfl⟩ | ⟨hm, hb, rfl⟩
      · exact delegatedMode_kept h _
      · rw [hb, delegatedMode_mu hm hn]
      · rw [hb, delegatedMode_msu hm]
    rw [hd]

/-! ### Trap entry (R89, R531, R532) -/

theorem bitAt_top_toNat (xl : Xlen) (b : Bool) : (bitAt b (xl.bits - 1)).toNat = if b then 2 ^ (xl.bits - 1) else 0 := by
  cases xl <;> cases b <;> rfl

/-- The Interrupt bit lies above every code (R144). -/
theorem causeWord_toNat (xl : Xlen) (b : Bool) {c : Nat} (hc : c < 64) :
    (causeWord xl b c).toNat = (if b then 2 ^ (xl.bits - 1) else 0) + c := by
  have hlt : c < 2 ^ (xl.bits - 1) := hc.trans (by cases xl <;> decide)
  rw [causeWord, BitVec.toNat_or, bitAt_top_toNat, BitVec.toNat_ofNat, Nat.mod_eq_of_lt (by omega)]
  cases b with
  | true => simpa using (Nat.two_pow_add_eq_or_of_lt hlt 1).symm
  | false => simp

theorem low2_beq_one_iff (v : Word) : (v.extractLsb' 0 2 == 1#2) = true ↔ v.toNat % 4 = 1 := by
  rw [beq_iff_eq, ← low2_eq, ← BitVec.toNat_inj]
  rfl

theorem trapVector_toNat (xl : Xlen) (tvec : Word) (b : Bool) (c : Nat) :
    (trapVector xl tvec b c).toNat =
      (tvec.toNat / 4 * 4 + (if b = true ∧ tvec.toNat % 4 = 1 then 4 * c else 0)) % 2 ^ xl.bits := by
  simp only [trapVector, Bool.and_eq_true, low2_beq_one_iff]
  split
  · rw [truncX_toNat, BitVec.toNat_add, alignWord_toNat, BitVec.toNat_ofNat, Nat.mod_mod_of_dvd _ (two_pow_bits_le xl),
      Nat.add_mod, Nat.mod_mod_of_dvd _ (two_pow_bits_le xl), ← Nat.add_mod]
  · rw [truncX_toNat, alignWord_toNat, Nat.add_zero]

theorem alignWord_of_aligned {v : Word} (h : v.toNat % 4 = 0) : alignWord v = v := by
  apply BitVec.eq_of_toNat_eq
  rw [alignWord_toNat]
  omega

theorem trapRegs_takeTrap_target (b : Bool) (c : Nat) (v e : Word) (s : State) :
    trapRegs (trapTarget b c s) (takeTrap b c v e s) =
      trapRegsAfter s.cfg.xlen b c v e (trapRegs (trapTarget b c s) s) :=
  (trapRegs_enterTrap _ _ b c v e s).trans (if_pos rfl)

theorem trapRegs_takeTrap_of_ne {z : Priv} {b : Bool} {c : Nat} {s : State} (hz : z ≠ trapTarget b c s) (v e : Word) :
    trapRegs z (takeTrap b c v e s) = trapRegs z s := (trapRegs_enterTrap _ _ b c v e s).trans (if_neg hz)

/-- Settles O41: entry writes three trap registers of the target, the stack, the mode, `pc` and the stall. -/
theorem trapEntry : Obligations.TrapEntry := by
  constructor
  · rintro s t isInt c tval epc x b rfl hc halign hepc htval rfl rfl
    rw [trapRegs_takeTrap_target]
    refine ⟨?epc, truncX_of_lt htval, causeWord_toNat _ isInt hc, rfl, rfl,
      fun z hz => trapRegs_takeTrap_of_ne hz tval epc, ?mstatus, rfl, trapVector_toNat .., rfl, rfl⟩
    case epc =>
      show alignWord (truncX s.cfg.xlen epc) = epc
      rw [truncX_of_lt hepc, alignWord_of_aligned halign]
    case mstatus =>
      show pushPrivStack (trapTarget isInt c s) s.priv s.mstatus = _
      cases trapTarget isInt c s <;> rfl
  · rintro s ⟨exc, tval⟩
    cases exc <;> rfl

/-! ### Which interrupt is taken (R521, R522) -/

/-- The element that `find?` answers comes before every other one that fits. -/
theorem idxOf_le_of_find?_eq_some {α : Type} [DecidableEq α] {p : α → Bool} {l : List α} {a b : α}
    (h : l.find? p = some a) (hb : p b = true) : l.idxOf a ≤ l.idxOf b := by
  induction l with
  | nil => cases h
  | cons x l ih =>
    cases hx : p x with
    | true =>
      rw [List.find?_cons_of_pos hx, Option.some.injEq] at h
      rw [h, List.idxOf_cons_self]
      exact Nat.zero_le _
    | false =>
      have hne {y : α} (hy : p y = true) : x ≠ y := fun e => by rw [e, hy] at hx; cases hx
      rw [List.find?_cons_of_neg (by rw [hx]; decide)] at h
      rw [List.idxOf_cons_ne _ (hne (List.find?_some h)), List.idxOf_cons_ne _ (hne hb)]
      exact Nat.succ_le_succ (ih h)

theorem level_injective {a b : Priv} (h : a.level = b.level) : a = b := by
  cases a <;> cases b <;> simp [Priv.level] at h ⊢

section

variable {s : State} {i j : Nat}

theorem pendingFor_ne_none (hj : j ∈ intOrder) (hc : canTake j s = true) : pendingFor (intTarget j s) s ≠ none := by
  intro h
  refine List.find?_eq_none.mp h j hj ?_
  rw [beq_self_eq_true, hc]
  rfl

/-- The destinations are looked through from the highest mode down. -/
theorem nextInterrupt_eq_some (h : nextInterrupt s = some i) :
    ∃ x, pendingFor x s = some i ∧ ∀ y, x.level < y.level → pendingFor y s = none := by
  unfold nextInterrupt at h
  split at h
  · rename_i hM
    exact ⟨.M, hM.trans h, fun y hy => absurd (level_le_M y) (Nat.not_le.mpr hy)⟩
  · rename_i hM
    split at h
    · rename_i hS
      refine ⟨.S, hS.trans h, fun y hy => ?_⟩
      cases y with
      | M => exact hM
      | S => exact absurd hy (lt_irrefl _)
      | U => exact absurd hy (by decide)
    · rename_i hS
      refine ⟨.U, h, fun y hy => ?_⟩
      cases y with
      | M => exact hM
      | S => exact hS
      | U => exact absurd hy (lt_irrefl _)

theorem pendingFor_of_nextInterrupt_none (h : nextInterrupt s = none) (x : Priv) : pendingFor x s = none := by
  unfold nextInterrupt at h
  split at h
  · cases h
  · rename_i hM
    split at h
    · cases h
    · rename_i hS
      cases x with
      | M => exact hM
      | S => exact hS
      | U => exact h

theorem nextInterrupt_ne_none (hj : j ∈ intOrder) (hc : canTake j s = true) : nextInterrupt s ≠ none :=
  fun h => pendingFor_ne_none hj hc (pendingFor_of_nextInterrupt_none h _)

end

/-- Interrupt `i` goes before `j` or is `j` (R522): it has the higher destination, or the same one and an earlier place. -/
def comesFirst (s : State) (i j : Nat) : Prop :=
  (intTarget j s).level < (intTarget i s).level ∨
    (intTarget j s = intTarget i s ∧ intOrder.idxOf i ≤ intOrder.idxOf j)

section

variable {s : State} {i j : Nat}

theorem comesFirst_antisymm (hi : i ∈ intOrder) (hij : comesFirst s i j) (hji : comesFirst s j i) : i = j := by
  have hidx : intOrder.idxOf i = intOrder.idxOf j := by
    rcases hij with hlt | ⟨heq, hle⟩ <;> rcases hji with hlt' | ⟨heq', hle'⟩
    · omega
    · rw [heq'] at hlt; omega
    · rw [heq] at hlt'; omega
    · omega
  exact (List.idxOf_inj hi).mp hidx

/-- The interrupt taken goes before every other that can be taken. -/
theorem nextInterrupt_comesFirst (h : nextInterrupt s = some i) (hj : j ∈ intOrder) (hc : canTake j s = true) :
    comesFirst s i j := by
  obtain ⟨x, hx, habove⟩ := nextInterrupt_eq_some h
  obtain ⟨-, rfl, -⟩ := pendingFor_mem hx
  have hle : (intTarget j s).level ≤ (intTarget i s).level :=
    Nat.not_lt.mp fun hlt => pendingFor_ne_none hj hc (habove _ hlt)
  rcases hle.lt_or_eq with hlt | heq
  · exact .inl hlt
  · have heq := level_injective heq
    refine .inr ⟨heq, idxOf_le_of_find?_eq_some hx ?_⟩
    rw [heq, beq_self_eq_true, hc]
    rfl

theorem nextInterrupt_eq_some_iff :
    nextInterrupt s = some i ↔
      (i ∈ intOrder ∧ canTake i s = true) ∧ ∀ j, j ∈ intOrder ∧ canTake j s = true → comesFirst s i j := by
  refine ⟨fun h => ⟨nextInterrupt_canTake h, fun j ⟨hj, hc⟩ => nextInterrupt_comesFirst h hj hc⟩,
    fun ⟨⟨hi, hc⟩, hfirst⟩ => ?_⟩
  obtain ⟨k, hk⟩ := Option.ne_none_iff_exists'.mp (nextInterrupt_ne_none hi hc)
  rw [hk, comesFirst_antisymm hi (hfirst k (nextInterrupt_canTake hk)) (nextInterrupt_comesFirst hk hi hc)]

theorem nextInterrupt_eq_none_iff : nextInterrupt s = none ↔ ∀ j, ¬ (j ∈ intOrder ∧ canTake j s = true) := by
  refine ⟨fun h j ⟨hj, hc⟩ => nextInterrupt_ne_none hj hc h, fun h => ?_⟩
  cases hk : nextInterrupt s with
  | none => rfl
  | some k => exact absurd (nextInterrupt_canTake hk) (h k)

/-- `mip` shows every interrupt that `mie` can enable (R331). -/
theorem csrRead_mip_of_enabled (hmie : within (mieMask s.cfg) s.mie) (h : s.mie.getLsbD j = true) :
    (csrRead .mip s).getLsbD j = mipBit s j := by
  rw [csrRead_of_mipView rfl, (within_iff _ _).mp hmie j h, Bool.and_true]

theorem canTake_iff (hmie : within (mieMask s.cfg) s.mie) :
    canTake j s = true ↔
      (csrRead .mip s).getLsbD j = true ∧ s.mie.getLsbD j = true ∧
        (s.priv.level < (intTarget j s).level ∨ (s.priv = intTarget j s ∧ globalEnable s.priv s.mstatus = true)) := by
  simp only [canTake, globallyEnabled, Bool.and_eq_true, Bool.or_eq_true, decide_eq_true_eq, beq_iff_eq]
  constructor
  · rintro ⟨⟨hglobal, hen⟩, hpend⟩
    exact ⟨csrRead_mip_of_enabled hmie hen ▸ hpend, hen, hglobal.imp_right fun ⟨hp, he⟩ => ⟨hp, hp ▸ he⟩⟩
  · rintro ⟨hpend, hen, hglobal⟩
    exact ⟨⟨hglobal.imp_right fun ⟨hp, he⟩ => ⟨hp, hp ▸ he⟩, hen⟩, csrRead_mip_of_enabled hmie hen ▸ hpend⟩

end

/-- Settles O47: among the interrupts that can be taken, the one taken is the first in the order `comesFirst`. -/
theorem interruptSelection : Obligations.InterruptSelection := by
  rintro s can order i rfl rfl hmie
  have hcan (j : Nat) := and_congr_right (a := j ∈ intOrder) fun _ => canTake_iff (j := j) hmie
  constructor
  · refine nextInterrupt_eq_some_iff.trans (and_congr (hcan i) (forall_congr' fun j => ?_))
    rw [hcan j]
    rfl
  · refine nextInterrupt_eq_none_iff.trans (forall_congr' fun j => ?_)
    rw [hcan j]
    rfl

end Sys2Proof.Machine

/-! PROOFS. The reset procedure, and what PMP answers before any entry is programmed. -/

namespace Sys2Proof.Machine

/-! ### PMP with every entry OFF (R230, R603) -/

theorem pmpScan_of_off {s : State} (hoff : ∀ i : Fin 16, s.pmpcfg[i].toNat / 8 % 4 = 0) (addr n : Nat) (a : AccessType)
    (p : Priv) (l : List (Fin 16)) : pmpScan addr n a p s l = (p == .M || s.cfg.pmpEntries == 0) := by
  induction l with
  | nil => rfl
  | cons i l ih =>
    have hnone : (accessBytes addr n).any (pmpMatches i s) = false :=
      List.any_eq_false.mpr fun y _ => by rw [pmpMatches_off (hoff i)]; exact Bool.false_ne_true
    rw [pmpScan, hnone]
    exact ih

/-- An OFF entry matches nothing, so the default decides. -/
theorem pmpCheck_of_off {s : State} (hoff : ∀ i : Fin 16, s.pmpcfg[i].toNat / 8 % 4 = 0) (addr n : Nat) (a : AccessType)
    (p : Priv) : pmpCheck addr n a p s = (p == .M || s.cfg.pmpEntries == 0) :=
  pmpScan_of_off hoff addr n a p (pmpImplemented s.cfg)

theorem pmpCheck_lower_of_off {s : State} (hoff : ∀ i : Fin 16, s.pmpcfg[i].toNat / 8 % 4 = 0)
    (hentries : 0 < s.cfg.pmpEntries) (addr n : Nat) (a : AccessType) {p : Priv} (hp : p ≠ .M) :
    pmpCheck addr n a p s = false := by
  rw [pmpCheck_of_off hoff, beq_eq_false_iff_ne.mpr hp, beq_eq_false_iff_ne.mpr hentries.ne', Bool.or_false]

/-- A fetch runs at the current mode, whatever MPRV says (R236), and PMP refuses it with an access fault. -/
theorem fetch_of_pmpCheck_eq_false {s : State} (h : pmpCheck s.pc.toNat 4 .X s.priv s = false) :
    fetch s = .error { exc := .instrAccessFault, tval := s.pc } := by
  rw [fetch, checkAccess_fault (.inl rfl) (.inr (.inl h))]
  rfl

/-! ### The PMP entries after reset (R165) -/

theorem hartReset_off (u s : State) (i : Fin 16) : (hartReset u s).pmpcfg[i].toNat / 8 % 4 = 0 := by
  rw [← pmpMode_toNat, hartReset_pmpMode]
  rfl

theorem hartReset_unlocked (u s : State) (i : Fin 16) : (hartReset u s).pmpcfg[i].getLsbD 7 = false := by
  rw [hartReset_pmpcfg, resetPmpcfg_getLsbD]
  exact Bool.and_false _

/-- Reset takes A and L from a legal configuration byte, and nothing else. -/
theorem resetPmpcfg_of_legal {c : Config} {i : Fin 16} {b : Byte} {a : Word} (h : pmpEntryLegal c i b a) (k : Nat) :
    (resetPmpcfg c i.val b).getLsbD k = if k = 3 ∨ k = 4 ∨ k = 7 then false else b.getLsbD k := by
  obtain ⟨⟨hreserved, hwrite, -⟩, habsent, -⟩ := h
  rw [resetPmpcfg_getLsbD]
  by_cases hi : i.val < c.pmpEntries
  · have hbit (j : Nat) : (b &&& 0x60).getLsbD j = false := by rw [hreserved]; exact BitVec.getLsbD_zero
    rw [decide_eq_true hi, Bool.true_and]
    match k with
    | 0 | 2 | 3 | 4 | 7 => rfl
    | 1 => exact Bool.and_eq_left_iff_imp.mpr hwrite
    | 5 => simpa using (hbit 5).symm
    | 6 => simpa using (hbit 6).symm
    | k + 8 => simp
  · obtain ⟨rfl, -⟩ := habsent (Nat.not_lt.mp hi)
    simp [hi]

theorem resetPmpaddr_of_legal {c : Config} {i : Fin 16} {b : Byte} {a : Word} (h : pmpEntryLegal c i b a) :
    resetPmpaddr c i.val a = a := by
  obtain ⟨-, habsent, hwithin⟩ := h
  unfold resetPmpaddr
  split
  · exact and_of_clear hwithin
  · rename_i hi
    exact (habsent (Nat.not_lt.mp hi)).2.symm

/-! ### Reset keeps what is legal (R165, D24) -/

section

variable {u s : State}

theorem legalTrapRegs_trapRegs (hu : legalState u) (x : Priv) :
    legalTrapRegs u.cfg.xlen (trapRegs x u) = trapRegs x u := by
  obtain ⟨-, ⟨-, hepc⟩, htvec, -, -, -, -, -, hfit⟩ := hu
  exact legalTrapRegs_of_legal (hfit x) (htvec x) (hepc x)

theorem hartReset_mstatus_of_legal (hu : legalState u) (hcfg : u.cfg = s.cfg) :
    (hartReset u s).mstatus = { u.mstatus with mie := false, mprv := false } := by
  obtain ⟨-, -, -, hmodes, habsent, -⟩ := hu
  simp only [hartReset, ← hcfg, legalMstatus_of_legal hmodes habsent]

theorem hartReset_mtrap_of_legal (hu : legalState u) (hcfg : u.cfg = s.cfg) :
    (hartReset u s).mtrap = { u.mtrap with cause := 0 } := by
  have hm : legalTrapRegs u.cfg.xlen u.mtrap = u.mtrap := legalTrapRegs_trapRegs hu .M
  simp only [hartReset, ← hcfg, hm]

theorem hartReset_pmpcfg_of_legal (hu : legalState u) (hcfg : u.cfg = s.cfg) (i : Fin 16) (k : Nat) :
    (hartReset u s).pmpcfg[i].getLsbD k = if k = 3 ∨ k = 4 ∨ k = 7 then false else u.pmpcfg[i].getLsbD k := by
  obtain ⟨-, -, -, -, -, -, hpmp, -⟩ := hu
  rw [hartReset_pmpcfg, ← hcfg]
  exact resetPmpcfg_of_legal ((legalPmp_iff u).mp hpmp i) k

theorem hartReset_pmpaddr_of_legal (hu : legalState u) (hcfg : u.cfg = s.cfg) : (hartReset u s).pmpaddr = u.pmpaddr := by
  obtain ⟨-, -, -, -, -, -, hpmp, -⟩ := hu
  apply Vector.ext
  intro i hi
  rw [show (hartReset u s).pmpaddr[i] = _ from hartReset_pmpaddr u s ⟨i, hi⟩, ← hcfg]
  exact resetPmpaddr_of_legal ((legalPmp_iff u).mp hpmp ⟨i, hi⟩)

/-- Where the unspecified elements are legal, reset writes the elements that R165 names and takes the others as they are. -/
theorem hartReset_of_legal (hu : legalState u) (hcfg : u.cfg = s.cfg) :
    hartReset u s =
      { u with priv := .M, pc := s.cfg.resetVector, mstatus := (hartReset u s).mstatus, mtrap := (hartReset u s).mtrap
               pmpcfg := (hartReset u s).pmpcfg, wfiStalled := false, inputs := s.inputs, boundary := s.boundary
               mcycleWritten := false } := by
  have hstrap : legalTrapRegs u.cfg.xlen u.strap = u.strap := legalTrapRegs_trapRegs hu .S
  have hutrap : legalTrapRegs u.cfg.xlen u.utrap = u.utrap := legalTrapRegs_trapRegs hu .U
  have hpmpaddr : Vector.ofFn (fun i : Fin 16 => resetPmpaddr s.cfg i.val u.pmpaddr[i]) = u.pmpaddr :=
    hartReset_pmpaddr_of_legal hu hcfg
  obtain ⟨hmem, -, -, -, habsent, ⟨hmedeleg, hmideleg, hsedeleg, hsideleg, hmie, hmcen, hscen, hinhibit⟩, -, -⟩ := hu
  rw [hcfg] at hstrap hutrap hmideleg hmie
  have hmip : legalMip s.cfg u.mip = u.mip := hcfg ▸ legalMip_of_legal habsent
  simp only [hartReset, hstrap, hutrap, hpmpaddr, hmip, hcfg, canonicalMemory_of_wf hmem, and_of_clear hmedeleg,
    and_of_clear hmideleg, and_of_clear hsedeleg, and_of_clear hsideleg, and_of_clear hmie, and_of_clear hmcen,
    and_of_clear hscen, and_of_clear hinhibit]

end

/-- Settles O49: reset leaves every entry OFF, and entering a lower mode programs none. -/
theorem resetProtection : Obligations.ResetProtection := by
  rintro u s t addr n a rfl -
  have hoff := hartReset_off u s
  refine ⟨by rw [pmpCheck_of_off hoff]; rfl, fun hentries => ?_⟩
  have hdenied {p : Priv} := pmpCheck_lower_of_off (p := p) hoff hentries addr n a
  refine ⟨hdenied nofun, hdenied nofun, fun q hq he => fetch_of_pmpCheck_eq_false ?_⟩
  have hpmpcfg : q.pmpcfg = (hartReset u s).pmpcfg := by rw [he]
  have hcfg : q.cfg = s.cfg := by rw [he]; rfl
  exact pmpCheck_lower_of_off (hpmpcfg ▸ hoff) (hcfg ▸ hentries) _ _ _ hq

/-- Settles O48: what reset writes holds by its definition, and legal unspecified elements are kept. -/
theorem resetProcedure : Obligations.ResetProcedure := by
  refine ⟨?_, hartReset_reset⟩
  rintro u s t rfl
  refine ⟨rfl, rfl, rfl, rfl, rfl, fun i => ⟨hartReset_off u s i, hartReset_unlocked u s i⟩, rfl, rfl,
    memRead_canonicalMemory u.mem, fun hu hcfg => ?_⟩
  exact ⟨hartReset_mstatus_of_legal hu hcfg, hartReset_mtrap_of_legal hu hcfg, hartReset_pmpcfg_of_legal hu hcfg,
    hartReset_of_legal hu hcfg⟩

end Sys2Proof.Machine
